-- ==== Sys2Proof/Word.lean ====
section
/-!
DEFINITION. The value types of the core, by width (00_scope.md R6, R7, R10): the byte of a buffer, the 32-bit bus word and
command word, the 64-bit word of the sponge and of the data registers, and the limb, which is a 64-bit pattern whose
arithmetic wraps modulo 2^64 (`BitVec`'s own `+`, `-`, `*` are exactly the wrapped operations of R10, and `toInt` is the
two's-complement reading).
-/

namespace Sys2Proof

/-- `byte` of R10: 8 bits, unsigned. -/
abbrev Byte := BitVec 8

/-- One 32-bit bus access, and one command word (R70, R100). -/
abbrev Word := BitVec 32

/-- `word64` of R10: a 64-bit pattern. -/
abbrev Word64 := BitVec 64

/-- `limb` of R10: a 64-bit pattern, read as signed by `BitVec.toInt`. -/
abbrev Limb := BitVec 64

/-- A byte offset in the 4096-byte register window (R70): every 12-bit value is an offset of the window. -/
abbrev Offset := BitVec 12

end Sys2Proof
end

