-- ==== Sys2Proof/Config.lean ====
section
/-!
DEFINITION. What is fixed for the machine and is not state (00_scope.md R8): the constants the spec gives, and the values it
leaves open, each an `opaque` constant with no body, so that no proof can lean on a value of it.
-/

namespace Sys2Proof.Config

/-- The constant of the `ID` register (10_state.md R41). -/
def idValue : Word := 0x25519A07#32

/-- `IV_RESET` (R8, 10_state.md R39): the value of `IV` after reset. -/
def ivReset : Word64 := 0x80400C0600000000#64

/-- FREE VALUE. What a host read returns where the spec says the value is unspecified: a data region read while
`STATUS.BUSY` = 1 (20_memory.md R83), and any read while the reset input is asserted (70_reset_and_hazards.md R282).
"A model must treat the value as a free draw, a fresh value on each read with no law": the n-th draw of a run is
`freeRead n`, n being the counter `State.draws`. Log entry 3. -/
opaque freeRead : Nat → Word

/-- `NONCE_LITERAL` (R8, OPEN in 92_eei_decisions.md D23): the two 64-bit halves of the reference software's fixed nonce,
which the spec does not give. The host writes them to `N[0]`, `N[1]` in the sequence of 42_sponge.md R203. Log entry 9. -/
opaque nonceLiteral : Fin 2 → Word64

/-- `MSG_PACK` (R8, OPEN in 92_eei_decisions.md D41): how the host packs the bytes of a message into 64-bit words.
Log entry 9. -/
opaque msgPack : List Byte → List Word64

/-- `BASE` (R8, 20_memory.md R70): where the platform puts the window on the host's bus. Log entry 9. -/
opaque base : Nat

/-- `LAT(op)` (R8, 70_reset_and_hazards.md R295), less the one clock cycle every command takes at least: a function of the opcode
and, for `PERM`, of the round count, and of nothing else. Log entry 9. DESIGN CHOICE (log entry 17): R206, R233 and R295's first
part say so, while R295's closing sentence and R296 let the latency of `CRYPT` differ with `PHASE`; it does not here. -/
opaque extraLatency : Byte → Nat → Nat

end Sys2Proof.Config
end

