-- ==== Sys2Proof/Syntax.lean ====
section
/-!
DEFINITION. The command set (30_encoding.md R105, opcode_table.json): one constructor per row of the opcode table, with the
operands the row uses. The fields a row marks "—" are ignored (R108) and have no place here.
-/

namespace Sys2Proof

/-- A 4-bit index that names a field register `F[0]`..`F[15]` (R102): no index is illegal. -/
abbrev FReg := Fin 16

/-- A 4-bit index that names a byte buffer `B[0]`..`B[15]` (R102): no index is illegal. -/
abbrev BReg := Fin 16

/-- The 19 commands. Operands stand in the assembler's order, destination first (R110). -/
inductive Instr where
  | nop
  | fadd (d a b : FReg)
  | fsub (d a b : FReg)
  | fmul (d a b : FReg)
  | fsqr (d a : FReg)
  | fcar (d a : FReg)
  | finv (d a : FReg)
  | fcswap (a b : FReg) (swap : Bool)
  | funpack (d : FReg) (a : BReg)
  | fpack (d : BReg) (a : FReg)
  | smult (d a b : BReg)
  | smultb (d a : BReg)
  | perm (rounds : Nat)
  | init (load : Bool)
  | adabs
  | adend
  | crypt
  | final
  | keyld (a : BReg)
  deriving DecidableEq, Repr

end Sys2Proof
end

