-- ==== Sys2Proof/Machine/State.lean ====
section
/-!
DEFINITION. The state of the machine as plain data: every element of the tuple of 10_state.md R31 with the reset value of
R53, and beside it the model's own fields, which hold what comes from and goes to the outside (the accesses and events the
host and the reset input bring, the reset line, the answer to the host's last access, the counter of free draws).
-/

namespace Sys2Proof.Machine

/-- A field element: 16 limbs, limb `j` of weight 2^(16·j) (00_scope.md R6, 10_state.md R32). -/
abbrev FieldElem := Vector Limb 16

/-- A byte buffer: 32 bytes, byte `i` of weight 2^(8·i) (10_state.md R36). -/
abbrev Buffer := Vector Byte 32

/-- The sponge state: five 64-bit words (10_state.md R37). -/
abbrev Sponge := Vector Word64 5

/-- `PHASE`, the AEAD state machine (10_state.md R43). The encodings 6 and 7 are never held, so they have no constructor. -/
inductive Phase where
  | idle
  | keyed
  | ad
  | addone
  | stream
  | final
  deriving DecidableEq, Repr

/-- The events that reach the core, one at a time (43_system.md R234). A size other than 4 stands for a narrower or wider
access (20_memory.md R79). -/
inductive Event where
  /-- The host reads `size` bytes at `off`. -/
  | read (off : Offset) (size : Nat)
  /-- The host writes `size` bytes at `off`; the data of a 32-bit write is `v`. -/
  | write (off : Offset) (size : Nat) (v : Word)
  /-- The pending command completes (R232), at the point of the interleaving where this event stands (R233). -/
  | completion
  /-- The reset input is asserted (70_reset_and_hazards.md R282). -/
  | resetAssert
  /-- The reset input is released (R282). -/
  | resetRelease
  deriving DecidableEq, Repr

/-- What the host's latest bus access got back. -/
inductive Response where
  /-- No access has been made yet. -/
  | idle
  /-- A 32-bit read returned this value. -/
  | data (v : Word)
  /-- A 32-bit write was taken by the bus (whatever the core did with it). -/
  | ack
  /-- `bus_error` (20_memory.md R79): the access was not an aligned 32-bit one, and a read returned no data. -/
  | busError
  deriving DecidableEq, Repr

/-- The reasons the machine stops. The spec stops it nowhere ("No accepted command raises an error at execution", R260;
`bus_error` is an answer to the host, `Response.busError`), so each of these is raised in states no run reaches. -/
inductive Fault where
  /-- Raised by the meaning of `PERM` on a round count outside 1..12, a term the decoder never answers
  (30_encoding.md R104, R107). Safe: no word of the hardware reaches it. -/
  | illFormedRounds
  /-- Raised by completion when `STATUS.BUSY` = 1 and there is no `PENDING` word, which 10_state.md R47 excludes.
  Safe: no run reaches such a state. -/
  | noPendingWord
  /-- Raised by completion when the `PENDING` word is one the decoder rejects, which 43_system.md R231 excludes.
  Safe: no run reaches such a state. -/
  | undecodablePending
  deriving DecidableEq, Repr

/-- The reasons the model gives an instruction no meaning. -/
inductive Refusal where
  /-- Raised by an arm of `exec` for a command that has no meaning yet, by its mnemonic. Safe. No arm raises it. -/
  | notModelled (mnemonic : String)
  deriving DecidableEq, Repr

/-- The whole state. -/
structure State where
  /-- `F[0..15][0..15]`, the field register file (10_state.md R32). -/
  fregs : Vector FieldElem 16
  /-- `B[0..15][0..31]`, the byte buffers (R36). -/
  bufs : Vector Buffer 16
  /-- `S[0..4]`, the sponge state (R37). -/
  sponge : Sponge
  /-- `K[0..3]`, the key register (R38). -/
  key : Vector Word64 4
  /-- `IV` (R39). -/
  iv : Word64
  /-- `N[0]`, `N[1]`, the nonce registers (R39). -/
  nonce : Vector Word64 2
  /-- `DIN` (R40). -/
  din : Word64
  /-- `DOUT` (R40). -/
  dout : Word64
  /-- `PHASE` (R43). -/
  phase : Phase
  /-- `CTRL.IE` (R42). -/
  ie : Bool
  /-- `STATUS.BUSY` (R44). -/
  busy : Bool
  /-- `STATUS.DONE` (R44). -/
  done : Bool
  /-- `STATUS.ERR` (R44). -/
  err : Bool
  /-- `STATUS.ECODE` (R44). -/
  ecode : BitVec 4
  /-- `LASTCMD`, read at `CMD` (R45). -/
  lastCmd : Word
  /-- `ERRINFO` (R46). -/
  errInfo : Word
  /-- `PENDING`, the accepted command that has not completed (R47). `none` is the spec's own "absent". -/
  pending : Option Word
  /-- The model's own: is the core's reset input asserted (70_reset_and_hazards.md R282)? -/
  resetLine : Bool
  /-- The model's own: the events still to come, the next one first (43_system.md R234). Log entry 1. -/
  inputs : List Event
  /-- The model's own: how many free draws (20_memory.md R83) have been made. Log entry 3. -/
  draws : Nat
  /-- The model's own: the answer to the host's latest access. Log entry 2. -/
  response : Response
  deriving DecidableEq, Repr

/-- The machine after reset: the table of 10_state.md R53, and no event to come. -/
def State.reset : State where
  fregs := Vector.replicate 16 (Vector.replicate 16 0#64)
  bufs := Vector.replicate 16 (Vector.replicate 32 0#8)
  sponge := Vector.replicate 5 0#64
  key := Vector.replicate 4 0#64
  iv := Config.ivReset
  nonce := Vector.replicate 2 0#64
  din := 0#64
  dout := 0#64
  phase := .idle
  ie := false
  busy := false
  done := false
  err := false
  ecode := 0#4
  lastCmd := 0#32
  errInfo := 0#32
  pending := none
  resetLine := false
  inputs := []
  draws := 0
  response := .idle

end Sys2Proof.Machine
end

