-- ==== Sys2Proof/Machine/Bits.lean ====
section
/-!
DEFINITION. The bit-field, byte-order and rotation helpers (00_scope.md R9, R11, R15; 20_memory.md R72, R73).
-/

namespace Sys2Proof.Machine

/-- The two 32-bit words of a 64-bit register: LO at the lower offset, HI at offset +4 (20_memory.md R72). -/
inductive Half where
  | lo
  | hi
  deriving DecidableEq, Repr

/-- The half of a 64-bit register a 32-bit read returns (R72). -/
def getHalf (r : Word64) : Half → Word
  | .lo => r.extractLsb' 0 32
  | .hi => r.extractLsb' 32 32

/-- The 64-bit value `{hi, lo}` of two words (R9). -/
def joinHalves (hi lo : Word) : Word64 := (hi ++ lo).cast (by rfl)

/-- "A write to one half leaves the other half unchanged" (R72). -/
def setHalf (r : Word64) (h : Half) (v : Word) : Word64 :=
  match h with
  | .lo => joinHalves (getHalf r .hi) v
  | .hi => joinHalves v (getHalf r .lo)

/-- `rotr64(x, n)` of R11, for 0 < n < 64. -/
def rotr64 (x : Word64) (n : Nat) : Word64 :=
  (x >>> n) ||| (x <<< (64 - n))

/-- `x >>a n` of R11: arithmetic shift right, floor division by 2^n. -/
def sar (x : Limb) (n : Nat) : Limb := x.sshiftRight n

/-- `le256(x)` of R15: the 256-bit integer of a 32-byte string, little-endian. -/
def le256 (x : Buffer) : Nat :=
  ((List.finRange 32).map fun i => x[i].toNat * 2 ^ (8 * i.val)).sum

/-- The 32-byte little-endian encoding of an integer below 2^256 (20_memory.md R77). -/
def encode256 (r : Nat) : Buffer :=
  Vector.ofFn fun i => BitVec.ofNat 8 (r / 2 ^ (8 * i.val))

/-- `le64(x, 8w)` of R15, as 42_sponge.md R197 writes it: the bytes `8w`..`8w+7` of a buffer, the first lowest. -/
def le64 (x : Buffer) (w : Fin 4) : Word64 :=
  (List.finRange 8).foldl (fun acc i => acc ||| ((x[8 * w.val + i.val]).zeroExtend 64 <<< (8 * i.val))) 0#64

/-- The 32-bit word `w` of a buffer: byte `4w + n` in bits [8n+7:8n] (20_memory.md R73). -/
def bufWord (x : Buffer) (w : Fin 8) : Word :=
  (x[4 * w.val + 3] ++ x[4 * w.val + 2] ++ x[4 * w.val + 1] ++ x[4 * w.val]).cast (by rfl)

/-- A 32-bit write to a buffer "stores the four bytes in the same places" (R73). -/
def setBufWord (x : Buffer) (w : Fin 8) (v : Word) : Buffer :=
  (((x.set (4 * w.val) (v.extractLsb' 0 8)).set (4 * w.val + 1) (v.extractLsb' 8 8)).set
    (4 * w.val + 2) (v.extractLsb' 16 8)).set (4 * w.val + 3) (v.extractLsb' 24 8)

/-- One bit in a wider word. -/
def bitWord (x : Bool) (place : Nat) : Word :=
  (BitVec.ofBool x).zeroExtend 32 <<< place

end Sys2Proof.Machine
end

