-- ==== Sys2Proof/Machine/FieldArith.lean ====
section
/-!
DEFINITION. The helper functions of the field engine (40_field.md R131 to R138) over `FieldElem`, the value a field element
stands for (00_scope.md R14), and nothing of the machine's state.
-/

namespace Sys2Proof.Machine

/-- `p = 2^255 − 19` (R132). -/
def fieldPrime : Nat := 2 ^ 255 - 19

/-- `Σ f[j]·2^(16j)`, each limb read as signed (00_scope.md R14), before the reduction mod p. -/
def limbSum (f : FieldElem) : Int :=
  ((List.finRange 16).map fun j => f[j].toInt * 2 ^ (16 * j.val)).sum

/-- `val(f)` of R14, in [0, p). -/
def val (f : FieldElem) : Nat := (limbSum f % (fieldPrime : Int)).toNat

/-- R14: "A field element is *canonical* when every limb is in [0, 2^16) and `Σ f[j]·2^(16j) < p`." -/
def canonical (f : FieldElem) : Prop :=
  (∀ j : Fin 16, f[j].toNat < 2 ^ 16) ∧ limbSum f < (fieldPrime : Int)

/-- The element with limb 0 = `l0`, limb 1 = `l1` and the other limbs 0. -/
def smallElem (l0 l1 : Limb) : FieldElem :=
  ((Vector.replicate 16 0#64).set 0 l0).set 1 l1

/-- Limb-wise addition (R139), no carry. -/
def addElem (a b : FieldElem) : FieldElem := Vector.ofFn fun j => a[j] + b[j]

/-- Limb-wise subtraction (R140), no carry. -/
def subElem (a b : FieldElem) : FieldElem := Vector.ofFn fun j => a[j] - b[j]

/-- One turn of the loop of `car` (R133): the carry of limb `i` goes into limb `i+1`, that of limb 15, times 38, into
limb 0. -/
def carStep (o : FieldElem) (i : Fin 16) : FieldElem :=
  let c := sar o[i] 16
  let o' := o.set i.val (o[i] &&& 0xFFFF#64)
  if h : i.val < 15 then o'.set (i.val + 1) (o'[i.val + 1] + c) else o'.set 0 (o'[0] + 38#64 * c)

/-- `car(f)` of R133: one carry-propagation pass. -/
def car (f : FieldElem) : FieldElem := (List.finRange 16).foldl carStep f

/-- Limb `k` of the 31-limb accumulator of `mul` (R134): the sum of the products `a[i]·b[j]` with `i + j = k`. "the result of a
sum does not depend on the order of its terms" (R131). -/
def mulAccum (a b : FieldElem) (k : Nat) : Limb :=
  ((List.finRange 16).map fun i =>
    if h : i.val ≤ k ∧ k - i.val < 16 then a[i] * b[k - i.val] else 0#64).sum

/-- The fold of R134: `t[i] <- t[i] + 38·t[i+16]` for i in 0..14; `t[15]` is not folded. -/
def mulFold (a b : FieldElem) : FieldElem :=
  Vector.ofFn fun i =>
    if i.val < 15 then mulAccum a b i.val + 38#64 * mulAccum a b (i.val + 16) else mulAccum a b i.val

/-- `mul(a, b)` of R134: schoolbook product, fold, two carry passes. -/
def mul (a b : FieldElem) : FieldElem := car (car (mulFold a b))

/-- `cswap(p, q, s)` of R138, with `s` in {0, 1}: the branchless select. -/
def cswap (p q : FieldElem) (s : Limb) : FieldElem × FieldElem :=
  let mask := ~~~(s - 1#64)
  (Vector.ofFn fun j => p[j] ^^^ (mask &&& (p[j] ^^^ q[j])),
   Vector.ofFn fun j => q[j] ^^^ (mask &&& (p[j] ^^^ q[j])))

/-- A 0/1 flag as the 64-bit `s` of `cswap`. -/
def flagLimb (x : Bool) : Limb := (BitVec.ofBool x).zeroExtend 64

/-- `(x >>a 16) & 1`, the borrow a limb of `pack`'s trial subtraction passes on (R135). -/
def borrow (x : Limb) : Limb := sar x 16 &&& 1#64

/-- The middle turns of `pack`'s trial subtraction (R135), for i in 1..14: `m[i]` takes the borrow of `m[i-1]`, which is then
masked. -/
def trialStep (t m : FieldElem) (n : Fin 14) : FieldElem :=
  let m' := m.set (n.val + 1) (t[n.val + 1] - 0xFFFF#64 - borrow m[n.val])
  m'.set n.val (m'[n.val] &&& 0xFFFF#64)

/-- One trial subtraction `m = t − p` of R135: the difference and the borrow `bit` out of limb 15. -/
def trialSub (t : FieldElem) : FieldElem × Limb :=
  let m0 := (Vector.replicate 16 0#64).set 0 (t[0] - 0xFFED#64)
  let m := (List.finRange 14).foldl (trialStep t) m0
  let m := m.set 15 (t[15] - 0x7FFF#64 - borrow m[14])
  (m.set 14 (m[14] &&& 0xFFFF#64), borrow m[15])

/-- One of the two passes of R135: "`bit` = 1 means the subtraction borrowed (t < p), and then t is kept. `bit` = 0 means
t ← m." The selection goes through `cswap`. -/
def reducePass (t : FieldElem) : FieldElem :=
  (cswap t (trialSub t).1 (1#64 - (trialSub t).2)).1

/-- The bytes of 16 limbs of 16 bits, `out[2i]` and `out[2i+1]` of R135. -/
def limbBytes (t : FieldElem) : Buffer :=
  Vector.ofFn fun n =>
    if n.val % 2 = 0 then (t[n.val / 2]).extractLsb' 0 8 else (t[n.val / 2]).extractLsb' 8 8

/-- `pack(f)` of R135: three carry passes, two trial subtractions, 32 bytes. -/
def pack (f : FieldElem) : Buffer :=
  limbBytes (reducePass (reducePass (car (car (car f)))))

/-- `unpack(x)` of R136: 16 little-endian 16-bit limbs, bit 255 cleared. -/
def unpack (x : Buffer) : FieldElem :=
  let o : FieldElem := Vector.ofFn fun j =>
    (x[2 * j.val]).zeroExtend 64 + ((x[2 * j.val + 1]).zeroExtend 64 <<< 8)
  o.set 15 (o[15] &&& 0x7FFF#64)

/-- The loop of `inv` (R137) for k from `n − 1` down to 0: a squaring, and a product with `a` except at k = 2 and k = 4. -/
def invLoop (a : FieldElem) : Nat → FieldElem → FieldElem
  | 0, c => c
  | k + 1, c =>
    let c' := mul c c
    invLoop a k (if k ≠ 2 ∧ k ≠ 4 then mul c' a else c')

/-- `inv(a)` of R137: `a^(p−2)` by 254 squarings and 252 products. -/
def inv (a : FieldElem) : FieldElem := invLoop a 254 a

end Sys2Proof.Machine
end

