-- ==== Sys2Proof/WellFormed.lean ====
section
/-!
DEFINITION. Which terms of `Instr` are commands of the hardware. The one check is the round count of `PERM`
(30_encoding.md R104); every register and buffer index is legal (R102).
-/

namespace Sys2Proof

/-- R104: "For `PERM`, `rounds` must be in 1..12." -/
def legalRounds (rounds : Nat) : Bool :=
  decide (1 ≤ rounds) && decide (rounds ≤ 12)

/-- A command that `CMD` accepts in some encoding. -/
def Instr.wellFormed : Instr → Bool
  | .nop => true
  | .fadd _ _ _ => true
  | .fsub _ _ _ => true
  | .fmul _ _ _ => true
  | .fsqr _ _ => true
  | .fcar _ _ => true
  | .finv _ _ => true
  | .fcswap _ _ _ => true
  | .funpack _ _ => true
  | .fpack _ _ => true
  | .smult _ _ _ => true
  | .smultb _ _ => true
  | .perm rounds => legalRounds rounds
  | .init _ => true
  | .adabs => true
  | .adend => true
  | .crypt => true
  | .final => true
  | .keyld _ => true

end Sys2Proof
end

