-- ==== Sys2Proof/Decode.lean ====
section
/-!
DEFINITION. The command decoder (30_encoding.md R100 to R109), total on every 32-bit word, and after it the encoder, written
from the same encoding rules (R101, R105, R106). There is one length and one format (R100).
-/

namespace Sys2Proof

/-- The reasons the decoder rejects a word, in the order R107 checks them. -/
inductive DecodeError where
  /-- `ERSV`: bits [31:24] are not 0. -/
  | ersv
  /-- `EILLOP`: the opcode is not one of R105. -/
  | eillop
  /-- `EROUNDS`: a `PERM` word whose `imm` is 0 or 13..15. -/
  | erounds
  deriving DecidableEq, Repr

/-- What `decode` of R107 answers: accept or reject, by name. -/
inductive Decoded where
  | accept (i : Instr)
  | reject (e : DecodeError)
  deriving DecidableEq, Repr

/-- Did the decoder accept? -/
def Decoded.isAccept : Decoded → Bool
  | .accept _ => true
  | .reject _ => false

/-! ## The fields of the command word (R101) -/

/-- `opcode`, bits [7:0]. -/
def opcodeField (w : Word) : BitVec 8 := w.extractLsb' 0 8

/-- `d`, bits [11:8]. -/
def dField (w : Word) : Fin 16 := (w.extractLsb' 8 4).toFin

/-- `a`, bits [15:12]. -/
def aField (w : Word) : Fin 16 := (w.extractLsb' 12 4).toFin

/-- `b`, bits [19:16]. -/
def bField (w : Word) : Fin 16 := (w.extractLsb' 16 4).toFin

/-- `imm`, bits [23:20]: an unsigned 4-bit number (R103). -/
def immField (w : Word) : BitVec 4 := w.extractLsb' 20 4

/-- `rsv`, bits [31:24]: must be 0. -/
def rsvField (w : Word) : BitVec 8 := w.extractLsb' 24 8

/-- `imm[0]`, the swap bit of `FCSWAP` and the load flag of `INIT` (R103). -/
def immFlag (w : Word) : Bool := (immField w).getLsbD 0

/-! ## The decoder -/

/-- The opcode map of R105 and the round check of R104, for a word whose `rsv` is 0. -/
def decodeOpcode (w : Word) : Decoded :=
  match opcodeField w with
  | 0x00#8 => .accept .nop
  | 0x10#8 => .accept (.fadd (dField w) (aField w) (bField w))
  | 0x11#8 => .accept (.fsub (dField w) (aField w) (bField w))
  | 0x12#8 => .accept (.fmul (dField w) (aField w) (bField w))
  | 0x13#8 => .accept (.fsqr (dField w) (aField w))
  | 0x14#8 => .accept (.fcar (dField w) (aField w))
  | 0x15#8 => .accept (.finv (dField w) (aField w))
  | 0x16#8 => .accept (.fcswap (aField w) (bField w) (immFlag w))
  | 0x17#8 => .accept (.funpack (dField w) (aField w))
  | 0x18#8 => .accept (.fpack (dField w) (aField w))
  | 0x20#8 => .accept (.smult (dField w) (aField w) (bField w))
  | 0x21#8 => .accept (.smultb (dField w) (aField w))
  | 0x30#8 =>
    if legalRounds (immField w).toNat then .accept (.perm (immField w).toNat) else .reject .erounds
  | 0x31#8 => .accept (.init (immFlag w))
  | 0x32#8 => .accept .adabs
  | 0x33#8 => .accept .adend
  | 0x34#8 => .accept .crypt
  | 0x35#8 => .accept .final
  | 0x36#8 => .accept (.keyld (aField w))
  | _ => .reject .eillop

/-- R107: `rsv` first, then the opcode, then the round count; the first check that fails rejects the word. -/
def decode (w : Word) : Decoded :=
  if rsvField w ≠ 0#8 then .reject .ersv else decodeOpcode w

/-- The instruction the decoder reads from an opcode-table row's word: the bits above `nbits` are 0 (the table's rows are one
32-bit command word each). -/
def decodeTableWord (nbits w : Nat) : Option Instr :=
  match decode (BitVec.ofNat 32 (w % 2 ^ nbits)) with
  | .accept i => some i
  | .reject _ => none

/-- Every word whose `rsv` is 0 and whose opcode is `op` is accepted as the command `mk` reads from its fields: a row of R105. -/
def opcodeMeans (op : BitVec 8) (mk : Word → Instr) : Prop :=
  ∀ w : Word, rsvField w = 0#8 → opcodeField w = op → decode w = .accept (mk w)

/-! ## The encoder -/

/-- R106: `word = (rsv << 24) | (imm << 20) | (b << 16) | (a << 12) | (d << 8) | opcode`, with `rsv` = 0. -/
def assemble (imm b a d : BitVec 4) (opcode : BitVec 8) : Word :=
  (0#8 ++ imm ++ b ++ a ++ d ++ opcode).cast (by rfl)

/-- A register or buffer index as its 4-bit field. -/
def indexBits (r : Fin 16) : BitVec 4 := BitVec.ofFin r

/-- A one-bit immediate, `imm[3:1]` = 0. -/
def flagBits (x : Bool) : BitVec 4 := if x then 1#4 else 0#4

/-- The word of a command by R105 and R106; "an omitted ignored field assembles as 0" (R110). -/
def encode : Instr → Word
  | .nop => assemble 0 0 0 0 0x00#8
  | .fadd d a b => assemble 0 (indexBits b) (indexBits a) (indexBits d) 0x10#8
  | .fsub d a b => assemble 0 (indexBits b) (indexBits a) (indexBits d) 0x11#8
  | .fmul d a b => assemble 0 (indexBits b) (indexBits a) (indexBits d) 0x12#8
  | .fsqr d a => assemble 0 0 (indexBits a) (indexBits d) 0x13#8
  | .fcar d a => assemble 0 0 (indexBits a) (indexBits d) 0x14#8
  | .finv d a => assemble 0 0 (indexBits a) (indexBits d) 0x15#8
  | .fcswap a b swap => assemble (flagBits swap) (indexBits b) (indexBits a) 0 0x16#8
  | .funpack d a => assemble 0 0 (indexBits a) (indexBits d) 0x17#8
  | .fpack d a => assemble 0 0 (indexBits a) (indexBits d) 0x18#8
  | .smult d a b => assemble 0 (indexBits b) (indexBits a) (indexBits d) 0x20#8
  | .smultb d a => assemble 0 0 (indexBits a) (indexBits d) 0x21#8
  | .perm rounds => assemble (BitVec.ofNat 4 rounds) 0 0 0 0x30#8
  | .init load => assemble (flagBits load) 0 0 0 0x31#8
  | .adabs => assemble 0 0 0 0 0x32#8
  | .adend => assemble 0 0 0 0 0x33#8
  | .crypt => assemble 0 0 0 0 0x34#8
  | .final => assemble 0 0 0 0 0x35#8
  | .keyld a => assemble 0 0 (indexBits a) 0 0x36#8

/-- The bits of a command word that its command reads (R105, R103): `rsv`, the opcode, and the fields the row does not mark
"—" (of `imm`, only bit 0 for `FCSWAP` and `INIT`). Every other bit is ignored (R108). -/
def usedBits : Instr → Word
  | .nop => 0xFF0000FF#32
  | .fadd _ _ _ => 0xFF0FFFFF#32
  | .fsub _ _ _ => 0xFF0FFFFF#32
  | .fmul _ _ _ => 0xFF0FFFFF#32
  | .fsqr _ _ => 0xFF00FFFF#32
  | .fcar _ _ => 0xFF00FFFF#32
  | .finv _ _ => 0xFF00FFFF#32
  | .fcswap _ _ _ => 0xFF1FF0FF#32
  | .funpack _ _ => 0xFF00FFFF#32
  | .fpack _ _ => 0xFF00FFFF#32
  | .smult _ _ _ => 0xFF0FFFFF#32
  | .smultb _ _ => 0xFF00FFFF#32
  | .perm _ => 0xFFF000FF#32
  | .init _ => 0xFF1000FF#32
  | .adabs => 0xFF0000FF#32
  | .adend => 0xFF0000FF#32
  | .crypt => 0xFF0000FF#32
  | .final => 0xFF0000FF#32
  | .keyld _ => 0xFF00F0FF#32

end Sys2Proof
end

