-- ==== Sys2Proof/Machine/Operands.lean ====
section
/-!
DEFINITION. The operand forms of the command set (30_encoding.md R101 to R103, R105): a field register or a buffer named by
a 4-bit index, read and written whole. Every index names an existing register (R102); none is hard-wired, aliased or banked
(10_state.md R32).
-/

namespace Sys2Proof.Machine

/-- `F[k]` read whole. -/
def State.fe (s : State) (k : FReg) : FieldElem := s.fregs[k]

/-- `F[k] <- v`: writes all 16 limbs (00_scope.md R12). -/
def State.setFe (s : State) (k : FReg) (v : FieldElem) : State :=
  { s with fregs := s.fregs.set k.val v }

/-- `B[k]` read whole. -/
def State.buf (s : State) (k : BReg) : Buffer := s.bufs[k]

/-- `B[k] <- v`: writes all 32 bytes. -/
def State.setBuf (s : State) (k : BReg) (v : Buffer) : State :=
  { s with bufs := s.bufs.set k.val v }

/-- The sponge state written whole. -/
def State.setSponge (s : State) (x : Sponge) : State := { s with sponge := x }

/-- The key register written whole. -/
def State.setKey (s : State) (k : Vector Word64 4) : State := { s with key := k }

/-- `DOUT <- v`. -/
def State.setDout (s : State) (v : Word64) : State := { s with dout := v }

/-- `PHASE <- ph`. -/
def State.setPhase (s : State) (ph : Phase) : State := { s with phase := ph }

end Sys2Proof.Machine
end

