-- ==== Sys2Proof/Machine/Flags.lean ====
section
/-!
DEFINITION. The status bits, the only flags of the core (10_state.md R35: no command sets a carry, zero, sign or overflow
flag): the words `STATUS`, `CTRL` and `PHASE` read as, the write-1-to-clear rule, the error codes, and the interrupt output.
-/

namespace Sys2Proof.Machine

/-- The error codes of 60_exceptions.md R251. -/
inductive ErrorCode where
  /-- A command word whose bits [31:24] are not 0 (R253). -/
  | ersv
  /-- An opcode not in 30_encoding.md R105 (R254). -/
  | eillop
  /-- `PERM` with an illegal round count (R255). -/
  | erounds
  /-- A `CMD` write while busy (R256). -/
  | ebusyc
  /-- A write to a data region while busy (R257). -/
  | ebusyw
  deriving DecidableEq, Repr

/-- The number `STATUS.ECODE` holds (R251). Codes 6..15 are never produced. -/
def ErrorCode.code : ErrorCode → BitVec 4
  | .ersv => 1#4
  | .eillop => 2#4
  | .erounds => 3#4
  | .ebusyc => 4#4
  | .ebusyw => 5#4

/-- The encoding of `PHASE` (10_state.md R43). -/
def Phase.code : Phase → BitVec 3
  | .idle => 0#3
  | .keyed => 1#3
  | .ad => 2#3
  | .addone => 3#3
  | .stream => 4#3
  | .final => 5#3

/-- `PHASE` as a read at 0x014 returns it: bits [2:0], the rest 0 (R43). -/
def phaseWord (s : State) : Word := s.phase.code.zeroExtend 32

/-- `CTRL` as a read returns it: `IE` in bit 0, `SRST` and the reserved bits 0 (R42). -/
def ctrlWord (s : State) : Word := bitWord s.ie 0

/-- `STATUS` as a read returns it (R44): `BUSY`, `DONE`, `ERR` in bits 0, 1, 2, `ECODE` in [11:8], the rest 0. -/
def statusWord (s : State) : Word :=
  bitWord s.busy 0 ||| bitWord s.done 1 ||| bitWord s.err 2 ||| (s.ecode.zeroExtend 32 <<< 8)

/-- A write of `v` to `STATUS` (R44): "A write of 1 to a W1C bit clears it, and a write of 0 leaves it"; clearing `ERR` also
clears `ECODE` and `ERRINFO`; the other bits ignore the write. -/
def writeStatus (s : State) (v : Word) : State :=
  let s1 := if v.getLsbD 1 then { s with done := false } else s
  if v.getLsbD 2 then { s1 with err := false, ecode := 0#4, errInfo := 0#32 } else s1

/-- The interrupt output: `irq = CTRL.IE & (STATUS.DONE | STATUS.ERR)` (R263, 10_state.md R52). -/
def State.irq (s : State) : Bool := s.ie && (s.done || s.err)

end Sys2Proof.Machine
end

