-- ==== Sys2Proof/Machine/Ops.lean ====
section
/-!
DEFINITION. The named operations over the state that the commands and the host's accesses share: recording an error, reset,
accepting a command, retiring one, and the register window with its reads and writes.
-/

namespace Sys2Proof.Machine

/-! ## Errors (60_exceptions.md): recorded, never taken -/

/-- `record_error(code, info)` of R252, "the only way an error changes state". It is this core's whole exception entry: it saves
no return address, changes no mode and redirects nothing (R250, R265); the first error wins (R262). -/
def recordError (s : State) (e : ErrorCode) (info : Word) : State :=
  if s.err then s else { s with err := true, ecode := e.code, errInfo := info }

/-! ## Reset (70_reset_and_hazards.md) -/

/-- `apply_reset()` of R281: every element of the state takes its reset value and `PENDING` is discarded (R283). The model's own
fields, which are not the core's, stay. -/
def applyReset (s : State) : State :=
  { State.reset with
    resetLine := s.resetLine, inputs := s.inputs, draws := s.draws, response := s.response }

/-- A write of `v` to `CTRL` (R280): bit 1 resets the core, whatever bit 0 is; otherwise `IE` takes bit 0. -/
def writeCtrl (s : State) (v : Word) : State :=
  if v.getLsbD 1 then applyReset s else { s with ie := v.getLsbD 0 }

/-! ## The life of a command (43_system.md) -/

/-- The error code of a rejected word (30_encoding.md R107). -/
def rejectCode : DecodeError → ErrorCode
  | .ersv => .ersv
  | .eillop => .eillop
  | .erounds => .erounds

/-- The last three lines of R231: the word becomes `LASTCMD` and `PENDING`, and `BUSY` is set. -/
def acceptWord (s : State) (w : Word) : State :=
  { s with lastCmd := w, pending := some w, busy := true }

/-- A host write of `w` to `CMD` (R231). -/
def writeCmd (s : State) (w : Word) : State :=
  if s.busy then recordError s .ebusyc w
  else
    let s' := { s with done := false }
    match decode w with
    | .reject e => recordError s' (rejectCode e) w
    | .accept _ => acceptWord s' w

/-- What completion finds in `PENDING`: the command to execute, or the reason there is none. -/
inductive Fetched where
  | command (i : Instr)
  | stop (r : Fault)
  deriving DecidableEq, Repr

/-- `w <- PENDING` of R232, decoded. -/
def fetchPending (s : State) : Fetched :=
  match s.pending with
  | none => .stop .noPendingWord
  | some w =>
    match decode w with
    | .accept i => .command i
    | .reject _ => .stop .undecodablePending

/-- The last three lines of R232: `PENDING` becomes absent, `BUSY` 0 and `DONE` 1. -/
def retire (s : State) : State :=
  { s with pending := none, busy := false, done := true }

/-! ## The register window (20_memory.md) -/

/-- The registers of the window, as R71's map names them. -/
inductive Loc where
  | id
  | ctrl
  | status
  | cmd
  | errInfo
  | phase
  | sponge (i : Fin 5) (h : Half)
  | key (i : Fin 4) (h : Half)
  | iv (h : Half)
  | nonce (i : Fin 2) (h : Half)
  | din (h : Half)
  | dout (h : Half)
  | buf (k : BReg) (w : Fin 8)
  | limb (k : FReg) (j : Fin 16) (h : Half)
  | reserved
  deriving DecidableEq, Repr

/-- LO or HI by bit 2 of the offset (R72). -/
def halfOf (o : Nat) : Half := if o / 4 % 2 = 0 then .lo else .hi

/-- Which of `n` like registers an offset lies in: they start at `base` and lie `stride` bytes apart (R71). -/
def slot (n : Nat) [NeZero n] (base stride o : Nat) : Fin n := Fin.ofNat n ((o - base) / stride)

/-- The control registers and `PHASE` of R71's map, by word number. -/
def controlLoc (word : Nat) : Loc :=
  match word with
  | 0 => .id
  | 1 => .ctrl
  | 2 => .status
  | 3 => .cmd
  | 4 => .errInfo
  | 5 => .phase
  | _ => .reserved

/-- The 64-bit registers of R71's map, at 0x100 to 0x1FF. -/
def wordRegLoc (o : Nat) : Loc :=
  if o < 0x128 then .sponge (slot 5 0x100 8 o) (halfOf o)
  else if o < 0x140 then .reserved
  else if o < 0x160 then .key (slot 4 0x140 8 o) (halfOf o)
  else if o < 0x168 then .iv (halfOf o)
  else if o < 0x178 then .nonce (slot 2 0x168 8 o) (halfOf o)
  else if o < 0x180 then .reserved
  else if o < 0x188 then .din (halfOf o)
  else if o < 0x190 then .dout (halfOf o)
  else .reserved

/-- The register map of R71, for the byte offset `o` of an aligned word. -/
def locateNat (o : Nat) : Loc :=
  if o < 0x100 then controlLoc (o / 4)
  else if o < 0x200 then wordRegLoc o
  else if o < 0x400 then .buf (slot 16 0x200 32 o) (slot 8 0x200 4 o)
  else if o < 0x800 then .reserved
  else .limb (slot 16 0x800 128 o) (slot 16 0x800 8 o) (halfOf o)

/-- The register at an offset of the window. -/
def locate (off : Offset) : Loc := locateNat off.toNat

/-- R79: "Every access must be 32 bits wide and 4-byte aligned." -/
def legalAccess (off : Offset) (size : Nat) : Bool :=
  decide (size = 4) && decide (off.toNat % 4 = 0)

/-- The *data regions*, whose reads are unspecified while busy (R83). -/
def Loc.isData : Loc → Bool
  | .id => false
  | .ctrl => false
  | .status => false
  | .cmd => false
  | .errInfo => false
  | .phase => true
  | .sponge _ _ => true
  | .key _ _ => true
  | .iv _ => true
  | .nonce _ _ => true
  | .din _ => true
  | .dout _ => true
  | .buf _ _ => true
  | .limb _ _ _ => true
  | .reserved => false

/-- The *writable data regions*, whose writes are dropped while busy (R82): `S`, `K`, `IV`, `N`, `DIN`, `B` and `F`. -/
def Loc.isWritableData : Loc → Bool
  | .id => false
  | .ctrl => false
  | .status => false
  | .cmd => false
  | .errInfo => false
  | .phase => false
  | .sponge _ _ => true
  | .key _ _ => true
  | .iv _ => true
  | .nonce _ _ => true
  | .din _ => true
  | .dout _ => false
  | .buf _ _ => true
  | .limb _ _ _ => true
  | .reserved => false

/-- The 32-bit value a register of the window holds (R71 to R74; reserved offsets read 0, R80). -/
def State.peek (s : State) : Loc → Word
  | .id => Config.idValue
  | .ctrl => ctrlWord s
  | .status => statusWord s
  | .cmd => s.lastCmd
  | .errInfo => s.errInfo
  | .phase => phaseWord s
  | .sponge i h => getHalf s.sponge[i] h
  | .key i h => getHalf s.key[i] h
  | .iv h => getHalf s.iv h
  | .nonce i h => getHalf s.nonce[i] h
  | .din h => getHalf s.din h
  | .dout h => getHalf s.dout h
  | .buf k w => bufWord (s.buf k) w
  | .limb k j h => getHalf (s.fe k)[j] h
  | .reserved => 0#32

/-- The store of a 32-bit value in a writable data region (R72 to R74); any other location ignores it (R80, R84). -/
def State.poke (s : State) (l : Loc) (v : Word) : State :=
  match l with
  | .id => s
  | .ctrl => s
  | .status => s
  | .cmd => s
  | .errInfo => s
  | .phase => s
  | .sponge i h => { s with sponge := s.sponge.set i.val (setHalf s.sponge[i] h v) }
  | .key i h => { s with key := s.key.set i.val (setHalf s.key[i] h v) }
  | .iv h => { s with iv := setHalf s.iv h v }
  | .nonce i h => { s with nonce := s.nonce.set i.val (setHalf s.nonce[i] h v) }
  | .din h => { s with din := setHalf s.din h v }
  | .dout _ => s
  | .buf k w => s.setBuf k (setBufWord (s.buf k) w v)
  | .limb k j h => s.setFe k ((s.fe k).set j.val (setHalf (s.fe k)[j] h v))
  | .reserved => s

/-! ## The host's accesses (43_system.md R234) -/

/-- The answer to the host's access. -/
def respond (s : State) (r : Response) : State := { s with response := r }

/-- A read that draws an unspecified value: the next one of the stream, which is then used up. -/
def freeRead (s : State) : State :=
  { s with response := .data (Config.freeRead s.draws), draws := s.draws + 1 }

/-- A host read. Not an aligned 32-bit access: `bus_error` and no state change (R79). While the reset input is asserted: an
unspecified value (70_reset_and_hazards.md R282). A data region while busy: an unspecified value (R83). Otherwise the
register's value; a read changes nothing (R81). -/
def hostRead (s : State) (off : Offset) (size : Nat) : State :=
  if legalAccess off size = false then respond s .busError
  else if s.resetLine then freeRead s
  else if s.busy && (locate off).isData then freeRead s
  else respond s (.data (s.peek (locate off)))

/-- A 32-bit write of `v` to a register of the window (R80 to R84). -/
def writeLoc (s : State) (off : Offset) (v : Word) : State :=
  match locate off with
  | .ctrl => writeCtrl s v
  | .status => writeStatus s v
  | .cmd => writeCmd s v
  | l =>
    if l.isWritableData && s.busy then recordError s .ebusyw (off.zeroExtend 32) else s.poke l v

/-- A host write. Not an aligned 32-bit access: `bus_error` and no state change (R79). While the reset input is asserted the core
keeps the reset state, whatever is written (70_reset_and_hazards.md R282). -/
def hostWrite (s : State) (off : Offset) (size : Nat) (v : Word) : State :=
  if legalAccess off size = false then respond s .busError
  else if s.resetLine then respond s .ack
  else respond (writeLoc s off v) .ack

/-- R282: while the reset input is asserted, the core applies `apply_reset()`. -/
def assertReset (s : State) : State := { applyReset s with resetLine := true }

/-- R282: when the input is released, the core is idle with the reset state. -/
def releaseReset (s : State) : State := { s with resetLine := false }

/-- May the core's own completion event happen now (R232, R234: condition `STATUS.BUSY` = 1)? While the reset input is asserted
the core stays reset (R282). -/
def completionEnabled (s : State) : Bool := s.busy && !s.resetLine

end Sys2Proof.Machine
end

