-- ==== Sys2Proof/Machine/Field.lean ====
section
/-!
DEFINITION. The meanings of the field commands (40_field.md R139 to R147). Each reads its sources, computes, then writes its
destinations, so a destination may equal a source (R130); none sets a flag or raises an error (R131).
-/

namespace Sys2Proof.Machine

/-- `FADD fd, fa, fb` (R139). -/
def execFadd (d a b : FReg) (s : State) : Host.Outcome State Fault Refusal :=
  .next (s.setFe d (addElem (s.fe a) (s.fe b)))

/-- `FSUB fd, fa, fb` (R140). -/
def execFsub (d a b : FReg) (s : State) : Host.Outcome State Fault Refusal :=
  .next (s.setFe d (subElem (s.fe a) (s.fe b)))

/-- `FMUL fd, fa, fb` (R141). -/
def execFmul (d a b : FReg) (s : State) : Host.Outcome State Fault Refusal :=
  .next (s.setFe d (mul (s.fe a) (s.fe b)))

/-- `FSQR fd, fa` (R142): `mul(o,a,a)`. -/
def execFsqr (d a : FReg) (s : State) : Host.Outcome State Fault Refusal :=
  .next (s.setFe d (mul (s.fe a) (s.fe a)))

/-- `FCAR fd, fa` (R143). -/
def execFcar (d a : FReg) (s : State) : Host.Outcome State Fault Refusal :=
  .next (s.setFe d (car (s.fe a)))

/-- `FINV fd, fa` (R144). -/
def execFinv (d a : FReg) (s : State) : Host.Outcome State Fault Refusal :=
  .next (s.setFe d (inv (s.fe a)))

/-- `FCSWAP fa, fb, swap` (R145): `(x, y) <- cswap(F[a], F[b], imm[0])`, then `F[a] <- x` and `F[b] <- y`. -/
def execFcswap (a b : FReg) (swap : Bool) (s : State) : Host.Outcome State Fault Refusal :=
  let xy := cswap (s.fe a) (s.fe b) (flagLimb swap)
  .next ((s.setFe a xy.1).setFe b xy.2)

/-- `FUNPACK fd, ba` (R146). -/
def execFunpack (d : FReg) (a : BReg) (s : State) : Host.Outcome State Fault Refusal :=
  .next (s.setFe d (unpack (s.buf a)))

/-- `FPACK bd, fa` (R147). -/
def execFpack (d : BReg) (a : FReg) (s : State) : Host.Outcome State Fault Refusal :=
  .next (s.setBuf d (pack (s.fe a)))

end Sys2Proof.Machine
end

