-- ==== Sys2Proof/Machine/ScalarArith.lean ====
section
/-!
DEFINITION. The scalar multiplier's functions (41_scalarmult.md R170, R171, R176) over byte strings: clamping, the exact
Montgomery ladder mod p, and the limb-level sequence of R176.
-/

namespace Sys2Proof.Machine

/-- `clamp(k)` of R170. -/
def clamp (k : Buffer) : Buffer :=
  (k.set 0 (k[0] &&& 0xF8#8)).set 31 ((k[31] &&& 0x7F#8) ||| 0x40#8)

/-! ## Exact arithmetic mod p, on residues in [0, p) -/

/-- Addition mod p. -/
def addMod (x y : Nat) : Nat := (x + y) % fieldPrime

/-- Subtraction mod p. -/
def subMod (x y : Nat) : Nat := (x + (fieldPrime - y % fieldPrime)) % fieldPrime

/-- Multiplication mod p. -/
def mulMod (x y : Nat) : Nat := (x * y) % fieldPrime

/-- `x^e mod p`, by squaring over the low `bits` bits of `e` (so it is `x^e mod p` when `e < 2^bits`). -/
def powMod (x : Nat) : Nat → Nat → Nat
  | 0, _ => 1 % fieldPrime
  | bits + 1, e =>
    let h := powMod x bits (e / 2)
    if e % 2 = 1 then mulMod (mulMod h h) x else mulMod h h

/-- `a24 = 121665` (R171). -/
def a24 : Nat := 121665

/-- The working registers of the ladder (10_state.md R48): the "running" pair `(x2 : z2)`, the "stepping" pair `(x3 : z3)` and
the swap bit. They exist during one command only. -/
structure Ladder where
  x2 : Nat
  z2 : Nat
  x3 : Nat
  z3 : Nat
  swap : Bool
  deriving DecidableEq, Repr

/-- `cswap_mod_p` of R171 on both pairs at once. -/
def ladderSwap (l : Ladder) (s : Bool) : Ladder :=
  match s with
  | false => l
  | true => { l with x2 := l.x3, z2 := l.z3, x3 := l.x2, z3 := l.z2 }

/-- One iteration of R171's loop, for the scalar bit `kt`. -/
def ladderStep (x1 : Nat) (kt : Bool) (l : Ladder) : Ladder :=
  let l := ladderSwap l (xor l.swap kt)
  let a := addMod l.x2 l.z2
  let aa := mulMod a a
  let b := subMod l.x2 l.z2
  let bb := mulMod b b
  let e := subMod aa bb
  let c := addMod l.x3 l.z3
  let d := subMod l.x3 l.z3
  let da := mulMod d a
  let cb := mulMod c b
  { x3 := mulMod (addMod da cb) (addMod da cb)
    z3 := mulMod x1 (mulMod (subMod da cb) (subMod da cb))
    x2 := mulMod aa bb
    z2 := mulMod e (addMod aa (mulMod a24 e))
    swap := kt }

/-- The ladder for the scalar bits `t` from `n − 1` down to 0 of `k` (R171: 255 iterations, bit 254 down to bit 0). -/
def ladderLoop (x1 k : Nat) : Nat → Ladder → Ladder
  | 0, l => l
  | t + 1, l => ladderLoop x1 k t (ladderStep x1 (k.testBit t) l)

/-- `X25519(k, ub)` of R171. -/
def x25519 (k ub : Buffer) : Buffer :=
  let n := le256 (clamp k)
  let x1 := val (unpack ub)
  let l := ladderLoop x1 n 255 { x2 := 1, z2 := 0, x3 := x1, z3 := 1, swap := false }
  let l := ladderSwap l l.swap
  encode256 (mulMod l.x2 (powMod l.z2 255 (fieldPrime - 2)))

/-- The base point's encoding, `09 00 … 00` (R173). -/
def basePoint : Buffer := (Vector.replicate 32 0#8).set 0 0x09#8

/-! ## The limb-level sequence of R176 -/

/-- The four working elements of R176: `a = x2`, `b = x3`, `c = z2`, `d = z3`. -/
structure LimbLadder where
  a : FieldElem
  b : FieldElem
  c : FieldElem
  d : FieldElem
  deriving DecidableEq, Repr

/-- Bit `i` of the clamped scalar, `(z[i >> 3] >> (i & 7)) & 1`. -/
def scalarBit (z : Buffer) (i : Fin 256) : Bool := (z[i.val / 8]).getLsbD (i.val % 8)

/-- One iteration of R176's loop: swap, differential addition and doubling, swap back. -/
def limbLadderStep (x : FieldElem) (r : Bool) (l : LimbLadder) : LimbLadder :=
  let ab := cswap l.a l.b (flagLimb r)
  let cd := cswap l.c l.d (flagLimb r)
  let e := addElem ab.1 cd.1
  let a := subElem ab.1 cd.1
  let c := addElem ab.2 cd.2
  let b := subElem ab.2 cd.2
  let d := mul e e
  let f := mul a a
  let a := mul c a
  let c := mul b e
  let e := addElem a c
  let a := subElem a c
  let b := mul a a
  let c := subElem d f
  let a := mul c (smallElem 0xDB41#64 0x1#64)
  let a := addElem a d
  let c := mul c a
  let a := mul d f
  let d := mul b x
  let b := mul e e
  let ab := cswap a b (flagLimb r)
  let cd := cswap c d (flagLimb r)
  { a := ab.1, b := ab.2, c := cd.1, d := cd.2 }

/-- R176's loop for i from `n − 1` down to 0. -/
def limbLadderLoop (x : FieldElem) (z : Buffer) : Nat → LimbLadder → LimbLadder
  | 0, l => l
  | i + 1, l => limbLadderLoop x z i (limbLadderStep x (scalarBit z (Fin.ofNat 256 i)) l)

/-- "An implementation may compute rule R171 with the limb-level helpers" (R176). -/
def x25519Limbs (k ub : Buffer) : Buffer :=
  let x := unpack ub
  let one := smallElem 1#64 0#64
  let l := limbLadderLoop x (clamp k) 255 { a := one, b := x, c := smallElem 0#64 0#64, d := one }
  pack (mul l.a (inv l.c))

end Sys2Proof.Machine
end

