-- ==== Sys2Proof/Machine/Scalar.lean ====
section
/-!
DEFINITION. The meanings of the scalar-multiplier commands (41_scalarmult.md R172, R173). Both inputs are read before the output is
written; only `B[d]` changes (R175).
-/

namespace Sys2Proof.Machine

/-- `SMULT bd, ba, bb` (R172): `B[d] <- X25519(B[a], B[b])`. -/
def execSmult (d a b : BReg) (s : State) : Host.Outcome State Fault Refusal :=
  .next (s.setBuf d (x25519 (s.buf a) (s.buf b)))

/-- `SMULTB bd, ba` (R173): `B[d] <- X25519(B[a], 09 00 … 00)`. -/
def execSmultb (d a : BReg) (s : State) : Host.Outcome State Fault Refusal :=
  .next (s.setBuf d (x25519 (s.buf a) basePoint))

end Sys2Proof.Machine
end

