-- ==== Sys2Proof/Machine/Permutation.lean ====
section
/-!
DEFINITION. The sponge permutation (42_sponge.md R190 to R194) over `Sponge`.
-/

namespace Sys2Proof.Machine

/-- `RC[j] = ((0xF − j) << 4) | j` (R190). For every legal round count the indices used are 0..11. -/
def roundConst (j : Nat) : Byte := BitVec.ofNat 8 (((0xF - j) <<< 4) ||| j)

/-- R191: `S[2] <- S[2] ^ zext_64(RC[12 − rounds + i])`. -/
def addConst (rounds i : Nat) (x : Sponge) : Sponge :=
  x.set 2 (x[2] ^^^ (roundConst (12 - rounds + i)).zeroExtend 64)

/-- R192: the substitution layer, the statements of its four lines in order. -/
def sboxLayer (x : Sponge) : Sponge :=
  let x0 := x[0] ^^^ x[4]
  let x4 := x[4] ^^^ x[3]
  let x2 := x[2] ^^^ x[1]
  let x1 := x[1]
  let x3 := x[3]
  let t0 := ~~~x0 &&& x1
  let t1 := ~~~x1 &&& x2
  let t2 := ~~~x2 &&& x3
  let t3 := ~~~x3 &&& x4
  let t4 := ~~~x4 &&& x0
  let x0 := x0 ^^^ t1
  let x1 := x1 ^^^ t2
  let x2 := x2 ^^^ t3
  let x3 := x3 ^^^ t4
  let x4 := x4 ^^^ t0
  let x1 := x1 ^^^ x0
  let x0 := x0 ^^^ x4
  let x3 := x3 ^^^ x2
  let x2 := ~~~x2
  #v[x0, x1, x2, x3, x4]

/-- One word of R193: the word XORed with two right rotations of itself. -/
def diffuse (a b : Nat) (x : Word64) : Word64 := x ^^^ rotr64 x a ^^^ rotr64 x b

/-- R193: the linear layer, with the pairs (19,28), (61,39), (1,6), (10,17), (7,41). -/
def linearLayer (x : Sponge) : Sponge :=
  #v[diffuse 19 28 x[0], diffuse 61 39 x[1], diffuse 1 6 x[2], diffuse 10 17 x[3], diffuse 7 41 x[4]]

/-- Round `i` of a permutation of `rounds` rounds (R194). -/
def permRound (rounds : Nat) (x : Sponge) (i : Nat) : Sponge :=
  linearLayer (sboxLayer (addConst rounds i x))

/-- `p(S, rounds)` of R194. -/
def permute (rounds : Nat) (x : Sponge) : Sponge :=
  (List.range rounds).foldl (permRound rounds) x

end Sys2Proof.Machine
end

