-- ==== Sys2Proof/Machine/SpongeCmd.lean ====
section
/-!
DEFINITION. The meanings of the sponge and AEAD commands (42_sponge.md R195 to R202). None is refused because of `PHASE`, and none
raises an error after acceptance.
-/

namespace Sys2Proof.Machine

/-- `S[3] <- S[3] ^ K[0]`, `S[4] <- S[4] ^ K[1]`, the closing lines of R198 and R202. -/
def addKeyTail (x : Sponge) (k : Vector Word64 4) : Sponge :=
  (x.set 3 (x[3] ^^^ k[0])).set 4 (x[4] ^^^ k[1])

/-- `S[1] <- S[1] ^ K[0]`, `S[2] <- S[2] ^ K[1]`, the opening lines of R202. -/
def addKeyHead (x : Sponge) (k : Vector Word64 4) : Sponge :=
  (x.set 1 (x[1] ^^^ k[0])).set 2 (x[2] ^^^ k[1])

/-- `S <- (IV, K[0], K[1], N[0], N[1])` (R198). -/
def loadedSponge (s : State) : Sponge :=
  #v[s.iv, s.key[0], s.key[1], s.nonce[0], s.nonce[1]]

/-- `PERM rounds` (R196). A round count outside 1..12 is no command: the decoder rejects its word with `EROUNDS` (R104). -/
def execPerm (rounds : Nat) (s : State) : Host.Outcome State Fault Refusal :=
  if legalRounds rounds then .next (s.setSponge (permute rounds s.sponge)) else .fault .illFormedRounds

/-- `INIT [load]` (R198). -/
def execInit (load : Bool) (s : State) : Host.Outcome State Fault Refusal :=
  let x := if load then loadedSponge s else s.sponge
  .next ((s.setSponge (addKeyTail (permute 12 x) s.key)).setPhase .keyed)

/-- `ADABS` (R199). -/
def execAdabs (s : State) : Host.Outcome State Fault Refusal :=
  .next ((s.setSponge (permute 6 (s.sponge.set 0 (s.sponge[0] ^^^ s.din)))).setPhase .ad)

/-- `ADEND` (R200). -/
def execAdend (s : State) : Host.Outcome State Fault Refusal :=
  .next ((s.setSponge (s.sponge.set 4 (s.sponge[4] ^^^ 1#64))).setPhase .addone)

/-- `CRYPT` (R201): permutes first when `PHASE` = `STREAM`; the data word is not absorbed. -/
def execCrypt (s : State) : Host.Outcome State Fault Refusal :=
  let x := if s.phase = .stream then permute 6 s.sponge else s.sponge
  .next (((s.setSponge x).setDout (s.din ^^^ x[0])).setPhase .stream)

/-- `FINAL` (R202). -/
def execFinal (s : State) : Host.Outcome State Fault Refusal :=
  .next ((s.setSponge (addKeyTail (permute 12 (addKeyHead s.sponge s.key)) s.key)).setPhase .final)

/-- `KEYLD ba` (R197): `K[w]` is the little-endian reading of bytes `8w`..`8w+7` of `B[a]`. -/
def execKeyld (a : BReg) (s : State) : Host.Outcome State Fault Refusal :=
  .next (s.setKey (Vector.ofFn fun w => le64 (s.buf a) w))

end Sys2Proof.Machine
end

