-- ==== Sys2Proof/Machine/System.lean ====
section
/-!
DEFINITION. The meaning of the system command `NOP` (43_system.md R230).
-/

namespace Sys2Proof.Machine

/-- `NOP` (R230): "no state change at execution". Acceptance and completion still happen around it. -/
def execNop (s : State) : Host.Outcome State Fault Refusal := .next s

end Sys2Proof.Machine
end

