-- ==== Sys2Proof/Machine/Dispatch.lean ====
section
/-! DEFINITION. `execute(w)` of 43_system.md R232 for a decoded command: one arm per row of the opcode table. -/

namespace Sys2Proof.Machine

def exec (i : Instr) (s : State) : Host.Outcome State Fault Refusal :=
  match i with
  | .nop => Sys2Proof.Machine.execNop s
  | .fadd d a b => Sys2Proof.Machine.execFadd d a b s
  | .fsub d a b => Sys2Proof.Machine.execFsub d a b s
  | .fmul d a b => Sys2Proof.Machine.execFmul d a b s
  | .fsqr d a => Sys2Proof.Machine.execFsqr d a s
  | .fcar d a => Sys2Proof.Machine.execFcar d a s
  | .finv d a => Sys2Proof.Machine.execFinv d a s
  | .fcswap a b swap => Sys2Proof.Machine.execFcswap a b swap s
  | .funpack d a => Sys2Proof.Machine.execFunpack d a s
  | .fpack d a => Sys2Proof.Machine.execFpack d a s
  | .smult d a b => Sys2Proof.Machine.execSmult d a b s
  | .smultb d a => Sys2Proof.Machine.execSmultb d a s
  | .perm rounds => Sys2Proof.Machine.execPerm rounds s
  | .init load => Sys2Proof.Machine.execInit load s
  | .adabs => Sys2Proof.Machine.execAdabs s
  | .adend => Sys2Proof.Machine.execAdend s
  | .crypt => Sys2Proof.Machine.execCrypt s
  | .final => Sys2Proof.Machine.execFinal s
  | .keyld a => Sys2Proof.Machine.execKeyld a s

end Sys2Proof.Machine
end

