-- ==== Sys2Proof/Machine/Completion.lean ====
section
/-!
DEFINITION. The completion of the pending command (43_system.md R232), and one event of the core (R234).
-/

namespace Sys2Proof.Machine

/-- R232 as one indivisible step: `w <- PENDING; execute(w); PENDING <- absent; BUSY <- 0; DONE <- 1`. -/
def complete (s : State) : Host.Outcome State Fault Refusal :=
  match fetchPending s with
  | .stop r => .fault r
  | .command i =>
    match exec i s with
    | .next t => .next (retire t)
    | .fault r => .fault r
    | .refused r => .refused r

/-- The core's own event: the pending command completes; when none is pending nothing happens. -/
def coreEvent (s : State) : Host.Outcome State Fault Refusal :=
  if completionEnabled s then complete s else .next s

/-- One event of R234's table. -/
def applyEvent (s : State) : Event → Host.Outcome State Fault Refusal
  | .read off size => .next (hostRead s off size)
  | .write off size v => .next (hostWrite s off size v)
  | .completion => coreEvent s
  | .resetAssert => .next (assertReset s)
  | .resetRelease => .next (releaseReset s)

/-- The next event leaves the list of events to come. -/
def popInput (s : State) : State := { s with inputs := s.inputs.tail }

/-- The host's write of `w` to `CMD` on the idle core (R231), with completion as the next event. A word the decoder rejects leaves
the core idle, its error recorded. -/
def placeCommand (s : State) (w : Word) : State :=
  { writeCmd { s with pending := none, busy := false, resetLine := false } w with inputs := .completion :: s.inputs }

end Sys2Proof.Machine
end

