-- ==== Sys2Proof/Machine/Step.lean ====
section
/-!
DEFINITION. One step of the machine. The next event of `State.inputs` happens; when the list is empty, only the core itself can
act: it completes its pending command, or waits for the host (70_reset_and_hazards.md R284). Log entry 1.
-/

namespace Sys2Proof.Machine

/-- One step: one event of 43_system.md R234. -/
def step (s : State) : Host.Outcome State Fault Refusal :=
  match s.inputs with
  | [] => coreEvent s
  | e :: _ => applyEvent (popInput s) e

/-- `s` with the instruction of the table word `w` as the accepted command that the very next step completes. The core fetches
nothing (10_state.md R34); `PENDING` is where the command it runs next stands (R47). Log entry 8. -/
def State.withFetchWord (s : State) (nbits w : Nat) : State :=
  placeCommand s (BitVec.ofNat 32 (w % 2 ^ nbits))

end Sys2Proof.Machine
end

