-- ==== Sys2Proof/Machine/HostOps.lean ====
section
/-!
DEFINITION. The host's side: the operations of 30_encoding.md R112 and the pseudo-instructions of R111 as lists of events and
commands, bus addresses and latency (the parameters `BASE` and `LAT`), the host sequences of 42_sponge.md R203 and R204, and
the run of a list of events with what its reads returned. Nothing in the machine calls these.
-/

namespace Sys2Proof.Machine

/-- `wr32 off, v` of R112. -/
def wr32 (off : Offset) (v : Word) : List Event := [.write off 4 v]

/-- `rd32 off` of R112. -/
def rd32 (off : Offset) : List Event := [.read off 4]

/-- `wr64 off, v` of R112: the low half, then the high half at `off + 4`. -/
def wr64 (off : Offset) (v : Word64) : List Event :=
  wr32 off (getHalf v .lo) ++ wr32 (off + 4#12) (getHalf v .hi)

/-- `rd64 off` of R112. -/
def rd64 (off : Offset) : List Event := rd32 off ++ rd32 (off + 4#12)

/-- `wait` of R112, in the interleaving in which the command completes after `polls` polls of `STATUS` have read `BUSY` = 1; the
next poll reads 0 and ends the wait (43_system.md R233, R236). -/
def wait (polls : Nat) : List Event :=
  List.replicate polls (.read 0x008#12 4) ++ [.completion] ++ rd32 0x008#12

/-- `cmd X` of R112: the word of `X` written to `CMD`, then `wait`. -/
def cmd (polls : Nat) (i : Instr) : List Event := wr32 0x00C#12 (encode i) ++ wait polls

/-- The pseudo-instructions of R111. -/
inductive Pseudo where
  | enc
  | dec
  | p6
  | p8
  | p12
  | fsel (a b : FReg) (swap : Bool)
  deriving DecidableEq, Repr

/-- The command a pseudo-instruction assembles to (R111). -/
def Pseudo.expand : Pseudo → Instr
  | .enc => .crypt
  | .dec => .crypt
  | .p6 => .perm 6
  | .p8 => .perm 8
  | .p12 => .perm 12
  | .fsel a b swap => .fcswap a b swap

/-- The round count, for `PERM` only. -/
def roundsOf : Instr → Nat
  | .perm rounds => rounds
  | _ => 0

/-- `LAT(op)` in clock cycles: at least 1, a function of the opcode and for `PERM` of `rounds` (42_sponge.md R206, 43_system.md
R233, 70_reset_and_hazards.md R295). DESIGN CHOICE (log entry 17): `CRYPT` has one latency in every `PHASE`, where R295's closing
sentence and R296 leave room for two. -/
def latency (i : Instr) : Nat := 1 + Config.extraLatency (opcodeField (encode i)) (roundsOf i)

/-- `cmd X` by a host that polls `STATUS` every `period` ≥ 1 clock cycles, the first poll one period after acceptance: the
⌊`LAT(op)` / `period`⌋ polls up to and including cycle `LAT(op)` read `BUSY` = 1, the next one reads 0. DESIGN CHOICE (log
entry 16): the spec does not order a poll that falls exactly `LAT(op)` cycles after acceptance against the completion (R233), and
here the poll comes first. -/
def timedCmd (period : Nat) (i : Instr) : List Event := cmd (latency i / period) i

/-- The offset of a bus address in the window at `BASE`; an address outside the window is none of the core's (20_memory.md R70). -/
def windowOffset (addr : Nat) : Option Offset :=
  if Config.base ≤ addr ∧ addr < Config.base + 4096 then some (BitVec.ofNat 12 (addr - Config.base)) else none

/-- What reaches the core of a host read of `size` bytes at a bus address. -/
def busRead (addr size : Nat) : List Event :=
  match windowOffset addr with
  | some off => [.read off size]
  | none => []

/-- What reaches the core of a host write of `size` bytes at a bus address. -/
def busWrite (addr size : Nat) (v : Word) : List Event :=
  match windowOffset addr with
  | some off => [.write off size v]
  | none => []

/-- The offset of word `w` of `B[k]` (20_memory.md R73). -/
def bufOffset (k : BReg) (w : Fin 8) : Offset := BitVec.ofNat 12 (0x200 + 32 * k.val + 4 * w.val)

/-- `wrbuf k, x` of R112: eight `wr32`, byte 0 first. -/
def wrbuf (k : BReg) (x : Buffer) : List Event :=
  (List.finRange 8).flatMap fun w => wr32 (bufOffset k w) (bufWord x w)

/-- `rdbuf k` of R112. -/
def rdbuf (k : BReg) : List Event := (List.finRange 8).flatMap fun w => rd32 (bufOffset k w)

/-- R203, `encrypt` (and `decrypt`, the same sequence) of the words `m` under the shared secret in `B[k]`. -/
def encryptEvents (polls : Nat) (k : BReg) (m : List Word64) : List Event :=
  cmd polls (.keyld k) ++ wr64 0x168#12 (Config.nonceLiteral 0) ++ wr64 0x170#12 (Config.nonceLiteral 1) ++
    cmd polls (.init true) ++
    m.flatMap fun x => wr64 0x180#12 x ++ cmd polls .crypt ++ rd64 0x188#12

/-- R203 on a message of bytes, packed by the host's convention `MSG_PACK`. -/
def encryptMessage (polls : Nat) (k : BReg) (bytes : List Byte) : List Event :=
  encryptEvents polls k (Config.msgPack bytes)

/-- R204: `INIT load`, `ADABS` once per block with the block in `DIN`, `ADEND`, `FINAL`. -/
def authEvents (polls : Nat) (blocks : List Word64) : List Event :=
  cmd polls (.init true) ++ blocks.flatMap (fun x => wr64 0x180#12 x ++ cmd polls .adabs) ++
    cmd polls .adend ++ cmd polls .final

/-- What a read brought back, with its offset. -/
def readBack (e : Event) (r : Response) : List (Offset × Word) :=
  match e, r with
  | .read off _, .data v => [(off, v)]
  | _, _ => []

/-- The steps of the events `es`, one each, from `s`: what the reads returned, in order, and the state at the end; `none` if a
step stops. -/
def drive : List Event → State → Option (List (Offset × Word) × State)
  | [], s => some ([], s)
  | e :: es, s =>
    match step { s with inputs := [e] } with
    | .next t =>
      match drive es t with
      | some (log, u) => some (readBack e t.response ++ log, u)
      | none => none
    | .fault _ => none
    | .refused _ => none

/-- The 64-bit values a log's `rd64 off` accesses returned: `{hi, lo}` (R112). -/
def words64At (off : Offset) (log : List (Offset × Word)) : List Word64 :=
  List.zipWith (fun (l h : Offset × Word) => joinHalves h.2 l.2)
    (log.filter fun x => x.1 = off) (log.filter fun x => x.1 = off + 4#12)

end Sys2Proof.Machine
end

