-- ==== Sys2Proof/Machine/LadderRing.lean ====
section
/-!
DEFINITION. The Montgomery ladder of 41_scalarmult.md R171 over any commutative ring, for claims about the scalar multiplier: "All
arithmetic below is exact arithmetic mod p" is this ladder at `ZMod fieldPrime`. The machine does not call it.
-/

namespace Sys2Proof.Machine

/-- R171's working values in a ring. -/
structure RingLadder (R : Type) where
  x2 : R
  z2 : R
  x3 : R
  z3 : R
  swap : Bool

/-- `cswap_mod_p` of R171 on both pairs. -/
def RingLadder.cswap {R : Type} (l : RingLadder R) (s : Bool) : RingLadder R :=
  if s then { x2 := l.x3, z2 := l.z3, x3 := l.x2, z3 := l.z2, swap := l.swap } else l

/-- One iteration of R171's loop. -/
def RingLadder.step {R : Type} [CommRing R] (x1 : R) (kt : Bool) (l : RingLadder R) : RingLadder R :=
  let m := l.cswap (xor l.swap kt)
  let aa := (m.x2 + m.z2) ^ 2
  let bb := (m.x2 - m.z2) ^ 2
  let da := (m.x3 - m.z3) * (m.x2 + m.z2)
  let cb := (m.x3 + m.z3) * (m.x2 - m.z2)
  { x2 := aa * bb
    z2 := (aa - bb) * (aa + 121665 * (aa - bb))
    x3 := (da + cb) ^ 2
    z3 := x1 * (da - cb) ^ 2
    swap := kt }

/-- The 255 iterations, scalar bits 254 down to 0, and the last swap. -/
def ringLadder {R : Type} [CommRing R] (x1 : R) (n : Nat) : RingLadder R :=
  let l := (List.range 255).reverse.foldl (fun l t => RingLadder.step x1 (n.testBit t) l)
    { x2 := 1, z2 := 0, x3 := x1, z3 := 1, swap := false }
  l.cswap l.swap

/-- "inverts the resulting Z-coordinate and multiplies by X" (R171), the inverse as the power p − 2. -/
def ringX25519 {R : Type} [CommRing R] (x1 : R) (n : Nat) : R :=
  (ringLadder x1 n).x2 * (ringLadder x1 n).z2 ^ (fieldPrime - 2)

end Sys2Proof.Machine
end

