-- ==== Sys2Proof/Safety.lean ====
section
/-!
DEFINITION. What claims about runs are stated in: the invariant of the machine, the frame ("nothing else changed"), and the
limb bound under which the field commands do not wrap.
-/

namespace Sys2Proof.Machine

/-- Was `info` the datum 10_state.md R46 and 60_exceptions.md R251 record with this code? For `ERSV`, `EILLOP` and `EROUNDS` it is a
word the decoder rejects for that reason; for `EBUSYC` any word; for `EBUSYW` the byte offset of a write to a writable data
region, bits [31:12] = 0. -/
def recordedInfo (e : ErrorCode) (info : Word) : Prop :=
  match e with
  | .ersv => decode info = .reject .ersv
  | .eillop => decode info = .reject .eillop
  | .erounds => decode info = .reject .erounds
  | .ebusyc => True
  | .ebusyw => ∃ off : Offset, info = off.zeroExtend 32 ∧ off.toNat % 4 = 0 ∧ (locate off).isWritableData = true

/-- The invariant every step keeps. -/
structure State.Inv (s : State) : Prop where
  /-- `PENDING` "is present exactly when `STATUS.BUSY` = 1" (R47). -/
  busyPending : s.busy = s.pending.isSome
  /-- `LASTCMD` equals `PENDING` while it is present (R47). -/
  pendingLast : ∀ w, s.pending = some w → w = s.lastCmd
  /-- `LASTCMD` is the last *accepted* word, "A rejected word is not stored there" (R45). -/
  lastAccepted : (decode s.lastCmd).isAccept = true
  /-- Acceptance clears `DONE` and only completion sets it (R231, R232). -/
  busyNotDone : s.busy = true → s.done = false
  /-- `ECODE` and `ERRINFO` are 0 when `ERR` = 0 (R44, R46). -/
  errClear : s.err = false → s.ecode = 0#4 ∧ s.errInfo = 0#32
  /-- When `ERR` = 1, `ECODE` is one of the codes 1..5 and `ERRINFO` the datum recorded with it (R251). -/
  errRecorded : s.err = true → ∃ e : ErrorCode, s.ecode = e.code ∧ recordedInfo e s.errInfo
  /-- While the reset input is asserted, the core holds the reset state (R282). -/
  heldInReset : s.resetLine = true → applyReset s = s

/-- Nothing changed from `s` to `t` but what the window shows at the locations in `touched`: every other register of the window
reads the same (control and status words included), `PENDING` is the same, and so are the model's own fields. -/
structure Unchanged (touched : Loc → Prop) (s t : State) : Prop where
  window : ∀ l : Loc, ¬ touched l → t.peek l = s.peek l
  pending : t.pending = s.pending
  resetLine : t.resetLine = s.resetLine
  inputs : t.inputs = s.inputs
  draws : t.draws = s.draws
  response : t.response = s.response

/-- The limbs of `F[k]`. -/
def inFreg (k : FReg) (l : Loc) : Prop := ∃ j h, l = .limb k j h

/-- The words of `B[k]`. -/
def inBuf (k : BReg) (l : Loc) : Prop := ∃ w, l = .buf k w

/-- The words of `S`. -/
def inSponge (l : Loc) : Prop := ∃ i h, l = .sponge i h

/-- The words of `K`. -/
def inKey (l : Loc) : Prop := ∃ i h, l = .key i h

/-- The words of `DOUT`. -/
def inDout (l : Loc) : Prop := ∃ h, l = .dout h

/-- Every limb of `f` has magnitude at most `n`. -/
def limbsWithin (n : Int) (f : FieldElem) : Prop := ∀ j : Fin 16, -n ≤ f[j].toInt ∧ f[j].toInt ≤ n

end Sys2Proof.Machine
end

