-- ==== Sys2Proof/Certificates/Slice0/Obligations.lean ====
section
/-!
DEFINITION. The statements about the machine. Each docstring names the rules of spec/ it formalises.
-/

open Sys2Proof Sys2Proof.Machine

/-! ## Reset and the invariant -/

/-- R281, R53, R264: after `apply_reset()` every register of the window reads its reset value (all 0 but `ID` and `IV`), `PENDING` is
absent and `irq` is 0; and the machine starts in that state. -/
def Obligations.ResetGivesEveryRegisterItsValue : Prop :=
  ∀ s t : State, t = State.reset ∨ t = applyReset s →
    t.peek .id = 0x25519A07#32 ∧ t.peek (.iv .lo) = 0x00000000#32 ∧ t.peek (.iv .hi) = 0x80400C06#32 ∧
    (∀ l : Loc, l ≠ .id → (∀ h, l ≠ .iv h) → t.peek l = 0#32) ∧ t.pending = none ∧ t.irq = false

/-- The reset state meets the invariant. -/
def Obligations.ResetMeetsInvariant : Prop := State.reset.Inv

/-- Every step keeps the invariant, from every state that meets it. -/
def Obligations.StepKeepsInvariant : Prop :=
  ∀ s t : State, s.Inv → step s = .next t → t.Inv

/-- From every state that meets the invariant a step goes on: no event stops the machine (R260: no accepted command raises an error
at execution; R268: the core keeps working after any error). -/
def Obligations.StepNeverStops : Prop :=
  ∀ s : State, s.Inv → ∃ t : State, step s = .next t

/-- R282, R283: from any state, asserting the reset input, then any events while it stays asserted, then releasing it, leaves the
core idle with the reset state: every register of the window reads as after reset and no command is pending. -/
def Obligations.HardwareResetEndsInResetState : Prop :=
  ∀ (s : State) (es : List Event), Event.resetRelease ∉ es →
    ∃ log t, drive (.resetAssert :: es ++ [.resetRelease]) s = some (log, t) ∧
      (∀ l : Loc, t.peek l = State.reset.peek l) ∧ t.pending = none ∧ t.resetLine = false

/-! ## Encoding -/

/-- Decoding the encoding of a well-formed command gives the command back, every operand at every value. -/
def Obligations.DecodeOfEncode : Prop :=
  ∀ i : Instr, i.wellFormed = true → decode (encode i) = .accept i

/-- An accepted word is the encoding of its command in every bit the command uses, and the command is well formed. -/
def Obligations.AcceptedWordIsItsCommandsEncoding : Prop :=
  ∀ (w : Word) (i : Instr), decode w = .accept i →
    i.wellFormed = true ∧ w &&& usedBits i = encode i

/-- R108: "Two words that differ only in ignored fields execute identically": they decode to the same command. -/
def Obligations.IgnoredFieldsDoNotMatter : Prop :=
  ∀ (w w' : Word) (i : Instr), decode w = .accept i → w' &&& usedBits i = w &&& usedBits i →
    decode w' = .accept i

/-- R107: the order of the checks, and exactly which words each one rejects. -/
def Obligations.DecodeRejectsInOrder : Prop :=
  ∀ w : Word,
    (decode w = .reject .ersv ↔ w.toNat / 2 ^ 24 ≠ 0) ∧
    (decode w = .reject .eillop ↔ w.toNat / 2 ^ 24 = 0 ∧
      w.toNat % 256 ∉ [0x00, 0x10, 0x11, 0x12, 0x13, 0x14, 0x15, 0x16, 0x17, 0x18, 0x20, 0x21, 0x30, 0x31, 0x32, 0x33, 0x34,
        0x35, 0x36]) ∧
    (decode w = .reject .erounds ↔ w.toNat / 2 ^ 24 = 0 ∧ w.toNat % 256 = 0x30 ∧
      ¬(1 ≤ w.toNat / 2 ^ 20 % 16 ∧ w.toNat / 2 ^ 20 % 16 ≤ 12))

/-- Words the spec writes out decode to the commands it names (R106, R110, 95_test_vectors.md). -/
def Obligations.SpecWordsDecode : Prop :=
  decode 0x00000000#32 = .accept .nop ∧
  decode 0x00FFFF10#32 = .accept (.fadd 15 15 15) ∧
  decode 0x00021312#32 = .accept (.fmul 3 1 2) ∧
  decode 0x00000115#32 = .accept (.finv 1 0) ∧
  decode 0x00121016#32 = .accept (.fcswap 1 2 true) ∧
  decode 0x00E21016#32 = .accept (.fcswap 1 2 false) ∧
  decode 0x00003218#32 = .accept (.fpack 2 3) ∧
  decode 0x00010220#32 = .accept (.smult 2 0 1) ∧
  decode 0x00000121#32 = .accept (.smultb 1 0) ∧
  decode 0x00C00030#32 = .accept (.perm 12) ∧
  decode 0x00100031#32 = .accept (.init true) ∧
  decode 0x00004036#32 = .accept (.keyld 4)

/-! ## The life of a command -/

/-- A step runs the decoded command: when the next event is completion (or no event is queued) and the core is busy with the word `w`
of command `i`, the step is `exec i` at the state with that event taken, then `PENDING` absent, `BUSY` 0 and `DONE` 1
(R232). -/
def Obligations.StepRunsPendingCommand : Prop :=
  ∀ (s t : State) (w : Word) (i : Instr),
    s.busy = true → s.resetLine = false → s.pending = some w → decode w = .accept i →
    (s.inputs = [] ∨ ∃ rest, s.inputs = .completion :: rest) →
    exec i { s with inputs := s.inputs.tail } = .next t →
    step s = .next { t with pending := none, busy := false, done := true }

/-- R232, R260: the completion of any pending command takes a step that clears `BUSY`, sets `DONE`, makes `PENDING` absent, and never
touches `ERR`, `ECODE`, `ERRINFO`, `LASTCMD` or `CTRL`. -/
def Obligations.CompletionSetsDoneNeverErr : Prop :=
  ∀ s : State, s.Inv → s.busy = true →
    (s.inputs = [] ∨ ∃ rest, s.inputs = .completion :: rest) →
    ∃ t : State, step s = .next t ∧ t.busy = false ∧ t.done = true ∧ t.pending = none ∧
      t.err = s.err ∧ t.ecode = s.ecode ∧ t.errInfo = s.errInfo ∧ t.lastCmd = s.lastCmd ∧ t.ie = s.ie

/-- R231, acceptance: a word the decoder accepts, written to `CMD` while idle, becomes `LASTCMD` and `PENDING`, sets `BUSY` and
clears `DONE`; every other register reads as before. -/
def Obligations.AcceptedCommandBecomesPending : Prop :=
  ∀ (s : State) (w : Word) (i : Instr) (rest : List Event),
    s.inputs = .write 0x00C#12 4 w :: rest → s.busy = false → s.resetLine = false → decode w = .accept i →
    ∃ t : State, step s = .next t ∧ t.busy = true ∧ t.pending = some w ∧ t.lastCmd = w ∧ t.done = false ∧
      t.err = s.err ∧ t.ecode = s.ecode ∧
      (∀ l : Loc, l ≠ .status → l ≠ .cmd → t.peek l = s.peek l) ∧
      t.response = .ack ∧ t.inputs = rest ∧ t.draws = s.draws

/-- R231, R259, R261, R262: a word the decoder rejects, written to `CMD` while idle, clears `DONE` and records its code and the word if
no error is recorded yet; the core stays idle and every other register reads as before. -/
def Obligations.RejectedCommandOnlyRecordsError : Prop :=
  ∀ (s : State) (w : Word) (e : DecodeError) (rest : List Event),
    s.inputs = .write 0x00C#12 4 w :: rest → s.busy = false → s.resetLine = false → decode w = .reject e →
    ∃ t : State, step s = .next t ∧ t.busy = false ∧ t.pending = s.pending ∧ t.done = false ∧ t.err = true ∧
      t.ecode = (if s.err then s.ecode else match e with | .ersv => 1#4 | .eillop => 2#4 | .erounds => 3#4) ∧
      t.errInfo = (if s.err then s.errInfo else w) ∧
      (∀ l : Loc, l ≠ .status → l ≠ .errInfo → t.peek l = s.peek l) ∧
      t.response = .ack ∧ t.inputs = rest ∧ t.draws = s.draws

/-- R256: a write to `CMD` while busy, whatever the word, is dropped: the pending command, `LASTCMD` and `DONE` are unchanged, and
`EBUSYC` (code 4) with the word is recorded if no error is recorded yet. -/
def Obligations.CommandWhileBusyIsDropped : Prop :=
  ∀ (s : State) (w : Word) (rest : List Event),
    s.inputs = .write 0x00C#12 4 w :: rest → s.busy = true → s.resetLine = false →
    ∃ t : State, step s = .next t ∧ t.busy = true ∧ t.pending = s.pending ∧ t.done = s.done ∧ t.err = true ∧
      t.ecode = (if s.err then s.ecode else 4#4) ∧ t.errInfo = (if s.err then s.errInfo else w) ∧
      (∀ l : Loc, l ≠ .status → l ≠ .errInfo → t.peek l = s.peek l) ∧ t.inputs = rest

/-- R233, R295: when the pending command completes makes no difference: the host operation `cmd X` on an idle core, with any number of
polls before the completion, ends in one and the same state. -/
def Obligations.CommandResultIndependentOfLatency : Prop :=
  ∀ (s : State) (i : Instr) (m n : Nat), i.wellFormed = true → s.busy = false → s.resetLine = false →
    ∃ log log' t, drive (cmd m i) s = some (log, t) ∧ drive (cmd n i) s = some (log', t) ∧
      t.busy = false ∧ t.done = true ∧ t.lastCmd = encode i

/-! ## Errors and the interrupt -/

/-- R262: while `ERR` = 1 no event changes `ERR`, `ECODE` or `ERRINFO`, but a write of 1 to `STATUS.ERR` and a reset (soft or
hardware). -/
def Obligations.FirstErrorWins : Prop :=
  ∀ s t : State, s.err = true → step s = .next t →
    (t.err = true ∧ t.ecode = s.ecode ∧ t.errInfo = s.errInfo) ∨
    (∃ off v, s.inputs.head? = some (.write off 4 v) ∧ s.resetLine = false ∧
      (off = 0x008#12 ∧ v.getLsbD 2 = true ∨ off = 0x004#12 ∧ v.getLsbD 1 = true)) ∨
    s.inputs.head? = some .resetAssert

/-- R250 to R257: `ERR` goes from 0 to 1 only at an aligned 32-bit write: to `CMD` while busy, to `CMD` with a word the decoder rejects,
or to a writable data region while busy; and then `ECODE` and `ERRINFO` hold that error's code and datum. -/
def Obligations.ErrorsComeOnlyFromInterfaceMisuse : Prop :=
  ∀ s t : State, s.err = false → step s = .next t → t.err = true →
    ∃ off v, s.inputs.head? = some (.write off 4 v) ∧ off.toNat % 4 = 0 ∧
      (off = 0x00C#12 ∧ s.busy = true ∧ t.ecode = 4#4 ∧ t.errInfo = v ∨
       off = 0x00C#12 ∧ s.busy = false ∧ decode v = .reject .ersv ∧ t.ecode = 1#4 ∧ t.errInfo = v ∨
       off = 0x00C#12 ∧ s.busy = false ∧ decode v = .reject .eillop ∧ t.ecode = 2#4 ∧ t.errInfo = v ∨
       off = 0x00C#12 ∧ s.busy = false ∧ decode v = .reject .erounds ∧ t.ecode = 3#4 ∧ t.errInfo = v ∨
       (locate off).isWritableData = true ∧ s.busy = true ∧ t.ecode = 5#4 ∧ t.errInfo.toNat = off.toNat)

/-- R263: `irq = CTRL.IE & (STATUS.DONE | STATUS.ERR)`, on the bits a host reads. -/
def Obligations.IrqIsEnabledDoneOrErr : Prop :=
  ∀ s : State, s.irq =
    ((s.peek .ctrl).getLsbD 0 && ((s.peek .status).getLsbD 1 || (s.peek .status).getLsbD 2))

/-! ## The register window -/

/-- R71, R72 to R74: the offsets of the map, each register at its own. -/
def Obligations.RegisterMapOffsets : Prop :=
  locate 0x000#12 = .id ∧ locate 0x004#12 = .ctrl ∧ locate 0x008#12 = .status ∧ locate 0x00C#12 = .cmd ∧
  locate 0x010#12 = .errInfo ∧ locate 0x014#12 = .phase ∧
  (∀ i : Fin 5, locate (BitVec.ofNat 12 (0x100 + 8 * i.val)) = .sponge i .lo ∧
    locate (BitVec.ofNat 12 (0x104 + 8 * i.val)) = .sponge i .hi) ∧
  (∀ i : Fin 4, locate (BitVec.ofNat 12 (0x140 + 8 * i.val)) = .key i .lo ∧
    locate (BitVec.ofNat 12 (0x144 + 8 * i.val)) = .key i .hi) ∧
  locate 0x160#12 = .iv .lo ∧ locate 0x164#12 = .iv .hi ∧
  locate 0x168#12 = .nonce 0 .lo ∧ locate 0x16C#12 = .nonce 0 .hi ∧
  locate 0x170#12 = .nonce 1 .lo ∧ locate 0x174#12 = .nonce 1 .hi ∧
  locate 0x180#12 = .din .lo ∧ locate 0x184#12 = .din .hi ∧ locate 0x188#12 = .dout .lo ∧ locate 0x18C#12 = .dout .hi ∧
  (∀ (k : BReg) (w : Fin 8), locate (BitVec.ofNat 12 (0x200 + 32 * k.val + 4 * w.val)) = .buf k w) ∧
  (∀ k j : Fin 16, locate (BitVec.ofNat 12 (0x800 + 128 * k.val + 8 * j.val)) = .limb k j .lo ∧
    locate (BitVec.ofNat 12 (0x804 + 128 * k.val + 8 * j.val)) = .limb k j .hi) ∧
  (∀ off : Offset, locate off = .reserved ↔
    0x018 ≤ off.toNat ∧ off.toNat < 0x100 ∨ 0x128 ≤ off.toNat ∧ off.toNat < 0x140 ∨
    0x178 ≤ off.toNat ∧ off.toNat < 0x180 ∨ 0x190 ≤ off.toNat ∧ off.toNat < 0x200 ∨
    0x400 ≤ off.toNat ∧ off.toNat < 0x800)

/-- R72 to R74, R81: an aligned 32-bit write to a writable data region while idle stores its value there, and every other register
of the window reads as before. -/
def Obligations.IdleDataWriteStoresOneWord : Prop :=
  ∀ (s : State) (off : Offset) (v : Word) (rest : List Event),
    s.inputs = .write off 4 v :: rest → off.toNat % 4 = 0 → (locate off).isWritableData = true →
    s.busy = false → s.resetLine = false →
    ∃ t : State, step s = .next t ∧ t.peek (locate off) = v ∧
      (∀ l : Loc, l ≠ locate off → t.peek l = s.peek l) ∧ t.pending = s.pending ∧ t.inputs = rest

/-- R257: an aligned 32-bit write to a writable data region while busy is dropped, and `EBUSYW` (code 5) with the byte offset is
recorded if no error is recorded yet. -/
def Obligations.BusyDataWriteIsDropped : Prop :=
  ∀ (s : State) (off : Offset) (v : Word) (rest : List Event),
    s.inputs = .write off 4 v :: rest → off.toNat % 4 = 0 → (locate off).isWritableData = true →
    s.busy = true → s.resetLine = false →
    ∃ t : State, step s = .next t ∧ t.err = true ∧ t.ecode = (if s.err then s.ecode else 5#4) ∧
      t.errInfo.toNat = (if s.err then s.errInfo.toNat else off.toNat) ∧ t.busy = true ∧ t.done = s.done ∧
      (∀ l : Loc, l ≠ .status → l ≠ .errInfo → t.peek l = s.peek l) ∧ t.pending = s.pending ∧ t.inputs = rest

/-- R80, R84: a write to a read-only register or to a reserved offset is ignored, whether busy or not, and records no error. -/
def Obligations.ReadOnlyAndReservedIgnoreWrites : Prop :=
  ∀ (s : State) (off : Offset) (v : Word) (rest : List Event),
    s.inputs = .write off 4 v :: rest → off.toNat % 4 = 0 →
    locate off ∈ [Loc.id, .errInfo, .phase, .dout .lo, .dout .hi, .reserved] →
    ∃ t : State, step s = .next t ∧ (∀ l : Loc, t.peek l = s.peek l) ∧ t.pending = s.pending ∧ t.inputs = rest

/-- R83: a read of a data region while busy returns the next free draw and uses it up; no register changes. The value of the draw is
an opaque constant, so nothing is said of it. -/
def Obligations.BusyDataReadIsAFreeDraw : Prop :=
  ∀ (s : State) (off : Offset) (rest : List Event),
    s.inputs = .read off 4 :: rest → off.toNat % 4 = 0 → (locate off).isData = true →
    s.busy = true → s.resetLine = false →
    ∃ t : State, step s = .next t ∧ t.response = .data (Config.freeRead s.draws) ∧ t.draws = s.draws + 1 ∧
      (∀ l : Loc, t.peek l = s.peek l) ∧ t.pending = s.pending ∧ t.inputs = rest

/-- R71, R81, R83: a read of any register while idle, and a read of a control register or a reserved offset at any time, returns the
register's value and changes nothing. -/
def Obligations.DefinedReadReturnsTheRegister : Prop :=
  ∀ (s : State) (off : Offset) (rest : List Event),
    s.inputs = .read off 4 :: rest → off.toNat % 4 = 0 → (s.busy = false ∨ (locate off).isData = false) →
    s.resetLine = false →
    ∃ t : State, step s = .next t ∧ t.response = .data (s.peek (locate off)) ∧ t.draws = s.draws ∧
      (∀ l : Loc, t.peek l = s.peek l) ∧ t.pending = s.pending ∧ t.inputs = rest

/-- R79, R258: an access that is not an aligned 32-bit one gets `bus_error` and changes no state of the core. That this holds while
the reset input is asserted too is the model's choice (log entry 4), not a rule's. -/
def Obligations.IllegalAccessGetsBusError : Prop :=
  ∀ (s : State) (off : Offset) (size : Nat) (v : Word) (rest : List Event),
    (s.inputs = .read off size :: rest ∨ s.inputs = .write off size v :: rest) →
    (size ≠ 4 ∨ off.toNat % 4 ≠ 0) →
    ∃ t : State, step s = .next t ∧ t.response = .busError ∧
      (∀ l : Loc, t.peek l = s.peek l) ∧ t.pending = s.pending ∧ t.irq = s.irq ∧ t.inputs = rest ∧ t.draws = s.draws

/-- R44: a write to `STATUS`, busy or not: a 1 in bit 1 clears `DONE`, a 1 in bit 2 clears `ERR`, `ECODE` and `ERRINFO`, a 0 leaves
them, and nothing else changes. -/
def Obligations.StatusWriteOneToClear : Prop :=
  ∀ (s : State) (v : Word) (rest : List Event),
    s.inputs = .write 0x008#12 4 v :: rest → s.resetLine = false →
    ∃ t : State, step s = .next t ∧ t.done = (s.done && !v.getLsbD 1) ∧ t.err = (s.err && !v.getLsbD 2) ∧
      t.ecode = (if v.getLsbD 2 then 0#4 else s.ecode) ∧ t.errInfo = (if v.getLsbD 2 then 0#32 else s.errInfo) ∧
      t.busy = s.busy ∧ (∀ l : Loc, l ≠ .status → l ≠ .errInfo → t.peek l = s.peek l) ∧
      t.pending = s.pending ∧ t.inputs = rest

/-- R280, R283: a write to `CTRL`, busy or not: with bit 1 = 1 every register of the window takes its reset value and the pending
command is gone, whatever bit 0 is; with bit 1 = 0 `IE` takes bit 0 and nothing else changes. -/
def Obligations.CtrlWriteSoftResetsOrSetsIe : Prop :=
  ∀ (s : State) (v : Word) (rest : List Event),
    s.inputs = .write 0x004#12 4 v :: rest → s.resetLine = false →
    ∃ t : State, step s = .next t ∧ t.inputs = rest ∧
      (v.getLsbD 1 = true → (∀ l : Loc, t.peek l = State.reset.peek l) ∧ t.pending = none) ∧
      (v.getLsbD 1 = false → t.ie = v.getLsbD 0 ∧
        (∀ l : Loc, l ≠ .ctrl → t.peek l = s.peek l) ∧ t.pending = s.pending)

/-! ## The system command -/

/-- R230: `NOP`, any word with `rsv` = 0 and opcode 0x00, changes no state at execution. -/
def Obligations.NopChangesNothing : Prop :=
  opcodeMeans 0x00#8 (fun _ => .nop) ∧
  ∀ s : State, ∃ t, exec .nop s = .next t ∧ Unchanged (fun _ => False) s t

/-! ## The field commands -/

/-- R139: `FADD` adds limb by limb, wrapping modulo 2^64; only `F[d]` changes; and the values add mod p when no limb wraps. -/
def Obligations.FaddAddsLimbwise : Prop :=
  opcodeMeans 0x10#8 (fun w => .fadd (dField w) (aField w) (bField w)) ∧
  ∀ (s : State) (d a b : FReg), ∃ t, exec (.fadd d a b) s = .next t ∧
    (∀ j : Fin 16, ((t.fe d)[j]).toInt = (((s.fe a)[j]).toInt + ((s.fe b)[j]).toInt).bmod (2 ^ 64)) ∧
    ((∀ j : Fin 16, -2 ^ 63 ≤ ((s.fe a)[j]).toInt + ((s.fe b)[j]).toInt ∧
        ((s.fe a)[j]).toInt + ((s.fe b)[j]).toInt < 2 ^ 63) →
      val (t.fe d) = (val (s.fe a) + val (s.fe b)) % fieldPrime) ∧
    Unchanged (inFreg d) s t

/-- R140: `FSUB` subtracts limb by limb, wrapping modulo 2^64; only `F[d]` changes; and the values subtract mod p when no limb
wraps. -/
def Obligations.FsubSubtractsLimbwise : Prop :=
  opcodeMeans 0x11#8 (fun w => .fsub (dField w) (aField w) (bField w)) ∧
  ∀ (s : State) (d a b : FReg), ∃ t, exec (.fsub d a b) s = .next t ∧
    (∀ j : Fin 16, ((t.fe d)[j]).toInt = (((s.fe a)[j]).toInt - ((s.fe b)[j]).toInt).bmod (2 ^ 64)) ∧
    ((∀ j : Fin 16, -2 ^ 63 ≤ ((s.fe a)[j]).toInt - ((s.fe b)[j]).toInt ∧
        ((s.fe a)[j]).toInt - ((s.fe b)[j]).toInt < 2 ^ 63) →
      (val (t.fe d) : Int) = ((val (s.fe a) : Int) - val (s.fe b)) % fieldPrime) ∧
    Unchanged (inFreg d) s t

/-- R141, R134: `FMUL` leaves in `F[d]` two carry passes over the 16 limbs of the schoolbook product, a term of index 16 + i folded with
factor 38 into limb i, every limb modulo 2^64; only `F[d]` changes. -/
def Obligations.FmulIsFoldedSchoolbookProduct : Prop :=
  opcodeMeans 0x12#8 (fun w => .fmul (dField w) (aField w) (bField w)) ∧
  ∀ (s : State) (d a b : FReg), ∃ t o, exec (.fmul d a b) s = .next t ∧
    (∀ i : Fin 16, o[i] = BitVec.ofInt 64 (∑ j : Fin 16, ∑ k : Fin 16,
      (if j.val + k.val = i.val then 1 else if j.val + k.val = i.val + 16 then 38 else 0) *
        (((s.fe a)[j]).toInt * ((s.fe b)[k]).toInt))) ∧
    t.fe d = car (car o) ∧ Unchanged (inFreg d) s t

/-- R148, R149: when every source limb has magnitude at most 2^26, `FMUL` multiplies the values mod p, and its result is a valid source
again: limbs 1..15 in [0, 2^16), limb 0 in [−38, 2^16 + 37]. -/
def Obligations.FmulMultipliesValues : Prop :=
  ∀ (s : State) (d a b : FReg), limbsWithin (2 ^ 26) (s.fe a) → limbsWithin (2 ^ 26) (s.fe b) →
    ∃ t, exec (.fmul d a b) s = .next t ∧ val (t.fe d) = (val (s.fe a) * val (s.fe b)) % fieldPrime ∧
      (∀ j : Fin 16, j ≠ 0 → 0 ≤ ((t.fe d)[j]).toInt ∧ ((t.fe d)[j]).toInt < 2 ^ 16) ∧
      -38 ≤ ((t.fe d)[(0 : Fin 16)]).toInt ∧ ((t.fe d)[(0 : Fin 16)]).toInt ≤ 2 ^ 16 + 37

/-- R142: `FSQR fd, fa` gives the state `FMUL fd, fa, fa` gives, limb for limb. -/
def Obligations.FsqrIsFmulOfItself : Prop :=
  opcodeMeans 0x13#8 (fun w => .fsqr (dField w) (aField w)) ∧
  ∀ (s : State) (d a : FReg), ∃ t, exec (.fsqr d a) s = .next t ∧ exec (.fmul d a a) s = .next t ∧
    Unchanged (inFreg d) s t

/-- R143, R133: `FCAR` is one carry pass: `c i` being the carry out of limb i, limb i + 1 becomes the low 16 bits of itself plus `c i`,
and limb 0 its low 16 bits plus 38 times the carry out of limb 15; limbs 1..15 end in [0, 2^16); the value is kept when every limb has
magnitude below 2^62 (R149); only `F[d]` changes. -/
def Obligations.FcarIsOneCarryPass : Prop :=
  opcodeMeans 0x14#8 (fun w => .fcar (dField w) (aField w)) ∧
  ∀ (s : State) (d a : FReg), ∃ (t : State) (c : Fin 16 → Limb), exec (.fcar d a) s = .next t ∧
    c 0 = ((s.fe a)[(0 : Fin 16)]).sshiftRight 16 ∧
    (t.fe d)[(0 : Fin 16)] = ((s.fe a)[(0 : Fin 16)] &&& 0xFFFF#64) + 38#64 * c 15 ∧
    (∀ i : Fin 15, c i.succ = ((s.fe a)[i.succ] + c i.castSucc).sshiftRight 16 ∧
      (t.fe d)[i.succ] = ((s.fe a)[i.succ] + c i.castSucc) &&& 0xFFFF#64 ∧
      0 ≤ ((t.fe d)[i.succ]).toInt ∧ ((t.fe d)[i.succ]).toInt < 2 ^ 16) ∧
    (limbsWithin (2 ^ 62 - 1) (s.fe a) → val (t.fe d) = val (s.fe a)) ∧
    Unchanged (inFreg d) s t

/-- R144, R137: `FINV` starts at `F[a]` and for k = 253 down to 0 squares and, except at k = 2 and k = 4, multiplies by `F[a]`; only
`F[d]` changes; and the value is `val(F[a])^(p−2)` mod p when every limb of `F[a]` has magnitude at most 2^26 (R148). -/
def Obligations.FinvIsThePowerPMinusTwo : Prop :=
  opcodeMeans 0x15#8 (fun w => .finv (dField w) (aField w)) ∧
  ∀ (s : State) (d a : FReg), ∃ (t : State) (c : Nat → FieldElem), exec (.finv d a) s = .next t ∧
    c 254 = s.fe a ∧
    (∀ k, k < 254 → c k =
      (if k = 2 ∨ k = 4 then mul (c (k + 1)) (c (k + 1)) else mul (mul (c (k + 1)) (c (k + 1))) (s.fe a))) ∧
    t.fe d = c 0 ∧
    (limbsWithin (2 ^ 26) (s.fe a) → val (t.fe d) = val (s.fe a) ^ (fieldPrime - 2) % fieldPrime) ∧
    Unchanged (inFreg d) s t

/-- R145: `FCSWAP` with `swap` = 0 leaves both registers, with `swap` = 1 swaps them; no other register changes. -/
def Obligations.FcswapSwapsExactlyOnFlag : Prop :=
  opcodeMeans 0x16#8 (fun w => .fcswap (aField w) (bField w) (w.getLsbD 20)) ∧
  ∀ (s : State) (a b : FReg) (swap : Bool), ∃ t, exec (.fcswap a b swap) s = .next t ∧
    t.fe a = (if swap then s.fe b else s.fe a) ∧ t.fe b = (if swap then s.fe a else s.fe b) ∧
    Unchanged (fun l => inFreg a l ∨ inFreg b l) s t

/-- R146, R136: `FUNPACK` puts in `F[d]` the 16-bit digits of the little-endian integer of `B[a]` with bit 255 cleared; only `F[d]`
changes. -/
def Obligations.FunpackReadsLittleEndian : Prop :=
  opcodeMeans 0x17#8 (fun w => .funpack (dField w) (aField w)) ∧
  ∀ (s : State) (d : FReg) (a : BReg), ∃ t, exec (.funpack d a) s = .next t ∧
    (∀ j : Fin 16, ((t.fe d)[j]).toNat = le256 (s.buf a) % 2 ^ 255 / 2 ^ (16 * j.val) % 2 ^ 16) ∧
    val (t.fe d) = le256 (s.buf a) % 2 ^ 255 % fieldPrime ∧ Unchanged (inFreg d) s t

/-- R147, R135, R150: `FPACK` leaves in `B[d]` the canonical encoding, below p, of the value of `F[a]` after one carry pass, for every
content of `F[a]`, which is the value of `F[a]` itself when every limb has magnitude below 2^62; only `B[d]` changes. -/
def Obligations.FpackIsTheCanonicalEncoding : Prop :=
  opcodeMeans 0x18#8 (fun w => .fpack (dField w) (aField w)) ∧
  ∀ (s : State) (d : BReg) (a : FReg), ∃ t, exec (.fpack d a) s = .next t ∧
    le256 (t.buf d) < fieldPrime ∧ le256 (t.buf d) = val (car (s.fe a)) ∧
    (limbsWithin (2 ^ 62 - 1) (s.fe a) → le256 (t.buf d) = val (s.fe a)) ∧ Unchanged (inBuf d) s t

/-- R150: "`pack(unpack(pack(f))) = pack(f)`", and `unpack(pack(unpack(x)))` has the same limbs as `unpack(x)` exactly when
`le256(x) mod 2^255 < p`. -/
def Obligations.PackUnpackCanonicalise : Prop :=
  (∀ f : FieldElem, pack (unpack (pack f)) = pack f) ∧
  (∀ x : Buffer, unpack (pack (unpack x)) = unpack x ↔ le256 x % 2 ^ 255 < fieldPrime)

/-! ## The scalar multiplier -/

/-- R172, R170, R171: `SMULT` puts in `B[d]` the encoding, below p, of the exact ladder over the integers mod p run on the clamped
scalar (bits 0 to 2 and 255 clear, bit 254 set) and on the point's u-coordinate with bit 255 masked; only `B[d]` changes
(R175). -/
def Obligations.SmultIsTheLadderModP : Prop :=
  opcodeMeans 0x20#8 (fun w => .smult (dField w) (aField w) (bField w)) ∧
  ∀ (s : State) (d a b : BReg), ∃ t, exec (.smult d a b) s = .next t ∧
    le256 (t.buf d) < fieldPrime ∧
    ((le256 (t.buf d) : Nat) : ZMod fieldPrime) =
      ringX25519 ((le256 (s.buf b) % 2 ^ 255 : Nat) : ZMod fieldPrime)
        (le256 (s.buf a) / 8 % 2 ^ 251 * 8 + 2 ^ 254) ∧
    Unchanged (inBuf d) s t

/-- R173: `SMULTB bd, ba` puts in `B[d]` the encoding, below p, of the exact ladder run on the clamped scalar and the u-coordinate 9,
and gives the state `SMULT bd, ba, bx` gives for every buffer `x` that holds `09 00 … 00`; only `B[d]` changes. -/
def Obligations.SmultbIsSmultOfTheBasePoint : Prop :=
  opcodeMeans 0x21#8 (fun w => .smultb (dField w) (aField w)) ∧
  ∀ (s : State) (d a : BReg), ∃ t, exec (.smultb d a) s = .next t ∧
    le256 (t.buf d) < fieldPrime ∧
    ((le256 (t.buf d) : Nat) : ZMod fieldPrime) = ringX25519 (9 : ZMod fieldPrime) (le256 (s.buf a) / 8 % 2 ^ 251 * 8 + 2 ^ 254) ∧
    (∀ x : BReg, le256 (s.buf x) = 9 → exec (.smult d a x) s = .next t) ∧ Unchanged (inBuf d) s t

/-- R177, clamp insensitivity and R170: scalars that agree in bits 3 to 253 give the same output, and clamping twice is clamping
once. -/
def Obligations.ClampedScalarsDecideTheOutput : Prop :=
  ∀ k k' u : Buffer, clamp (clamp k) = clamp k ∧
    (le256 k / 8 % 2 ^ 251 = le256 k' / 8 % 2 ^ 251 → x25519 k u = x25519 k' u)

/-- R176: the limb-level sequence (the field engine's own `mul`, `inv`, `pack` on lazily carried limbs) computes exactly the ladder of
R171, for every scalar and every point. -/
def Obligations.LimbLevelLadderIsExact : Prop :=
  ∀ k u : Buffer, x25519Limbs k u = x25519 k u

/-! ## The sponge -/

/-- R192: every bit column of the substitution layer goes through the 5-bit table of the spec, independently of the others. -/
def Obligations.SboxLayerIsTheTableInEveryLane : Prop :=
  ∀ (x : Sponge) (j : Fin 64),
    (fun y : Sponge => (y[0].getLsbD j).toNat * 16 + (y[1].getLsbD j).toNat * 8 + (y[2].getLsbD j).toNat * 4 +
      (y[3].getLsbD j).toNat * 2 + (y[4].getLsbD j).toNat) (sboxLayer x) =
    ([4, 11, 31, 20, 26, 21, 9, 2, 27, 5, 8, 18, 29, 3, 6, 28, 30, 19, 7, 14, 0, 13, 17, 24, 16, 12, 1, 25, 22, 10, 15,
      23] : List Nat).getD
      ((x[0].getLsbD j).toNat * 16 + (x[1].getLsbD j).toNat * 8 + (x[2].getLsbD j).toNat * 4 +
        (x[3].getLsbD j).toNat * 2 + (x[4].getLsbD j).toNat) 32

/-- R193: bit j of word w of the linear layer's result is the XOR of bits j, j + a and j + b (mod 64) of word w, with the pairs of the
spec: the rotations are to the right. -/
def Obligations.LinearLayerXorsTwoRightRotations : Prop :=
  ∀ (x : Sponge) (w : Fin 5) (j : Fin 64),
    (linearLayer x)[w].getLsbD j =
      xor (xor (x[w].getLsbD j) (x[w].getLsbD ((j.val + (#v[19, 61, 1, 10, 7] : Vector Nat 5)[w]) % 64)))
        (x[w].getLsbD ((j.val + (#v[28, 39, 6, 17, 41] : Vector Nat 5)[w]) % 64))

/-- R194: `p` is a bijection on 320-bit states for every legal round count. -/
def Obligations.PermutationIsBijective : Prop :=
  ∀ r : Nat, 1 ≤ r → r ≤ 12 → Function.Bijective (permute r)

/-- R196, R190, R191, R194: `PERM rounds`, for rounds in 1..12, runs round i = 0 .. rounds − 1 as constant addition with entry
12 − rounds + i of the spec's table, substitution layer, linear layer; only `S` changes. -/
def Obligations.PermRunsItsRounds : Prop :=
  (∀ w : Word, rsvField w = 0#8 → opcodeField w = 0x30#8 → 1 ≤ (immField w).toNat → (immField w).toNat ≤ 12 →
    decode w = .accept (.perm (immField w).toNat)) ∧
  ∀ (s : State) (rounds : Nat), 1 ≤ rounds → rounds ≤ 12 →
    ∃ (t : State) (x : Nat → Sponge), exec (.perm rounds) s = .next t ∧ x 0 = s.sponge ∧ t.sponge = x rounds ∧
      (∀ i, i < rounds → x (i + 1) = linearLayer (sboxLayer ((x i).set 2 ((x i)[2] ^^^ BitVec.ofNat 64
        (([0xF0, 0xE1, 0xD2, 0xC3, 0xB4, 0xA5, 0x96, 0x87, 0x78, 0x69, 0x5A, 0x4B, 0x3C, 0x2D, 0x1E, 0x0F] :
          List Nat).getD (12 - rounds + i) 0))))) ∧
      Unchanged inSponge s t

/-- R104: no word of `PERM` with a round count outside 1..12 is accepted; and the model's choice for such a term, which no word decodes
to, is to stop by name (log entry 7). -/
def Obligations.IllegalRoundCountNeverRuns : Prop :=
  (∀ w : Word, rsvField w = 0#8 → opcodeField w = 0x30#8 → ((immField w).toNat = 0 ∨ 13 ≤ (immField w).toNat) →
    decode w = .reject .erounds) ∧
  ∀ (s : State) (rounds : Nat), (rounds = 0 ∨ 13 ≤ rounds) → exec (.perm rounds) s = .fault .illFormedRounds

/-- R198: `INIT` permutes 12 rounds from (IV, K0, K1, N0, N1) when `load` = 1 and from `S` when it is 0, then XORs K0, K1 into words 3, 4,
and sets `PHASE` to 1; only `S` and `PHASE` change. -/
def Obligations.InitRunsInitialization : Prop :=
  opcodeMeans 0x31#8 (fun w => .init (w.getLsbD 20)) ∧
  ∀ (s : State) (load : Bool), ∃ t x, exec (.init load) s = .next t ∧
    x = permute 12 (if load then #v[s.iv, s.key[0], s.key[1], s.nonce[0], s.nonce[1]] else s.sponge) ∧
    t.sponge = #v[x[0], x[1], x[2], x[3] ^^^ s.key[0], x[4] ^^^ s.key[1]] ∧ t.peek .phase = 1#32 ∧
    Unchanged (fun l => inSponge l ∨ l = .phase) s t

/-- R199: `ADABS` XORs `DIN` into word 0, permutes 6 rounds, and sets `PHASE` to 2; only `S` and `PHASE` change. -/
def Obligations.AdabsAbsorbsDin : Prop :=
  opcodeMeans 0x32#8 (fun _ => .adabs) ∧
  ∀ s : State, ∃ t, exec .adabs s = .next t ∧
    t.sponge = permute 6 #v[s.sponge[0] ^^^ s.din, s.sponge[1], s.sponge[2], s.sponge[3], s.sponge[4]] ∧
    t.peek .phase = 2#32 ∧ Unchanged (fun l => inSponge l ∨ l = .phase) s t

/-- R200: `ADEND` flips bit 0 of word 4 and sets `PHASE` to 3; only word 4 and `PHASE` change. -/
def Obligations.AdendFlipsDomainBit : Prop :=
  opcodeMeans 0x33#8 (fun _ => .adend) ∧
  ∀ s : State, ∃ t, exec .adend s = .next t ∧
    (∀ j : Nat, t.sponge[4].getLsbD j = if j = 0 then !s.sponge[4].getLsbD 0 else s.sponge[4].getLsbD j) ∧
    t.peek .phase = 3#32 ∧ Unchanged (fun l => (∃ h, l = .sponge 4 h) ∨ l = .phase) s t

/-- R201: `CRYPT` permutes 6 rounds first exactly when `PHASE` = `STREAM`, puts `DIN ^ S[0]` in `DOUT`, and sets `PHASE` to 4; `S` is never
XORed with `DIN`; only `DOUT`, `PHASE` and, when it permutes, `S` change. -/
def Obligations.CryptEmitsOneWord : Prop :=
  opcodeMeans 0x34#8 (fun _ => .crypt) ∧
  ∀ s : State, ∃ t, exec .crypt s = .next t ∧
    t.sponge = (if s.peek .phase = 4#32 then permute 6 s.sponge else s.sponge) ∧
    t.dout = s.din ^^^ t.sponge[0] ∧ t.peek .phase = 4#32 ∧
    Unchanged (fun l => (s.peek .phase = 4#32 ∧ inSponge l) ∨ inDout l ∨ l = .phase) s t

/-- R202: `FINAL` XORs K0, K1 into words 1, 2, permutes 12 rounds, XORs K0, K1 into words 3, 4, and sets `PHASE` to 5; only `S` and `PHASE`
change. -/
def Obligations.FinalRunsFinalization : Prop :=
  opcodeMeans 0x35#8 (fun _ => .final) ∧
  ∀ s : State, ∃ t x, exec .final s = .next t ∧
    x = permute 12 #v[s.sponge[0], s.sponge[1] ^^^ s.key[0], s.sponge[2] ^^^ s.key[1], s.sponge[3], s.sponge[4]] ∧
    t.sponge = #v[x[0], x[1], x[2], x[3] ^^^ s.key[0], x[4] ^^^ s.key[1]] ∧ t.peek .phase = 5#32 ∧
    Unchanged (fun l => inSponge l ∨ l = .phase) s t

/-- R197: `KEYLD` puts in `K[w]` the little-endian reading of bytes 8w to 8w+7 of `B[a]`, the four words together the 256-bit integer of
`B[a]`; only `K` changes. -/
def Obligations.KeyldSplitsTheSecret : Prop :=
  opcodeMeans 0x36#8 (fun w => .keyld (aField w)) ∧
  ∀ (s : State) (a : BReg), ∃ t, exec (.keyld a) s = .next t ∧
    (∀ w : Fin 4, t.key[w].toNat = ∑ i : Fin 8, ((s.buf a)[8 * w.val + i.val]).toNat * 2 ^ (8 * i.val)) ∧
    t.key[0].toNat + 2 ^ 64 * t.key[1].toNat + 2 ^ 128 * t.key[2].toNat + 2 ^ 192 * t.key[3].toNat =
      le256 (s.buf a) ∧
    Unchanged inKey s t

/-- R195: no command is refused because of the phase (every well-formed command answers a next state), the phase after every command
is the one of the spec's table, no access of the host changes it but a soft reset, and a reset makes it `IDLE`. -/
def Obligations.PhaseFollowsTheTable : Prop :=
  (∀ (i : Instr) (s : State), i.wellFormed = true → ∃ t, exec i s = .next t) ∧
  (∀ (i : Instr) (s t : State), exec i s = .next t →
    t.phase = match i with
      | .init _ => .keyed
      | .adabs => .ad
      | .adend => .addone
      | .crypt => .stream
      | .final => .final
      | _ => s.phase) ∧
  (∀ (s t : State) (off : Offset) (size : Nat) (v : Word),
    (s.inputs.head? = some (.read off size) ∨ s.inputs.head? = some (.write off size v)) → step s = .next t →
    t.phase = if s.inputs.head? = some (.write 0x004#12 4 v) ∧ s.resetLine = false ∧ v.getLsbD 1 = true then .idle
      else s.phase) ∧
  (∀ s t : State, s.inputs.head? = some .resetAssert → step s = .next t → t.phase = .idle)

/-- R38: no command reads `K[2]` or `K[3]`: two states that differ only in them give, after any command, states that differ at most in
the key register. -/
def Obligations.UpperKeyWordsAreNeverRead : Prop :=
  ∀ (i : Instr) (s t : State) (k2 k3 : Word64), exec i s = .next t →
    ∃ t', exec i { s with key := #v[s.key[0], s.key[1], k2, k3] } = .next t' ∧ Unchanged inKey t t' ∧
      t'.key[0] = t.key[0] ∧ t'.key[1] = t.key[1]

/-- R205: the host sequence of R203 on the words it read from `DOUT` gives back the words `m`, from every idle state, for every key
buffer and every number of words; each of the two runs has its own poll count, which serves all its commands: so many polls
read `BUSY` = 1 before each completion. -/
def Obligations.EncryptTwiceIsIdentity : Prop :=
  ∀ (s : State) (k : BReg) (m : List Word64) (polls polls' : Nat), s.busy = false → s.resetLine = false →
    ∃ log t log' t', drive (encryptEvents polls k m) s = some (log, t) ∧
      drive (encryptEvents polls' k (words64At 0x188#12 log)) t = some (log', t') ∧
      words64At 0x188#12 log' = m

/-- R204: the host sequence `INIT load`, `ADABS` once per block, `ADEND`, `FINAL`, from any idle state and with any one poll count for all
its commands, leaves in `S` the finalisation of the blocks absorbed one by one into the initialised state, with the domain bit flipped before it; no
word of output is written. -/
def Obligations.AssociatedDataSequence : Prop :=
  ∀ (s : State) (blocks : List Word64) (polls : Nat), s.busy = false → s.resetLine = false →
    ∃ (log : List (Offset × Word)) (t : State) (x y z : Sponge), drive (authEvents polls blocks) s = some (log, t) ∧
      x = permute 12 #v[s.iv, s.key[0], s.key[1], s.nonce[0], s.nonce[1]] ∧
      y = blocks.foldl (fun u m => permute 6 (u.set 0 (u[0] ^^^ m)))
        #v[x[0], x[1], x[2], x[3] ^^^ s.key[0], x[4] ^^^ s.key[1]] ∧
      z = permute 12 #v[y[0], y[1] ^^^ s.key[0], y[2] ^^^ s.key[1], y[3], y[4] ^^^ 1#64] ∧
      t.sponge = #v[z[0], z[1], z[2], z[3] ^^^ s.key[0], z[4] ^^^ s.key[1]] ∧
      t.phase = .final ∧ t.busy = false ∧ t.dout = s.dout

/-- R70: the window is the 4096 bytes from `BASE`: each of its offsets is reached at its own bus address and no other address reaches
the core. `BASE` is an opaque constant, so the statement holds for every base. -/
def Obligations.WindowIs4096BytesAtBase : Prop :=
  (∀ off : Offset, windowOffset (Config.base + off.toNat) = some off) ∧
  ∀ addr : Nat, addr < Config.base ∨ Config.base + 4096 ≤ addr → windowOffset addr = none
end

