-- ==== Sys2Proof/Laws/Arith.lean ====
section
/-!
SUPPORT. The laws of the arithmetic helpers: limbs of sums and differences, the conditional swap, exact arithmetic mod p, byte
strings as integers, and rotation.
-/

namespace Sys2Proof.Machine

/-! ### Limbs -/

@[simp] theorem getElem_addElem (a b : FieldElem) (j : Fin 16) : (addElem a b)[j] = a[j] + b[j] := by
  simp [addElem]

@[simp] theorem getElem_subElem (a b : FieldElem) (j : Fin 16) : (subElem a b)[j] = a[j] - b[j] := by
  simp [subElem]

/-- The branchless select selects (R138). -/
theorem cswap_flagLimb (p q : FieldElem) (b : Bool) : cswap p q (flagLimb b) = if b then (q, p) else (p, q) := by
  cases b
  · have h : ~~~(flagLimb false - 1#64) = 0#64 := by decide
    simp only [cswap, h, Bool.false_eq_true, if_false]
    ext1 <;> ext j hj <;> simp
  · have h : ~~~(flagLimb true - 1#64) = BitVec.allOnes 64 := by decide
    simp only [cswap, h, if_true, BitVec.allOnes_and]
    have k : ∀ x y : Limb, x ^^^ (x ^^^ y) = y := fun x y => by rw [← BitVec.xor_assoc, BitVec.xor_self, BitVec.zero_xor]
    have k' : ∀ x y : Limb, y ^^^ (x ^^^ y) = x := fun x y => by rw [BitVec.xor_comm x y, k]
    ext1 <;> apply Vector.ext <;> intro j hj <;> simp [k, k']

/-! ### Exact arithmetic mod p -/

theorem fieldPrime_pos : 0 < fieldPrime := by decide

@[simp] theorem cast_addMod (x y : Nat) : ((addMod x y : Nat) : ZMod fieldPrime) = x + y := by
  simp [addMod]

@[simp] theorem cast_mulMod (x y : Nat) : ((mulMod x y : Nat) : ZMod fieldPrime) = x * y := by
  simp [mulMod]

@[simp] theorem cast_subMod (x y : Nat) : ((subMod x y : Nat) : ZMod fieldPrime) = x - y := by
  have h : y % fieldPrime ≤ fieldPrime := (Nat.mod_lt _ fieldPrime_pos).le
  simp only [subMod, ZMod.natCast_mod, Nat.cast_add, Nat.cast_sub h, ZMod.natCast_self]
  ring

/-- `powMod` is the power, on exponents within its bits. -/
theorem cast_powMod (x bits e : Nat) (h : e < 2 ^ bits) : ((powMod x bits e : Nat) : ZMod fieldPrime) = (x : ZMod fieldPrime) ^ e := by
  induction bits generalizing e with
  | zero =>
    have : e = 0 := by simpa using h
    simp [powMod, this]
  | succ n ih =>
    have hh := ih (e / 2) (by rw [pow_succ] at h; omega)
    have he : e = e / 2 + e / 2 + e % 2 := by omega
    unfold powMod
    by_cases h1 : e % 2 = 1
    · rw [if_pos h1, cast_mulMod, cast_mulMod, hh]
      conv_rhs => rw [he, h1, pow_succ, pow_add]
    · rw [if_neg h1, cast_mulMod, hh]
      conv_rhs => rw [he, show e % 2 = 0 by omega, add_zero, pow_add]

theorem mulMod_lt (x y : Nat) : mulMod x y < fieldPrime := Nat.mod_lt _ fieldPrime_pos

/-! ### Byte strings -/

/-- Byte `i` of a 32-byte encoding. -/
theorem getElem_encode256 (r : Nat) (i : Fin 32) : (encode256 r)[i] = BitVec.ofNat 8 (r / 2 ^ (8 * i.val)) := by
  simp [encode256]

/-- The digits of a number below 256^n, summed with their weights, are the number. -/
theorem sum_digits (r n : Nat) (h : r < 2 ^ (8 * n)) :
    ((List.range n).map fun i => r / 2 ^ (8 * i) % 256 * 2 ^ (8 * i)).sum = r := by
  induction n generalizing r with
  | zero => have : r = 0 := by simpa using h
            simp [this]
  | succ n ih =>
    rw [List.range_succ, List.map_append, List.sum_append]
    have hm := ih (r % 2 ^ (8 * n)) (Nat.mod_lt _ (by positivity))
    have : ((List.range n).map fun i => r / 2 ^ (8 * i) % 256 * 2 ^ (8 * i)) =
        (List.range n).map fun i => r % 2 ^ (8 * n) / 2 ^ (8 * i) % 256 * 2 ^ (8 * i) := by
      apply List.map_congr_left
      intro i hi
      have hi : i < n := List.mem_range.1 hi
      have e : 2 ^ (8 * n) = 2 ^ (8 * i) * (256 * 2 ^ (8 * (n - i - 1))) := by
        rw [show (256 : Nat) = 2 ^ 8 by norm_num, ← pow_add, ← pow_add]; congr 1; omega
      rw [e, Nat.mod_mul_right_div_self, Nat.mod_mul_right_mod]
    rw [this, hm]
    have hq : r / 2 ^ (8 * n) < 256 := by
      rw [Nat.div_lt_iff_lt_mul (by positivity)]
      calc r < 2 ^ (8 * (n + 1)) := h
        _ = 256 * 2 ^ (8 * n) := by rw [show 8 * (n + 1) = 8 + 8 * n by ring, pow_add]; norm_num
    simp only [List.map_cons, List.map_nil, List.sum_cons, List.sum_nil, Nat.add_zero, Nat.mod_eq_of_lt hq]
    exact Nat.mod_add_div' r _

/-- The integer of an encoding is the number encoded (R15, R77). -/
theorem le256_encode256 (r : Nat) (h : r < 2 ^ 256) : le256 (encode256 r) = r := by
  have hd : ∀ i : Fin 32, (encode256 r)[i].toNat * 2 ^ (8 * i.val) = r / 2 ^ (8 * i.val) % 256 * 2 ^ (8 * i.val) := by
    intro i
    rw [getElem_encode256, BitVec.toNat_ofNat]
  have hr : (List.finRange 32).map (fun i => r / 2 ^ (8 * i.val) % 256 * 2 ^ (8 * i.val)) =
      (List.range 32).map fun i => r / 2 ^ (8 * i) % 256 * 2 ^ (8 * i) := by
    rw [← List.map_coe_finRange_eq_range, List.map_map]
    rfl
  rw [le256, List.map_congr_left (fun i _ => hd i), hr]
  exact sum_digits r 32 h

/-! ### Rotation -/

/-- Bit `j` of a right rotation by `n` is bit `j + n` mod 64 (R11). -/
theorem getLsbD_rotr64 (x : Word64) (n j : Nat) (hn : 0 < n) (hn' : n < 64) (hj : j < 64) :
    (rotr64 x n).getLsbD j = x.getLsbD ((j + n) % 64) := by
  simp only [rotr64, BitVec.getLsbD_or, BitVec.getLsbD_ushiftRight, BitVec.getLsbD_shiftLeft, hj, decide_true, Bool.true_and]
  by_cases h : j + n < 64
  · rw [Nat.mod_eq_of_lt h, show j < 64 - n by omega |> decide_eq_true]
    simp [Nat.add_comm]
  · have : (j + n) % 64 = j - (64 - n) := by omega
    rw [this, BitVec.getLsbD_of_ge _ _ (by omega)]
    simp; omega

/-- The rounds run in order: `n + 1` rounds are `n` rounds and then round `n` (R194). -/
theorem foldl_permRound_succ (rounds n : Nat) (x : Sponge) :
    (List.range (n + 1)).foldl (permRound rounds) x = permRound rounds ((List.range n).foldl (permRound rounds) x) n := by
  simp [List.range_succ]

end Sys2Proof.Machine
end

