-- ==== Sys2Proof/Laws/Bits.lean ====
section
/-!
SUPPORT. The laws of the bit-field and byte-order helpers: what is read back from a written half or word, and the integers that
byte strings stand for.
-/

namespace Sys2Proof.Machine

/-- A bit of `{hi, lo}`. -/
theorem getLsbD_joinHalves (h l : Word) (i : Nat) :
    (joinHalves h l).getLsbD i = if i < 32 then l.getLsbD i else h.getLsbD (i - 32) := by
  simp only [joinHalves, BitVec.getLsbD_cast, BitVec.getLsbD_append]

@[simp] theorem getHalf_joinHalves_lo (h l : Word) : getHalf (joinHalves h l) .lo = l := by
  apply BitVec.eq_of_getLsbD_eq
  intro i hi
  simp [getHalf, getLsbD_joinHalves, hi]

@[simp] theorem getHalf_joinHalves_hi (h l : Word) : getHalf (joinHalves h l) .hi = h := by
  apply BitVec.eq_of_getLsbD_eq
  intro i hi
  simp [getHalf, getLsbD_joinHalves, hi]

/-- Two 64-bit registers with the same halves are equal. -/
theorem eq_of_getHalf (x y : Word64) (h : ∀ k, getHalf x k = getHalf y k) : x = y := by
  have hl := h .lo
  have hh := h .hi
  apply BitVec.eq_of_getLsbD_eq
  intro i hi
  by_cases h32 : i < 32
  · have := congrArg (fun w => w.getLsbD i) hl
    simpa [getHalf, h32] using this
  · have := congrArg (fun w => w.getLsbD (i - 32)) hh
    simp only [getHalf, BitVec.getLsbD_extractLsb'] at this
    have e : 32 + (i - 32) = i := by omega
    have l : i - 32 < 32 := by omega
    simpa [e, l] using this

/-- The value `{hi, lo}` of a register's own halves is the register. -/
@[simp] theorem joinHalves_getHalf (x : Word64) : joinHalves (getHalf x .hi) (getHalf x .lo) = x := by
  apply eq_of_getHalf
  intro k
  cases k <;> simp

/-- A half of a register after a write to a half. -/
theorem getHalf_setHalf (r : Word64) (h h' : Half) (v : Word) :
    getHalf (setHalf r h v) h' = if h = h' then v else getHalf r h' := by
  cases h <;> cases h' <;> simp [setHalf]

theorem setHalf_hi_setHalf_lo (x y : Word64) : setHalf (setHalf x .lo (getHalf y .lo)) .hi (getHalf y .hi) = y := by
  simp [setHalf]

/-- Byte `n` of word `w` of a buffer. -/
theorem bufWord_byte (x : Buffer) (w : Fin 8) (n : Fin 4) :
    (bufWord x w).extractLsb' (8 * n.val) 8 = x[4 * w.val + n.val] := by
  fin_cases n <;> apply BitVec.eq_of_getLsbD_eq <;> intro i hi <;>
    simp only [bufWord, BitVec.getLsbD_extractLsb', BitVec.getLsbD_cast, BitVec.getLsbD_append] <;>
    simp [hi, show 16 + i - 8 = 8 + i by omega, show 24 + i - 8 = 16 + i by omega, show ¬(16 + i < 8) by omega,
      show ¬(24 + i < 8) by omega]

/-- A word is determined by its four bytes. -/
theorem word_eq_of_bytes (x y : Word) (h : ∀ n : Fin 4, x.extractLsb' (8 * n.val) 8 = y.extractLsb' (8 * n.val) 8) :
    x = y := by
  apply BitVec.eq_of_getLsbD_eq
  intro i hi
  have hn := congrArg (fun b => b.getLsbD (i % 8)) (h ⟨i / 8, by omega⟩)
  have e : 8 * (i / 8) + i % 8 = i := by omega
  simpa [e, show i % 8 < 8 by omega] using hn

/-- A byte of a buffer after a write of one of its words. -/
theorem setBufWord_byte (x : Buffer) (w : Fin 8) (v : Word) (i : Fin 32) :
    (setBufWord x w v)[i] = if i.val / 4 = w.val then v.extractLsb' (8 * (i.val % 4)) 8 else x[i] := by
  have hm : i.val % 4 = 0 ∨ i.val % 4 = 1 ∨ i.val % 4 = 2 ∨ i.val % 4 = 3 := by omega
  by_cases hw : i.val / 4 = w.val
  · simp only [setBufWord, Fin.getElem_fin, Vector.getElem_set]
    rcases hm with h | h | h | h <;>
      simp only [h, hw, if_true] <;> (repeat' split) <;> first | rfl | (exfalso; omega)
  · simp only [setBufWord, Fin.getElem_fin, Vector.getElem_set, hw, if_false]
    (repeat' split) <;> first | rfl | (exfalso; omega)

/-- A word of a buffer after a write of one of its words. -/
theorem bufWord_setBufWord (x : Buffer) (w w' : Fin 8) (v : Word) :
    bufWord (setBufWord x w v) w' = if w = w' then v else bufWord x w' := by
  apply word_eq_of_bytes
  intro n
  rw [bufWord_byte]
  have hb := setBufWord_byte x w v ⟨4 * w'.val + n.val, by omega⟩
  simp only [Fin.getElem_fin] at hb
  rw [hb, show (4 * w'.val + n.val) / 4 = w'.val by omega, show (4 * w'.val + n.val) % 4 = n.val by omega]
  by_cases h : w = w'
  · simp [h]
  · have : ¬ w'.val = w.val := fun e => h (Fin.ext e.symm)
    simp only [this, h, if_false]
    exact (bufWord_byte x w' n).symm

/-- Two buffers with the same words are equal. -/
theorem eq_of_bufWord (x y : Buffer) (h : ∀ w, bufWord x w = bufWord y w) : x = y := by
  apply Vector.ext
  intro i hi
  have hb := bufWord_byte x ⟨i / 4, by omega⟩ ⟨i % 4, by omega⟩
  have hc := bufWord_byte y ⟨i / 4, by omega⟩ ⟨i % 4, by omega⟩
  rw [h] at hb
  have e := hb.symm.trans hc
  simpa [show 4 * (i / 4) + i % 4 = i by omega] using e

end Sys2Proof.Machine
end

