-- ==== Sys2Proof/Laws/Decode.lean ====
section
/-!
SUPPORT. The decoder and the encoder field by field: what each field of an assembled word is, and what acceptance says.
-/

namespace Sys2Proof

section Fields
variable (imm b a d : BitVec 4) (op : BitVec 8)

/-- A bit of an assembled word (R106). -/
theorem getLsbD_assemble (i : Nat) :
    (assemble imm b a d op).getLsbD i =
      if i < 8 then op.getLsbD i else if i < 12 then d.getLsbD (i - 8) else if i < 16 then a.getLsbD (i - 12)
      else if i < 20 then b.getLsbD (i - 16) else if i < 24 then imm.getLsbD (i - 20) else false := by
  simp only [assemble, BitVec.getLsbD_cast, BitVec.getLsbD_append]
  simp only [BitVec.getLsbD_zero, show i - 8 - 4 = i - 12 by omega, show i - 12 - 4 = i - 16 by omega,
    show i - 16 - 4 = i - 20 by omega]
  by_cases h : i < 8
  · simp [h]
  · simp only [h, if_false, show i - 8 < 4 ↔ i < 12 by omega]
    by_cases h2 : i < 12
    · simp [h2]
    · simp only [h2, if_false, show i - 12 < 4 ↔ i < 16 by omega]
      by_cases h3 : i < 16
      · simp [h3]
      · simp only [h3, if_false, show i - 16 < 4 ↔ i < 20 by omega]
        by_cases h4 : i < 20
        · simp [h4]
        · simp only [h4, if_false, show i - 20 < 4 ↔ i < 24 by omega]

@[simp] theorem opcodeField_assemble : opcodeField (assemble imm b a d op) = op := by
  apply BitVec.eq_of_getLsbD_eq
  intro i hi
  simp [opcodeField, getLsbD_assemble, hi]

@[simp] theorem rsvField_assemble : rsvField (assemble imm b a d op) = 0#8 := by
  apply BitVec.eq_of_getLsbD_eq
  intro i hi
  simp [rsvField, getLsbD_assemble, show ¬(24 + i < 8) by omega, show ¬(24 + i < 12) by omega, show ¬(24 + i < 16) by omega,
    show ¬(24 + i < 20) by omega]

theorem extract_d_assemble : (assemble imm b a d op).extractLsb' 8 4 = d := by
  apply BitVec.eq_of_getLsbD_eq
  intro i hi
  simp [getLsbD_assemble, hi, show 8 + i < 12 by omega]

theorem extract_a_assemble : (assemble imm b a d op).extractLsb' 12 4 = a := by
  apply BitVec.eq_of_getLsbD_eq
  intro i hi
  simp [getLsbD_assemble, hi, show ¬(12 + i < 8) by omega, show 12 + i < 16 by omega]

theorem extract_b_assemble : (assemble imm b a d op).extractLsb' 16 4 = b := by
  apply BitVec.eq_of_getLsbD_eq
  intro i hi
  simp [getLsbD_assemble, hi, show ¬(16 + i < 8) by omega, show ¬(16 + i < 12) by omega, show 16 + i < 20 by omega]

@[simp] theorem immField_assemble : immField (assemble imm b a d op) = imm := by
  apply BitVec.eq_of_getLsbD_eq
  intro i hi
  simp [immField, getLsbD_assemble, hi, show ¬(20 + i < 8) by omega, show ¬(20 + i < 12) by omega, show ¬(20 + i < 16) by omega,
    show 20 + i < 24 by omega]

@[simp] theorem dField_assemble : dField (assemble imm b a d op) = d.toFin := by
  rw [dField, extract_d_assemble]

@[simp] theorem aField_assemble : aField (assemble imm b a d op) = a.toFin := by
  rw [aField, extract_a_assemble]

@[simp] theorem bField_assemble : bField (assemble imm b a d op) = b.toFin := by
  rw [bField, extract_b_assemble]

end Fields

@[simp] theorem toFin_indexBits (r : Fin 16) : (indexBits r).toFin = r := rfl

@[simp] theorem getElem_flagBits_zero (x : Bool) : (flagBits x)[0] = x := by
  cases x <;> rfl

/-- A word whose `rsv` is 0 is the word assembled from its own fields (R101, R106). -/
theorem assemble_fields (w : Word) (h : rsvField w = 0#8) :
    assemble (immField w) (w.extractLsb' 16 4) (w.extractLsb' 12 4) (w.extractLsb' 8 4) (opcodeField w) = w := by
  apply BitVec.eq_of_getLsbD_eq
  intro i hi
  simp only [getLsbD_assemble, immField, opcodeField, BitVec.getLsbD_extractLsb']
  by_cases h1 : i < 8
  · simp [h1]
  by_cases h2 : i < 12
  · simp [h1, h2, show i - 8 < 4 by omega, show 8 + (i - 8) = i by omega]
  by_cases h3 : i < 16
  · simp [h1, h2, h3, show i - 12 < 4 by omega, show 12 + (i - 12) = i by omega]
  by_cases h4 : i < 20
  · simp [h1, h2, h3, h4, show i - 16 < 4 by omega, show 16 + (i - 16) = i by omega]
  by_cases h5 : i < 24
  · simp [h1, h2, h3, h4, h5, show i - 20 < 4 by omega, show 20 + (i - 20) = i by omega]
  · have hb := congrArg (fun b => b.getLsbD (i - 24)) h
    simp only [rsvField, BitVec.getLsbD_extractLsb', show i - 24 < 8 by omega, show 24 + (i - 24) = i by omega] at hb
    simpa [h1, h2, h3, h4, h5] using hb.symm

/-- Masking an assembled word field by field. -/
theorem assemble_and (imm b a d mi mb ma md : BitVec 4) (op mo : BitVec 8) :
    assemble imm b a d op &&& (assemble mi mb ma md mo ||| 0xFF000000#32) =
      assemble (imm &&& mi) (b &&& mb) (a &&& ma) (d &&& md) (op &&& mo) := by
  apply BitVec.eq_of_getLsbD_eq
  intro i hi
  simp only [BitVec.getLsbD_and, BitVec.getLsbD_or, getLsbD_assemble]
  by_cases h5 : i < 24
  · have hm : (0xFF000000#32).getLsbD i = false := by
      have : ∀ k : Fin 24, (0xFF000000#32).getLsbD k.val = false := by decide
      exact this ⟨i, h5⟩
    rw [hm]
    repeat' split
    all_goals simp
  · simp [h5, show ¬ i < 8 by omega, show ¬ i < 12 by omega, show ¬ i < 16 by omega, show ¬ i < 20 by omega]

/-- A word whose `rsv` is 0 is decoded by its opcode (R107). -/
theorem decode_of_rsv (w : Word) (h : rsvField w = 0#8) : decode w = decodeOpcode w := by
  simp [decode, h]

/-- An accepted word has `rsv` = 0 (R107). -/
theorem rsv_of_accept (w : Word) (i : Instr) (h : decode w = .accept i) : rsvField w = 0#8 := by
  by_contra hr
  simp [decode, hr] at h

/-- The decoder answers well-formed commands only (R104). -/
theorem wellFormed_of_accept (w : Word) (i : Instr) (h : decode w = .accept i) : i.wellFormed = true := by
  rw [decode_of_rsv w (rsv_of_accept w i h)] at h
  unfold decodeOpcode at h
  split at h
  case h_13 => split at h <;> cases h; assumption
  all_goals cases h <;> rfl

end Sys2Proof
end

