-- ==== Sys2Proof/Laws/State.lean ====
section
/-!
SUPPORT. One lemma per field per update of the state, and the fields of the conditional updates, so that no proof unfolds a
record update.
-/

namespace Sys2Proof.Machine

/-! ### `setFe` -/

@[simp] theorem setFe_fregs (s : State) (k : FReg) (v : FieldElem) : (s.setFe k v).fregs = s.fregs.set k.val v := rfl
@[simp] theorem setFe_bufs (s : State) (k : FReg) (v : FieldElem) : (s.setFe k v).bufs = s.bufs := rfl
@[simp] theorem setFe_sponge (s : State) (k : FReg) (v : FieldElem) : (s.setFe k v).sponge = s.sponge := rfl
@[simp] theorem setFe_key (s : State) (k : FReg) (v : FieldElem) : (s.setFe k v).key = s.key := rfl
@[simp] theorem setFe_iv (s : State) (k : FReg) (v : FieldElem) : (s.setFe k v).iv = s.iv := rfl
@[simp] theorem setFe_nonce (s : State) (k : FReg) (v : FieldElem) : (s.setFe k v).nonce = s.nonce := rfl
@[simp] theorem setFe_din (s : State) (k : FReg) (v : FieldElem) : (s.setFe k v).din = s.din := rfl
@[simp] theorem setFe_dout (s : State) (k : FReg) (v : FieldElem) : (s.setFe k v).dout = s.dout := rfl
@[simp] theorem setFe_phase (s : State) (k : FReg) (v : FieldElem) : (s.setFe k v).phase = s.phase := rfl
@[simp] theorem setFe_ie (s : State) (k : FReg) (v : FieldElem) : (s.setFe k v).ie = s.ie := rfl
@[simp] theorem setFe_busy (s : State) (k : FReg) (v : FieldElem) : (s.setFe k v).busy = s.busy := rfl
@[simp] theorem setFe_done (s : State) (k : FReg) (v : FieldElem) : (s.setFe k v).done = s.done := rfl
@[simp] theorem setFe_err (s : State) (k : FReg) (v : FieldElem) : (s.setFe k v).err = s.err := rfl
@[simp] theorem setFe_ecode (s : State) (k : FReg) (v : FieldElem) : (s.setFe k v).ecode = s.ecode := rfl
@[simp] theorem setFe_lastCmd (s : State) (k : FReg) (v : FieldElem) : (s.setFe k v).lastCmd = s.lastCmd := rfl
@[simp] theorem setFe_errInfo (s : State) (k : FReg) (v : FieldElem) : (s.setFe k v).errInfo = s.errInfo := rfl
@[simp] theorem setFe_pending (s : State) (k : FReg) (v : FieldElem) : (s.setFe k v).pending = s.pending := rfl
@[simp] theorem setFe_resetLine (s : State) (k : FReg) (v : FieldElem) : (s.setFe k v).resetLine = s.resetLine := rfl
@[simp] theorem setFe_inputs (s : State) (k : FReg) (v : FieldElem) : (s.setFe k v).inputs = s.inputs := rfl
@[simp] theorem setFe_draws (s : State) (k : FReg) (v : FieldElem) : (s.setFe k v).draws = s.draws := rfl
@[simp] theorem setFe_response (s : State) (k : FReg) (v : FieldElem) : (s.setFe k v).response = s.response := rfl

/-! ### `setBuf` -/

@[simp] theorem setBuf_fregs (s : State) (k : BReg) (v : Buffer) : (s.setBuf k v).fregs = s.fregs := rfl
@[simp] theorem setBuf_bufs (s : State) (k : BReg) (v : Buffer) : (s.setBuf k v).bufs = s.bufs.set k.val v := rfl
@[simp] theorem setBuf_sponge (s : State) (k : BReg) (v : Buffer) : (s.setBuf k v).sponge = s.sponge := rfl
@[simp] theorem setBuf_key (s : State) (k : BReg) (v : Buffer) : (s.setBuf k v).key = s.key := rfl
@[simp] theorem setBuf_iv (s : State) (k : BReg) (v : Buffer) : (s.setBuf k v).iv = s.iv := rfl
@[simp] theorem setBuf_nonce (s : State) (k : BReg) (v : Buffer) : (s.setBuf k v).nonce = s.nonce := rfl
@[simp] theorem setBuf_din (s : State) (k : BReg) (v : Buffer) : (s.setBuf k v).din = s.din := rfl
@[simp] theorem setBuf_dout (s : State) (k : BReg) (v : Buffer) : (s.setBuf k v).dout = s.dout := rfl
@[simp] theorem setBuf_phase (s : State) (k : BReg) (v : Buffer) : (s.setBuf k v).phase = s.phase := rfl
@[simp] theorem setBuf_ie (s : State) (k : BReg) (v : Buffer) : (s.setBuf k v).ie = s.ie := rfl
@[simp] theorem setBuf_busy (s : State) (k : BReg) (v : Buffer) : (s.setBuf k v).busy = s.busy := rfl
@[simp] theorem setBuf_done (s : State) (k : BReg) (v : Buffer) : (s.setBuf k v).done = s.done := rfl
@[simp] theorem setBuf_err (s : State) (k : BReg) (v : Buffer) : (s.setBuf k v).err = s.err := rfl
@[simp] theorem setBuf_ecode (s : State) (k : BReg) (v : Buffer) : (s.setBuf k v).ecode = s.ecode := rfl
@[simp] theorem setBuf_lastCmd (s : State) (k : BReg) (v : Buffer) : (s.setBuf k v).lastCmd = s.lastCmd := rfl
@[simp] theorem setBuf_errInfo (s : State) (k : BReg) (v : Buffer) : (s.setBuf k v).errInfo = s.errInfo := rfl
@[simp] theorem setBuf_pending (s : State) (k : BReg) (v : Buffer) : (s.setBuf k v).pending = s.pending := rfl
@[simp] theorem setBuf_resetLine (s : State) (k : BReg) (v : Buffer) : (s.setBuf k v).resetLine = s.resetLine := rfl
@[simp] theorem setBuf_inputs (s : State) (k : BReg) (v : Buffer) : (s.setBuf k v).inputs = s.inputs := rfl
@[simp] theorem setBuf_draws (s : State) (k : BReg) (v : Buffer) : (s.setBuf k v).draws = s.draws := rfl
@[simp] theorem setBuf_response (s : State) (k : BReg) (v : Buffer) : (s.setBuf k v).response = s.response := rfl

/-! ### `setSponge` -/

@[simp] theorem setSponge_fregs (s : State) (x : Sponge) : (s.setSponge x).fregs = s.fregs := rfl
@[simp] theorem setSponge_bufs (s : State) (x : Sponge) : (s.setSponge x).bufs = s.bufs := rfl
@[simp] theorem setSponge_sponge (s : State) (x : Sponge) : (s.setSponge x).sponge = x := rfl
@[simp] theorem setSponge_key (s : State) (x : Sponge) : (s.setSponge x).key = s.key := rfl
@[simp] theorem setSponge_iv (s : State) (x : Sponge) : (s.setSponge x).iv = s.iv := rfl
@[simp] theorem setSponge_nonce (s : State) (x : Sponge) : (s.setSponge x).nonce = s.nonce := rfl
@[simp] theorem setSponge_din (s : State) (x : Sponge) : (s.setSponge x).din = s.din := rfl
@[simp] theorem setSponge_dout (s : State) (x : Sponge) : (s.setSponge x).dout = s.dout := rfl
@[simp] theorem setSponge_phase (s : State) (x : Sponge) : (s.setSponge x).phase = s.phase := rfl
@[simp] theorem setSponge_ie (s : State) (x : Sponge) : (s.setSponge x).ie = s.ie := rfl
@[simp] theorem setSponge_busy (s : State) (x : Sponge) : (s.setSponge x).busy = s.busy := rfl
@[simp] theorem setSponge_done (s : State) (x : Sponge) : (s.setSponge x).done = s.done := rfl
@[simp] theorem setSponge_err (s : State) (x : Sponge) : (s.setSponge x).err = s.err := rfl
@[simp] theorem setSponge_ecode (s : State) (x : Sponge) : (s.setSponge x).ecode = s.ecode := rfl
@[simp] theorem setSponge_lastCmd (s : State) (x : Sponge) : (s.setSponge x).lastCmd = s.lastCmd := rfl
@[simp] theorem setSponge_errInfo (s : State) (x : Sponge) : (s.setSponge x).errInfo = s.errInfo := rfl
@[simp] theorem setSponge_pending (s : State) (x : Sponge) : (s.setSponge x).pending = s.pending := rfl
@[simp] theorem setSponge_resetLine (s : State) (x : Sponge) : (s.setSponge x).resetLine = s.resetLine := rfl
@[simp] theorem setSponge_inputs (s : State) (x : Sponge) : (s.setSponge x).inputs = s.inputs := rfl
@[simp] theorem setSponge_draws (s : State) (x : Sponge) : (s.setSponge x).draws = s.draws := rfl
@[simp] theorem setSponge_response (s : State) (x : Sponge) : (s.setSponge x).response = s.response := rfl

/-! ### `setKey` -/

@[simp] theorem setKey_fregs (s : State) (k : Vector Word64 4) : (s.setKey k).fregs = s.fregs := rfl
@[simp] theorem setKey_bufs (s : State) (k : Vector Word64 4) : (s.setKey k).bufs = s.bufs := rfl
@[simp] theorem setKey_sponge (s : State) (k : Vector Word64 4) : (s.setKey k).sponge = s.sponge := rfl
@[simp] theorem setKey_key (s : State) (k : Vector Word64 4) : (s.setKey k).key = k := rfl
@[simp] theorem setKey_iv (s : State) (k : Vector Word64 4) : (s.setKey k).iv = s.iv := rfl
@[simp] theorem setKey_nonce (s : State) (k : Vector Word64 4) : (s.setKey k).nonce = s.nonce := rfl
@[simp] theorem setKey_din (s : State) (k : Vector Word64 4) : (s.setKey k).din = s.din := rfl
@[simp] theorem setKey_dout (s : State) (k : Vector Word64 4) : (s.setKey k).dout = s.dout := rfl
@[simp] theorem setKey_phase (s : State) (k : Vector Word64 4) : (s.setKey k).phase = s.phase := rfl
@[simp] theorem setKey_ie (s : State) (k : Vector Word64 4) : (s.setKey k).ie = s.ie := rfl
@[simp] theorem setKey_busy (s : State) (k : Vector Word64 4) : (s.setKey k).busy = s.busy := rfl
@[simp] theorem setKey_done (s : State) (k : Vector Word64 4) : (s.setKey k).done = s.done := rfl
@[simp] theorem setKey_err (s : State) (k : Vector Word64 4) : (s.setKey k).err = s.err := rfl
@[simp] theorem setKey_ecode (s : State) (k : Vector Word64 4) : (s.setKey k).ecode = s.ecode := rfl
@[simp] theorem setKey_lastCmd (s : State) (k : Vector Word64 4) : (s.setKey k).lastCmd = s.lastCmd := rfl
@[simp] theorem setKey_errInfo (s : State) (k : Vector Word64 4) : (s.setKey k).errInfo = s.errInfo := rfl
@[simp] theorem setKey_pending (s : State) (k : Vector Word64 4) : (s.setKey k).pending = s.pending := rfl
@[simp] theorem setKey_resetLine (s : State) (k : Vector Word64 4) : (s.setKey k).resetLine = s.resetLine := rfl
@[simp] theorem setKey_inputs (s : State) (k : Vector Word64 4) : (s.setKey k).inputs = s.inputs := rfl
@[simp] theorem setKey_draws (s : State) (k : Vector Word64 4) : (s.setKey k).draws = s.draws := rfl
@[simp] theorem setKey_response (s : State) (k : Vector Word64 4) : (s.setKey k).response = s.response := rfl

/-! ### `setDout` -/

@[simp] theorem setDout_fregs (s : State) (v : Word64) : (s.setDout v).fregs = s.fregs := rfl
@[simp] theorem setDout_bufs (s : State) (v : Word64) : (s.setDout v).bufs = s.bufs := rfl
@[simp] theorem setDout_sponge (s : State) (v : Word64) : (s.setDout v).sponge = s.sponge := rfl
@[simp] theorem setDout_key (s : State) (v : Word64) : (s.setDout v).key = s.key := rfl
@[simp] theorem setDout_iv (s : State) (v : Word64) : (s.setDout v).iv = s.iv := rfl
@[simp] theorem setDout_nonce (s : State) (v : Word64) : (s.setDout v).nonce = s.nonce := rfl
@[simp] theorem setDout_din (s : State) (v : Word64) : (s.setDout v).din = s.din := rfl
@[simp] theorem setDout_dout (s : State) (v : Word64) : (s.setDout v).dout = v := rfl
@[simp] theorem setDout_phase (s : State) (v : Word64) : (s.setDout v).phase = s.phase := rfl
@[simp] theorem setDout_ie (s : State) (v : Word64) : (s.setDout v).ie = s.ie := rfl
@[simp] theorem setDout_busy (s : State) (v : Word64) : (s.setDout v).busy = s.busy := rfl
@[simp] theorem setDout_done (s : State) (v : Word64) : (s.setDout v).done = s.done := rfl
@[simp] theorem setDout_err (s : State) (v : Word64) : (s.setDout v).err = s.err := rfl
@[simp] theorem setDout_ecode (s : State) (v : Word64) : (s.setDout v).ecode = s.ecode := rfl
@[simp] theorem setDout_lastCmd (s : State) (v : Word64) : (s.setDout v).lastCmd = s.lastCmd := rfl
@[simp] theorem setDout_errInfo (s : State) (v : Word64) : (s.setDout v).errInfo = s.errInfo := rfl
@[simp] theorem setDout_pending (s : State) (v : Word64) : (s.setDout v).pending = s.pending := rfl
@[simp] theorem setDout_resetLine (s : State) (v : Word64) : (s.setDout v).resetLine = s.resetLine := rfl
@[simp] theorem setDout_inputs (s : State) (v : Word64) : (s.setDout v).inputs = s.inputs := rfl
@[simp] theorem setDout_draws (s : State) (v : Word64) : (s.setDout v).draws = s.draws := rfl
@[simp] theorem setDout_response (s : State) (v : Word64) : (s.setDout v).response = s.response := rfl

/-! ### `setPhase` -/

@[simp] theorem setPhase_fregs (s : State) (ph : Phase) : (s.setPhase ph).fregs = s.fregs := rfl
@[simp] theorem setPhase_bufs (s : State) (ph : Phase) : (s.setPhase ph).bufs = s.bufs := rfl
@[simp] theorem setPhase_sponge (s : State) (ph : Phase) : (s.setPhase ph).sponge = s.sponge := rfl
@[simp] theorem setPhase_key (s : State) (ph : Phase) : (s.setPhase ph).key = s.key := rfl
@[simp] theorem setPhase_iv (s : State) (ph : Phase) : (s.setPhase ph).iv = s.iv := rfl
@[simp] theorem setPhase_nonce (s : State) (ph : Phase) : (s.setPhase ph).nonce = s.nonce := rfl
@[simp] theorem setPhase_din (s : State) (ph : Phase) : (s.setPhase ph).din = s.din := rfl
@[simp] theorem setPhase_dout (s : State) (ph : Phase) : (s.setPhase ph).dout = s.dout := rfl
@[simp] theorem setPhase_phase (s : State) (ph : Phase) : (s.setPhase ph).phase = ph := rfl
@[simp] theorem setPhase_ie (s : State) (ph : Phase) : (s.setPhase ph).ie = s.ie := rfl
@[simp] theorem setPhase_busy (s : State) (ph : Phase) : (s.setPhase ph).busy = s.busy := rfl
@[simp] theorem setPhase_done (s : State) (ph : Phase) : (s.setPhase ph).done = s.done := rfl
@[simp] theorem setPhase_err (s : State) (ph : Phase) : (s.setPhase ph).err = s.err := rfl
@[simp] theorem setPhase_ecode (s : State) (ph : Phase) : (s.setPhase ph).ecode = s.ecode := rfl
@[simp] theorem setPhase_lastCmd (s : State) (ph : Phase) : (s.setPhase ph).lastCmd = s.lastCmd := rfl
@[simp] theorem setPhase_errInfo (s : State) (ph : Phase) : (s.setPhase ph).errInfo = s.errInfo := rfl
@[simp] theorem setPhase_pending (s : State) (ph : Phase) : (s.setPhase ph).pending = s.pending := rfl
@[simp] theorem setPhase_resetLine (s : State) (ph : Phase) : (s.setPhase ph).resetLine = s.resetLine := rfl
@[simp] theorem setPhase_inputs (s : State) (ph : Phase) : (s.setPhase ph).inputs = s.inputs := rfl
@[simp] theorem setPhase_draws (s : State) (ph : Phase) : (s.setPhase ph).draws = s.draws := rfl
@[simp] theorem setPhase_response (s : State) (ph : Phase) : (s.setPhase ph).response = s.response := rfl

/-! ### `respond` -/

@[simp] theorem respond_fregs (s : State) (r : Response) : (respond s r).fregs = s.fregs := rfl
@[simp] theorem respond_bufs (s : State) (r : Response) : (respond s r).bufs = s.bufs := rfl
@[simp] theorem respond_sponge (s : State) (r : Response) : (respond s r).sponge = s.sponge := rfl
@[simp] theorem respond_key (s : State) (r : Response) : (respond s r).key = s.key := rfl
@[simp] theorem respond_iv (s : State) (r : Response) : (respond s r).iv = s.iv := rfl
@[simp] theorem respond_nonce (s : State) (r : Response) : (respond s r).nonce = s.nonce := rfl
@[simp] theorem respond_din (s : State) (r : Response) : (respond s r).din = s.din := rfl
@[simp] theorem respond_dout (s : State) (r : Response) : (respond s r).dout = s.dout := rfl
@[simp] theorem respond_phase (s : State) (r : Response) : (respond s r).phase = s.phase := rfl
@[simp] theorem respond_ie (s : State) (r : Response) : (respond s r).ie = s.ie := rfl
@[simp] theorem respond_busy (s : State) (r : Response) : (respond s r).busy = s.busy := rfl
@[simp] theorem respond_done (s : State) (r : Response) : (respond s r).done = s.done := rfl
@[simp] theorem respond_err (s : State) (r : Response) : (respond s r).err = s.err := rfl
@[simp] theorem respond_ecode (s : State) (r : Response) : (respond s r).ecode = s.ecode := rfl
@[simp] theorem respond_lastCmd (s : State) (r : Response) : (respond s r).lastCmd = s.lastCmd := rfl
@[simp] theorem respond_errInfo (s : State) (r : Response) : (respond s r).errInfo = s.errInfo := rfl
@[simp] theorem respond_pending (s : State) (r : Response) : (respond s r).pending = s.pending := rfl
@[simp] theorem respond_resetLine (s : State) (r : Response) : (respond s r).resetLine = s.resetLine := rfl
@[simp] theorem respond_inputs (s : State) (r : Response) : (respond s r).inputs = s.inputs := rfl
@[simp] theorem respond_draws (s : State) (r : Response) : (respond s r).draws = s.draws := rfl
@[simp] theorem respond_response (s : State) (r : Response) : (respond s r).response = r := rfl

/-! ### `freeRead` -/

@[simp] theorem freeRead_fregs (s : State) : (freeRead s).fregs = s.fregs := rfl
@[simp] theorem freeRead_bufs (s : State) : (freeRead s).bufs = s.bufs := rfl
@[simp] theorem freeRead_sponge (s : State) : (freeRead s).sponge = s.sponge := rfl
@[simp] theorem freeRead_key (s : State) : (freeRead s).key = s.key := rfl
@[simp] theorem freeRead_iv (s : State) : (freeRead s).iv = s.iv := rfl
@[simp] theorem freeRead_nonce (s : State) : (freeRead s).nonce = s.nonce := rfl
@[simp] theorem freeRead_din (s : State) : (freeRead s).din = s.din := rfl
@[simp] theorem freeRead_dout (s : State) : (freeRead s).dout = s.dout := rfl
@[simp] theorem freeRead_phase (s : State) : (freeRead s).phase = s.phase := rfl
@[simp] theorem freeRead_ie (s : State) : (freeRead s).ie = s.ie := rfl
@[simp] theorem freeRead_busy (s : State) : (freeRead s).busy = s.busy := rfl
@[simp] theorem freeRead_done (s : State) : (freeRead s).done = s.done := rfl
@[simp] theorem freeRead_err (s : State) : (freeRead s).err = s.err := rfl
@[simp] theorem freeRead_ecode (s : State) : (freeRead s).ecode = s.ecode := rfl
@[simp] theorem freeRead_lastCmd (s : State) : (freeRead s).lastCmd = s.lastCmd := rfl
@[simp] theorem freeRead_errInfo (s : State) : (freeRead s).errInfo = s.errInfo := rfl
@[simp] theorem freeRead_pending (s : State) : (freeRead s).pending = s.pending := rfl
@[simp] theorem freeRead_resetLine (s : State) : (freeRead s).resetLine = s.resetLine := rfl
@[simp] theorem freeRead_inputs (s : State) : (freeRead s).inputs = s.inputs := rfl
@[simp] theorem freeRead_draws (s : State) : (freeRead s).draws = s.draws + 1 := rfl
@[simp] theorem freeRead_response (s : State) : (freeRead s).response = .data (Config.freeRead s.draws) := rfl

/-! ### `retire` -/

@[simp] theorem retire_fregs (s : State) : (retire s).fregs = s.fregs := rfl
@[simp] theorem retire_bufs (s : State) : (retire s).bufs = s.bufs := rfl
@[simp] theorem retire_sponge (s : State) : (retire s).sponge = s.sponge := rfl
@[simp] theorem retire_key (s : State) : (retire s).key = s.key := rfl
@[simp] theorem retire_iv (s : State) : (retire s).iv = s.iv := rfl
@[simp] theorem retire_nonce (s : State) : (retire s).nonce = s.nonce := rfl
@[simp] theorem retire_din (s : State) : (retire s).din = s.din := rfl
@[simp] theorem retire_dout (s : State) : (retire s).dout = s.dout := rfl
@[simp] theorem retire_phase (s : State) : (retire s).phase = s.phase := rfl
@[simp] theorem retire_ie (s : State) : (retire s).ie = s.ie := rfl
@[simp] theorem retire_busy (s : State) : (retire s).busy = false := rfl
@[simp] theorem retire_done (s : State) : (retire s).done = true := rfl
@[simp] theorem retire_err (s : State) : (retire s).err = s.err := rfl
@[simp] theorem retire_ecode (s : State) : (retire s).ecode = s.ecode := rfl
@[simp] theorem retire_lastCmd (s : State) : (retire s).lastCmd = s.lastCmd := rfl
@[simp] theorem retire_errInfo (s : State) : (retire s).errInfo = s.errInfo := rfl
@[simp] theorem retire_pending (s : State) : (retire s).pending = none := rfl
@[simp] theorem retire_resetLine (s : State) : (retire s).resetLine = s.resetLine := rfl
@[simp] theorem retire_inputs (s : State) : (retire s).inputs = s.inputs := rfl
@[simp] theorem retire_draws (s : State) : (retire s).draws = s.draws := rfl
@[simp] theorem retire_response (s : State) : (retire s).response = s.response := rfl

/-! ### `acceptWord` -/

@[simp] theorem acceptWord_fregs (s : State) (w : Word) : (acceptWord s w).fregs = s.fregs := rfl
@[simp] theorem acceptWord_bufs (s : State) (w : Word) : (acceptWord s w).bufs = s.bufs := rfl
@[simp] theorem acceptWord_sponge (s : State) (w : Word) : (acceptWord s w).sponge = s.sponge := rfl
@[simp] theorem acceptWord_key (s : State) (w : Word) : (acceptWord s w).key = s.key := rfl
@[simp] theorem acceptWord_iv (s : State) (w : Word) : (acceptWord s w).iv = s.iv := rfl
@[simp] theorem acceptWord_nonce (s : State) (w : Word) : (acceptWord s w).nonce = s.nonce := rfl
@[simp] theorem acceptWord_din (s : State) (w : Word) : (acceptWord s w).din = s.din := rfl
@[simp] theorem acceptWord_dout (s : State) (w : Word) : (acceptWord s w).dout = s.dout := rfl
@[simp] theorem acceptWord_phase (s : State) (w : Word) : (acceptWord s w).phase = s.phase := rfl
@[simp] theorem acceptWord_ie (s : State) (w : Word) : (acceptWord s w).ie = s.ie := rfl
@[simp] theorem acceptWord_busy (s : State) (w : Word) : (acceptWord s w).busy = true := rfl
@[simp] theorem acceptWord_done (s : State) (w : Word) : (acceptWord s w).done = s.done := rfl
@[simp] theorem acceptWord_err (s : State) (w : Word) : (acceptWord s w).err = s.err := rfl
@[simp] theorem acceptWord_ecode (s : State) (w : Word) : (acceptWord s w).ecode = s.ecode := rfl
@[simp] theorem acceptWord_lastCmd (s : State) (w : Word) : (acceptWord s w).lastCmd = w := rfl
@[simp] theorem acceptWord_errInfo (s : State) (w : Word) : (acceptWord s w).errInfo = s.errInfo := rfl
@[simp] theorem acceptWord_pending (s : State) (w : Word) : (acceptWord s w).pending = some w := rfl
@[simp] theorem acceptWord_resetLine (s : State) (w : Word) : (acceptWord s w).resetLine = s.resetLine := rfl
@[simp] theorem acceptWord_inputs (s : State) (w : Word) : (acceptWord s w).inputs = s.inputs := rfl
@[simp] theorem acceptWord_draws (s : State) (w : Word) : (acceptWord s w).draws = s.draws := rfl
@[simp] theorem acceptWord_response (s : State) (w : Word) : (acceptWord s w).response = s.response := rfl

/-! ### `popInput` -/

@[simp] theorem popInput_fregs (s : State) : (popInput s).fregs = s.fregs := rfl
@[simp] theorem popInput_bufs (s : State) : (popInput s).bufs = s.bufs := rfl
@[simp] theorem popInput_sponge (s : State) : (popInput s).sponge = s.sponge := rfl
@[simp] theorem popInput_key (s : State) : (popInput s).key = s.key := rfl
@[simp] theorem popInput_iv (s : State) : (popInput s).iv = s.iv := rfl
@[simp] theorem popInput_nonce (s : State) : (popInput s).nonce = s.nonce := rfl
@[simp] theorem popInput_din (s : State) : (popInput s).din = s.din := rfl
@[simp] theorem popInput_dout (s : State) : (popInput s).dout = s.dout := rfl
@[simp] theorem popInput_phase (s : State) : (popInput s).phase = s.phase := rfl
@[simp] theorem popInput_ie (s : State) : (popInput s).ie = s.ie := rfl
@[simp] theorem popInput_busy (s : State) : (popInput s).busy = s.busy := rfl
@[simp] theorem popInput_done (s : State) : (popInput s).done = s.done := rfl
@[simp] theorem popInput_err (s : State) : (popInput s).err = s.err := rfl
@[simp] theorem popInput_ecode (s : State) : (popInput s).ecode = s.ecode := rfl
@[simp] theorem popInput_lastCmd (s : State) : (popInput s).lastCmd = s.lastCmd := rfl
@[simp] theorem popInput_errInfo (s : State) : (popInput s).errInfo = s.errInfo := rfl
@[simp] theorem popInput_pending (s : State) : (popInput s).pending = s.pending := rfl
@[simp] theorem popInput_resetLine (s : State) : (popInput s).resetLine = s.resetLine := rfl
@[simp] theorem popInput_inputs (s : State) : (popInput s).inputs = s.inputs.tail := rfl
@[simp] theorem popInput_draws (s : State) : (popInput s).draws = s.draws := rfl
@[simp] theorem popInput_response (s : State) : (popInput s).response = s.response := rfl

/-! ### `releaseReset` -/

@[simp] theorem releaseReset_fregs (s : State) : (releaseReset s).fregs = s.fregs := rfl
@[simp] theorem releaseReset_bufs (s : State) : (releaseReset s).bufs = s.bufs := rfl
@[simp] theorem releaseReset_sponge (s : State) : (releaseReset s).sponge = s.sponge := rfl
@[simp] theorem releaseReset_key (s : State) : (releaseReset s).key = s.key := rfl
@[simp] theorem releaseReset_iv (s : State) : (releaseReset s).iv = s.iv := rfl
@[simp] theorem releaseReset_nonce (s : State) : (releaseReset s).nonce = s.nonce := rfl
@[simp] theorem releaseReset_din (s : State) : (releaseReset s).din = s.din := rfl
@[simp] theorem releaseReset_dout (s : State) : (releaseReset s).dout = s.dout := rfl
@[simp] theorem releaseReset_phase (s : State) : (releaseReset s).phase = s.phase := rfl
@[simp] theorem releaseReset_ie (s : State) : (releaseReset s).ie = s.ie := rfl
@[simp] theorem releaseReset_busy (s : State) : (releaseReset s).busy = s.busy := rfl
@[simp] theorem releaseReset_done (s : State) : (releaseReset s).done = s.done := rfl
@[simp] theorem releaseReset_err (s : State) : (releaseReset s).err = s.err := rfl
@[simp] theorem releaseReset_ecode (s : State) : (releaseReset s).ecode = s.ecode := rfl
@[simp] theorem releaseReset_lastCmd (s : State) : (releaseReset s).lastCmd = s.lastCmd := rfl
@[simp] theorem releaseReset_errInfo (s : State) : (releaseReset s).errInfo = s.errInfo := rfl
@[simp] theorem releaseReset_pending (s : State) : (releaseReset s).pending = s.pending := rfl
@[simp] theorem releaseReset_resetLine (s : State) : (releaseReset s).resetLine = false := rfl
@[simp] theorem releaseReset_inputs (s : State) : (releaseReset s).inputs = s.inputs := rfl
@[simp] theorem releaseReset_draws (s : State) : (releaseReset s).draws = s.draws := rfl
@[simp] theorem releaseReset_response (s : State) : (releaseReset s).response = s.response := rfl

/-! ### `applyReset` and `assertReset` -/

@[simp] theorem applyReset_fregs (s : State) : (applyReset s).fregs = State.reset.fregs := rfl
@[simp] theorem applyReset_bufs (s : State) : (applyReset s).bufs = State.reset.bufs := rfl
@[simp] theorem applyReset_sponge (s : State) : (applyReset s).sponge = State.reset.sponge := rfl
@[simp] theorem applyReset_key (s : State) : (applyReset s).key = State.reset.key := rfl
@[simp] theorem applyReset_iv (s : State) : (applyReset s).iv = State.reset.iv := rfl
@[simp] theorem applyReset_nonce (s : State) : (applyReset s).nonce = State.reset.nonce := rfl
@[simp] theorem applyReset_din (s : State) : (applyReset s).din = State.reset.din := rfl
@[simp] theorem applyReset_dout (s : State) : (applyReset s).dout = State.reset.dout := rfl
@[simp] theorem applyReset_phase (s : State) : (applyReset s).phase = State.reset.phase := rfl
@[simp] theorem applyReset_ie (s : State) : (applyReset s).ie = State.reset.ie := rfl
@[simp] theorem applyReset_busy (s : State) : (applyReset s).busy = State.reset.busy := rfl
@[simp] theorem applyReset_done (s : State) : (applyReset s).done = State.reset.done := rfl
@[simp] theorem applyReset_err (s : State) : (applyReset s).err = State.reset.err := rfl
@[simp] theorem applyReset_ecode (s : State) : (applyReset s).ecode = State.reset.ecode := rfl
@[simp] theorem applyReset_lastCmd (s : State) : (applyReset s).lastCmd = State.reset.lastCmd := rfl
@[simp] theorem applyReset_errInfo (s : State) : (applyReset s).errInfo = State.reset.errInfo := rfl
@[simp] theorem applyReset_pending (s : State) : (applyReset s).pending = State.reset.pending := rfl
@[simp] theorem applyReset_resetLine (s : State) : (applyReset s).resetLine = s.resetLine := rfl
@[simp] theorem applyReset_inputs (s : State) : (applyReset s).inputs = s.inputs := rfl
@[simp] theorem applyReset_draws (s : State) : (applyReset s).draws = s.draws := rfl
@[simp] theorem applyReset_response (s : State) : (applyReset s).response = s.response := rfl
@[simp] theorem assertReset_fregs (s : State) : (assertReset s).fregs = State.reset.fregs := rfl
@[simp] theorem assertReset_bufs (s : State) : (assertReset s).bufs = State.reset.bufs := rfl
@[simp] theorem assertReset_sponge (s : State) : (assertReset s).sponge = State.reset.sponge := rfl
@[simp] theorem assertReset_key (s : State) : (assertReset s).key = State.reset.key := rfl
@[simp] theorem assertReset_iv (s : State) : (assertReset s).iv = State.reset.iv := rfl
@[simp] theorem assertReset_nonce (s : State) : (assertReset s).nonce = State.reset.nonce := rfl
@[simp] theorem assertReset_din (s : State) : (assertReset s).din = State.reset.din := rfl
@[simp] theorem assertReset_dout (s : State) : (assertReset s).dout = State.reset.dout := rfl
@[simp] theorem assertReset_phase (s : State) : (assertReset s).phase = State.reset.phase := rfl
@[simp] theorem assertReset_ie (s : State) : (assertReset s).ie = State.reset.ie := rfl
@[simp] theorem assertReset_busy (s : State) : (assertReset s).busy = State.reset.busy := rfl
@[simp] theorem assertReset_done (s : State) : (assertReset s).done = State.reset.done := rfl
@[simp] theorem assertReset_err (s : State) : (assertReset s).err = State.reset.err := rfl
@[simp] theorem assertReset_ecode (s : State) : (assertReset s).ecode = State.reset.ecode := rfl
@[simp] theorem assertReset_lastCmd (s : State) : (assertReset s).lastCmd = State.reset.lastCmd := rfl
@[simp] theorem assertReset_errInfo (s : State) : (assertReset s).errInfo = State.reset.errInfo := rfl
@[simp] theorem assertReset_pending (s : State) : (assertReset s).pending = State.reset.pending := rfl
@[simp] theorem assertReset_resetLine (s : State) : (assertReset s).resetLine = true := rfl
@[simp] theorem assertReset_inputs (s : State) : (assertReset s).inputs = s.inputs := rfl
@[simp] theorem assertReset_draws (s : State) : (assertReset s).draws = s.draws := rfl
@[simp] theorem assertReset_response (s : State) : (assertReset s).response = s.response := rfl

/-! ### `recordError` -/

@[simp] theorem recordError_fregs (s : State) (e : ErrorCode) (info : Word) : (recordError s e info).fregs = s.fregs := by
  unfold recordError; split <;> rfl
@[simp] theorem recordError_bufs (s : State) (e : ErrorCode) (info : Word) : (recordError s e info).bufs = s.bufs := by
  unfold recordError; split <;> rfl
@[simp] theorem recordError_sponge (s : State) (e : ErrorCode) (info : Word) : (recordError s e info).sponge = s.sponge := by
  unfold recordError; split <;> rfl
@[simp] theorem recordError_key (s : State) (e : ErrorCode) (info : Word) : (recordError s e info).key = s.key := by
  unfold recordError; split <;> rfl
@[simp] theorem recordError_iv (s : State) (e : ErrorCode) (info : Word) : (recordError s e info).iv = s.iv := by
  unfold recordError; split <;> rfl
@[simp] theorem recordError_nonce (s : State) (e : ErrorCode) (info : Word) : (recordError s e info).nonce = s.nonce := by
  unfold recordError; split <;> rfl
@[simp] theorem recordError_din (s : State) (e : ErrorCode) (info : Word) : (recordError s e info).din = s.din := by
  unfold recordError; split <;> rfl
@[simp] theorem recordError_dout (s : State) (e : ErrorCode) (info : Word) : (recordError s e info).dout = s.dout := by
  unfold recordError; split <;> rfl
@[simp] theorem recordError_phase (s : State) (e : ErrorCode) (info : Word) : (recordError s e info).phase = s.phase := by
  unfold recordError; split <;> rfl
@[simp] theorem recordError_ie (s : State) (e : ErrorCode) (info : Word) : (recordError s e info).ie = s.ie := by
  unfold recordError; split <;> rfl
@[simp] theorem recordError_busy (s : State) (e : ErrorCode) (info : Word) : (recordError s e info).busy = s.busy := by
  unfold recordError; split <;> rfl
@[simp] theorem recordError_done (s : State) (e : ErrorCode) (info : Word) : (recordError s e info).done = s.done := by
  unfold recordError; split <;> rfl
@[simp] theorem recordError_err (s : State) (e : ErrorCode) (info : Word) : (recordError s e info).err = true := by
  unfold recordError; split <;> simp_all
@[simp] theorem recordError_ecode (s : State) (e : ErrorCode) (info : Word) : (recordError s e info).ecode = if s.err then s.ecode else e.code := by
  unfold recordError; split <;> rfl
@[simp] theorem recordError_lastCmd (s : State) (e : ErrorCode) (info : Word) : (recordError s e info).lastCmd = s.lastCmd := by
  unfold recordError; split <;> rfl
@[simp] theorem recordError_errInfo (s : State) (e : ErrorCode) (info : Word) : (recordError s e info).errInfo = if s.err then s.errInfo else info := by
  unfold recordError; split <;> rfl
@[simp] theorem recordError_pending (s : State) (e : ErrorCode) (info : Word) : (recordError s e info).pending = s.pending := by
  unfold recordError; split <;> rfl
@[simp] theorem recordError_resetLine (s : State) (e : ErrorCode) (info : Word) : (recordError s e info).resetLine = s.resetLine := by
  unfold recordError; split <;> rfl
@[simp] theorem recordError_inputs (s : State) (e : ErrorCode) (info : Word) : (recordError s e info).inputs = s.inputs := by
  unfold recordError; split <;> rfl
@[simp] theorem recordError_draws (s : State) (e : ErrorCode) (info : Word) : (recordError s e info).draws = s.draws := by
  unfold recordError; split <;> rfl
@[simp] theorem recordError_response (s : State) (e : ErrorCode) (info : Word) : (recordError s e info).response = s.response := by
  unfold recordError; split <;> rfl

/-! ### `writeStatus` -/

@[simp] theorem writeStatus_fregs (s : State) (v : Word) : (writeStatus s v).fregs = s.fregs := by
  unfold writeStatus; cases v.getLsbD 1 <;> cases v.getLsbD 2 <;> simp
@[simp] theorem writeStatus_bufs (s : State) (v : Word) : (writeStatus s v).bufs = s.bufs := by
  unfold writeStatus; cases v.getLsbD 1 <;> cases v.getLsbD 2 <;> simp
@[simp] theorem writeStatus_sponge (s : State) (v : Word) : (writeStatus s v).sponge = s.sponge := by
  unfold writeStatus; cases v.getLsbD 1 <;> cases v.getLsbD 2 <;> simp
@[simp] theorem writeStatus_key (s : State) (v : Word) : (writeStatus s v).key = s.key := by
  unfold writeStatus; cases v.getLsbD 1 <;> cases v.getLsbD 2 <;> simp
@[simp] theorem writeStatus_iv (s : State) (v : Word) : (writeStatus s v).iv = s.iv := by
  unfold writeStatus; cases v.getLsbD 1 <;> cases v.getLsbD 2 <;> simp
@[simp] theorem writeStatus_nonce (s : State) (v : Word) : (writeStatus s v).nonce = s.nonce := by
  unfold writeStatus; cases v.getLsbD 1 <;> cases v.getLsbD 2 <;> simp
@[simp] theorem writeStatus_din (s : State) (v : Word) : (writeStatus s v).din = s.din := by
  unfold writeStatus; cases v.getLsbD 1 <;> cases v.getLsbD 2 <;> simp
@[simp] theorem writeStatus_dout (s : State) (v : Word) : (writeStatus s v).dout = s.dout := by
  unfold writeStatus; cases v.getLsbD 1 <;> cases v.getLsbD 2 <;> simp
@[simp] theorem writeStatus_phase (s : State) (v : Word) : (writeStatus s v).phase = s.phase := by
  unfold writeStatus; cases v.getLsbD 1 <;> cases v.getLsbD 2 <;> simp
@[simp] theorem writeStatus_ie (s : State) (v : Word) : (writeStatus s v).ie = s.ie := by
  unfold writeStatus; cases v.getLsbD 1 <;> cases v.getLsbD 2 <;> simp
@[simp] theorem writeStatus_busy (s : State) (v : Word) : (writeStatus s v).busy = s.busy := by
  unfold writeStatus; cases v.getLsbD 1 <;> cases v.getLsbD 2 <;> simp
@[simp] theorem writeStatus_done (s : State) (v : Word) : (writeStatus s v).done = (s.done && !v.getLsbD 1) := by
  unfold writeStatus; cases v.getLsbD 1 <;> cases v.getLsbD 2 <;> simp
@[simp] theorem writeStatus_err (s : State) (v : Word) : (writeStatus s v).err = (s.err && !v.getLsbD 2) := by
  unfold writeStatus; cases v.getLsbD 1 <;> cases v.getLsbD 2 <;> simp
@[simp] theorem writeStatus_ecode (s : State) (v : Word) : (writeStatus s v).ecode = if v.getLsbD 2 then 0#4 else s.ecode := by
  unfold writeStatus; cases v.getLsbD 1 <;> cases v.getLsbD 2 <;> simp
@[simp] theorem writeStatus_lastCmd (s : State) (v : Word) : (writeStatus s v).lastCmd = s.lastCmd := by
  unfold writeStatus; cases v.getLsbD 1 <;> cases v.getLsbD 2 <;> simp
@[simp] theorem writeStatus_errInfo (s : State) (v : Word) : (writeStatus s v).errInfo = if v.getLsbD 2 then 0#32 else s.errInfo := by
  unfold writeStatus; cases v.getLsbD 1 <;> cases v.getLsbD 2 <;> simp
@[simp] theorem writeStatus_pending (s : State) (v : Word) : (writeStatus s v).pending = s.pending := by
  unfold writeStatus; cases v.getLsbD 1 <;> cases v.getLsbD 2 <;> simp
@[simp] theorem writeStatus_resetLine (s : State) (v : Word) : (writeStatus s v).resetLine = s.resetLine := by
  unfold writeStatus; cases v.getLsbD 1 <;> cases v.getLsbD 2 <;> simp
@[simp] theorem writeStatus_inputs (s : State) (v : Word) : (writeStatus s v).inputs = s.inputs := by
  unfold writeStatus; cases v.getLsbD 1 <;> cases v.getLsbD 2 <;> simp
@[simp] theorem writeStatus_draws (s : State) (v : Word) : (writeStatus s v).draws = s.draws := by
  unfold writeStatus; cases v.getLsbD 1 <;> cases v.getLsbD 2 <;> simp
@[simp] theorem writeStatus_response (s : State) (v : Word) : (writeStatus s v).response = s.response := by
  unfold writeStatus; cases v.getLsbD 1 <;> cases v.getLsbD 2 <;> simp

/-! ### Registers read back -/

@[simp] theorem fe_setFe_same (s : State) (k : FReg) (v : FieldElem) : (s.setFe k v).fe k = v := by
  simp [State.fe]

theorem fe_setFe (s : State) (k k' : FReg) (v : FieldElem) : (s.setFe k v).fe k' = if k = k' then v else s.fe k' := by
  simp [State.fe, Vector.getElem_set, Fin.ext_iff]

@[simp] theorem buf_setBuf_same (s : State) (k : BReg) (v : Buffer) : (s.setBuf k v).buf k = v := by
  simp [State.buf]

theorem buf_setBuf (s : State) (k k' : BReg) (v : Buffer) : (s.setBuf k v).buf k' = if k = k' then v else s.buf k' := by
  simp [State.buf, Vector.getElem_set, Fin.ext_iff]

@[simp] theorem buf_setFe (s : State) (k : FReg) (v : FieldElem) (f : BReg) : (s.setFe k v).buf f = s.buf f := by
  simp [State.buf]

@[simp] theorem fe_setBuf (s : State) (k : BReg) (v : Buffer) (f : FReg) : (s.setBuf k v).fe f = s.fe f := by
  simp [State.fe]

@[simp] theorem fe_setSponge (s : State) (x : Sponge) (f : FReg) : (s.setSponge x).fe f = s.fe f := by
  simp [State.fe]

@[simp] theorem buf_setSponge (s : State) (x : Sponge) (f : BReg) : (s.setSponge x).buf f = s.buf f := by
  simp [State.buf]

@[simp] theorem fe_setKey (s : State) (k : Vector Word64 4) (f : FReg) : (s.setKey k).fe f = s.fe f := by
  simp [State.fe]

@[simp] theorem buf_setKey (s : State) (k : Vector Word64 4) (f : BReg) : (s.setKey k).buf f = s.buf f := by
  simp [State.buf]

@[simp] theorem fe_setDout (s : State) (v : Word64) (f : FReg) : (s.setDout v).fe f = s.fe f := by
  simp [State.fe]

@[simp] theorem buf_setDout (s : State) (v : Word64) (f : BReg) : (s.setDout v).buf f = s.buf f := by
  simp [State.buf]

@[simp] theorem fe_setPhase (s : State) (ph : Phase) (f : FReg) : (s.setPhase ph).fe f = s.fe f := by
  simp [State.fe]

@[simp] theorem buf_setPhase (s : State) (ph : Phase) (f : BReg) : (s.setPhase ph).buf f = s.buf f := by
  simp [State.buf]

@[simp] theorem fe_respond (s : State) (r : Response) (f : FReg) : (respond s r).fe f = s.fe f := by
  simp [State.fe]

@[simp] theorem buf_respond (s : State) (r : Response) (f : BReg) : (respond s r).buf f = s.buf f := by
  simp [State.buf]

@[simp] theorem fe_freeRead (s : State) (f : FReg) : (freeRead s).fe f = s.fe f := by
  simp [State.fe]

@[simp] theorem buf_freeRead (s : State) (f : BReg) : (freeRead s).buf f = s.buf f := by
  simp [State.buf]

@[simp] theorem fe_retire (s : State) (f : FReg) : (retire s).fe f = s.fe f := by
  simp [State.fe]

@[simp] theorem buf_retire (s : State) (f : BReg) : (retire s).buf f = s.buf f := by
  simp [State.buf]

@[simp] theorem fe_acceptWord (s : State) (w : Word) (f : FReg) : (acceptWord s w).fe f = s.fe f := by
  simp [State.fe]

@[simp] theorem buf_acceptWord (s : State) (w : Word) (f : BReg) : (acceptWord s w).buf f = s.buf f := by
  simp [State.buf]

@[simp] theorem fe_popInput (s : State) (f : FReg) : (popInput s).fe f = s.fe f := by
  simp [State.fe]

@[simp] theorem buf_popInput (s : State) (f : BReg) : (popInput s).buf f = s.buf f := by
  simp [State.buf]

@[simp] theorem fe_releaseReset (s : State) (f : FReg) : (releaseReset s).fe f = s.fe f := by
  simp [State.fe]

@[simp] theorem buf_releaseReset (s : State) (f : BReg) : (releaseReset s).buf f = s.buf f := by
  simp [State.buf]

@[simp] theorem fe_recordError (s : State) (e : ErrorCode) (info : Word) (f : FReg) : (recordError s e info).fe f = s.fe f := by
  simp [State.fe]

@[simp] theorem buf_recordError (s : State) (e : ErrorCode) (info : Word) (f : BReg) : (recordError s e info).buf f = s.buf f := by
  simp [State.buf]

@[simp] theorem fe_writeStatus (s : State) (v : Word) (f : FReg) : (writeStatus s v).fe f = s.fe f := by
  simp [State.fe]

@[simp] theorem buf_writeStatus (s : State) (v : Word) (f : BReg) : (writeStatus s v).buf f = s.buf f := by
  simp [State.buf]

/-- A reset state is a fixed point of reset. -/
@[simp] theorem applyReset_applyReset (s : State) : applyReset (applyReset s) = applyReset s := rfl

end Sys2Proof.Machine
end

