-- ==== Sys2Proof/Laws/Window.lean ====
section
/-!
SUPPORT. The laws of the register window: which register of the window an update can change, a store read back, the
offsets of the map, and the frame of each update.
-/

namespace Sys2Proof.Machine

/-! ### What the window shows depends on the registers only -/

/-- The window shows the same in two states with the same registers, whatever the model's own fields and `PENDING` are. -/
theorem peek_congr {s t : State} (hf : t.fregs = s.fregs) (hb : t.bufs = s.bufs) (hs : t.sponge = s.sponge)
    (hk : t.key = s.key) (hiv : t.iv = s.iv) (hn : t.nonce = s.nonce) (hdin : t.din = s.din) (hdout : t.dout = s.dout)
    (hp : t.phase = s.phase) (hie : t.ie = s.ie) (hbusy : t.busy = s.busy) (hdone : t.done = s.done)
    (herr : t.err = s.err) (hec : t.ecode = s.ecode) (hl : t.lastCmd = s.lastCmd) (hei : t.errInfo = s.errInfo) (l : Loc) :
    t.peek l = s.peek l := by
  cases l <;> simp [State.peek, ctrlWord, statusWord, phaseWord, State.fe, State.buf, *]

@[simp] theorem peek_respond (s : State) (r : Response) (l : Loc) : (respond s r).peek l = s.peek l := by
  apply peek_congr <;> rfl

@[simp] theorem peek_freeRead (s : State) (l : Loc) : (freeRead s).peek l = s.peek l := by
  apply peek_congr <;> rfl

@[simp] theorem peek_popInput (s : State) (l : Loc) : (popInput s).peek l = s.peek l := by
  apply peek_congr <;> rfl

@[simp] theorem peek_inputs (s : State) (es : List Event) (l : Loc) : ({ s with inputs := es } : State).peek l = s.peek l := by
  apply peek_congr <;> rfl

@[simp] theorem peek_releaseReset (s : State) (l : Loc) : (releaseReset s).peek l = s.peek l := by
  apply peek_congr <;> rfl

@[simp] theorem peek_applyReset (s : State) (l : Loc) : (applyReset s).peek l = State.reset.peek l := by
  apply peek_congr <;> rfl

@[simp] theorem peek_assertReset (s : State) (l : Loc) : (assertReset s).peek l = State.reset.peek l := by
  apply peek_congr <;> rfl

/-- Recording an error changes no register but `STATUS` and `ERRINFO` (R250). -/
theorem peek_recordError (s : State) (e : ErrorCode) (info : Word) (l : Loc) (h1 : l ≠ .status) (h2 : l ≠ .errInfo) :
    (recordError s e info).peek l = s.peek l := by
  cases l <;> simp_all [State.peek, ctrlWord, phaseWord]

/-- A write to `STATUS` changes no register but `STATUS` and `ERRINFO` (R44). -/
theorem peek_writeStatus (s : State) (v : Word) (l : Loc) (h1 : l ≠ .status) (h2 : l ≠ .errInfo) :
    (writeStatus s v).peek l = s.peek l := by
  cases l <;> simp_all [State.peek, ctrlWord, phaseWord]

/-- Acceptance changes no register but `STATUS` and `LASTCMD` (R231). -/
theorem peek_acceptWord (s : State) (w : Word) (l : Loc) (h1 : l ≠ .status) (h2 : l ≠ .cmd) :
    (acceptWord { s with done := false } w).peek l = s.peek l := by
  cases l <;> simp_all [State.peek, ctrlWord, phaseWord, State.fe, State.buf]

/-! ### Stores -/

/-- A half of an element of a register file after a write to a half of an element. -/
theorem getHalf_set {n : Nat} (x : Vector Word64 n) (i j : Fin n) (h h' : Half) (v : Word) :
    getHalf (x.set i.val (setHalf x[i] h v))[j] h' = if i = j ∧ h = h' then v else getHalf x[j] h' := by
  by_cases e : i = j
  · subst e; simp [getHalf_setHalf]
  · have : ¬ i.val = j.val := fun k => e (Fin.ext k)
    simp [e, this]

/-- A store read back at any location (R72 to R74): a writable data register holds the value at its own location and nothing
moved anywhere else. -/
theorem peek_poke (s : State) (l l' : Loc) (v : Word) (h : l.isWritableData = true) :
    (s.poke l v).peek l' = if l = l' then v else s.peek l' := by
  cases l with
  | sponge i a => cases l' with
    | sponge j b => simpa [State.poke, State.peek] using getHalf_set s.sponge i j a b v
    | _ => exact peek_congr rfl rfl rfl rfl rfl rfl rfl rfl rfl rfl rfl rfl rfl rfl rfl rfl _
  | key i a => cases l' with
    | key j b => simpa [State.poke, State.peek] using getHalf_set s.key i j a b v
    | _ => exact peek_congr rfl rfl rfl rfl rfl rfl rfl rfl rfl rfl rfl rfl rfl rfl rfl rfl _
  | iv a => cases l' with
    | iv b => simpa [State.poke, State.peek] using getHalf_setHalf s.iv a b v
    | _ => exact peek_congr rfl rfl rfl rfl rfl rfl rfl rfl rfl rfl rfl rfl rfl rfl rfl rfl _
  | nonce i a => cases l' with
    | nonce j b => simpa [State.poke, State.peek] using getHalf_set s.nonce i j a b v
    | _ => exact peek_congr rfl rfl rfl rfl rfl rfl rfl rfl rfl rfl rfl rfl rfl rfl rfl rfl _
  | din a => cases l' with
    | din b => simpa [State.poke, State.peek] using getHalf_setHalf s.din a b v
    | _ => exact peek_congr rfl rfl rfl rfl rfl rfl rfl rfl rfl rfl rfl rfl rfl rfl rfl rfl _
  | buf k w => cases l' with
    | buf k' w' =>
      simp only [State.poke, State.peek, buf_setBuf, Loc.buf.injEq]
      by_cases e : k = k'
      · subst e; simp [bufWord_setBufWord]
      · simp [e]
    | _ => exact peek_congr rfl rfl rfl rfl rfl rfl rfl rfl rfl rfl rfl rfl rfl rfl rfl rfl _
  | limb k j a => cases l' with
    | limb k' j' b =>
      simp only [State.poke, State.peek, fe_setFe, Loc.limb.injEq]
      by_cases e : k = k'
      · subst e; simpa using getHalf_set (s.fe k) j j' a b v
      · simp [e]
    | _ => exact peek_congr rfl rfl rfl rfl rfl rfl rfl rfl rfl rfl rfl rfl rfl rfl rfl rfl _
  | _ => simp [Loc.isWritableData] at h

end Sys2Proof.Machine
end

