-- ==== Sys2Proof/Laws/Exec.lean ====
section
/-!
SUPPORT. What the meanings of the commands can do: the frame of each update they are made of, the control registers they never
touch, and when they answer a next state.
-/

namespace Sys2Proof.Machine

/-! ### Frames of the updates -/

theorem Unchanged.refl (touched : Loc → Prop) (s : State) : Unchanged touched s s :=
  ⟨fun _ _ => rfl, rfl, rfl, rfl, rfl, rfl⟩

theorem Unchanged.trans {p : Loc → Prop} {s t u : State} (h1 : Unchanged p s t) (h2 : Unchanged p t u) : Unchanged p s u :=
  ⟨fun l h => (h2.window l h).trans (h1.window l h), h2.pending.trans h1.pending, h2.resetLine.trans h1.resetLine,
    h2.inputs.trans h1.inputs, h2.draws.trans h1.draws, h2.response.trans h1.response⟩

theorem Unchanged.mono {p q : Loc → Prop} {s t : State} (h : Unchanged p s t) (hpq : ∀ l, p l → q l) : Unchanged q s t :=
  ⟨fun l hl => h.window l fun hp => hl (hpq l hp), h.pending, h.resetLine, h.inputs, h.draws, h.response⟩

theorem unchanged_setFe (s : State) (k : FReg) (v : FieldElem) : Unchanged (inFreg k) s (s.setFe k v) := by
  refine ⟨fun l hl => ?_, rfl, rfl, rfl, rfl, rfl⟩
  cases l with
  | limb k' j h =>
    have : ¬ k = k' := fun e => hl ⟨j, h, by rw [e]⟩
    simp [State.peek, fe_setFe, this]
  | _ => exact rfl

theorem unchanged_setBuf (s : State) (k : BReg) (v : Buffer) : Unchanged (inBuf k) s (s.setBuf k v) := by
  refine ⟨fun l hl => ?_, rfl, rfl, rfl, rfl, rfl⟩
  cases l with
  | buf k' w =>
    have : ¬ k = k' := fun e => hl ⟨w, by rw [e]⟩
    simp [State.peek, buf_setBuf, this]
  | _ => exact rfl

theorem unchanged_setSponge (s : State) (x : Sponge) : Unchanged inSponge s (s.setSponge x) := by
  refine ⟨fun l hl => ?_, rfl, rfl, rfl, rfl, rfl⟩
  cases l with
  | sponge i h => exact absurd ⟨i, h, rfl⟩ hl
  | _ => exact rfl

theorem unchanged_setKey (s : State) (k : Vector Word64 4) : Unchanged inKey s (s.setKey k) := by
  refine ⟨fun l hl => ?_, rfl, rfl, rfl, rfl, rfl⟩
  cases l with
  | key i h => exact absurd ⟨i, h, rfl⟩ hl
  | _ => exact rfl

theorem unchanged_setDout (s : State) (v : Word64) : Unchanged inDout s (s.setDout v) := by
  refine ⟨fun l hl => ?_, rfl, rfl, rfl, rfl, rfl⟩
  cases l with
  | dout h => exact absurd ⟨h, rfl⟩ hl
  | _ => exact rfl

theorem unchanged_setPhase (s : State) (ph : Phase) : Unchanged (fun l => l = .phase) s (s.setPhase ph) := by
  refine ⟨fun l hl => ?_, rfl, rfl, rfl, rfl, rfl⟩
  cases l with
  | phase => exact absurd rfl hl
  | _ => exact rfl

/-! ### All commands -/

/-- The registers no command touches: the control registers, `PENDING` and the model's own fields (R39, R40, R260). -/
structure ControlKept (s t : State) : Prop where
  iv : t.iv = s.iv
  nonce : t.nonce = s.nonce
  din : t.din = s.din
  ie : t.ie = s.ie
  busy : t.busy = s.busy
  done : t.done = s.done
  err : t.err = s.err
  ecode : t.ecode = s.ecode
  lastCmd : t.lastCmd = s.lastCmd
  errInfo : t.errInfo = s.errInfo
  pending : t.pending = s.pending
  resetLine : t.resetLine = s.resetLine
  inputs : t.inputs = s.inputs
  draws : t.draws = s.draws
  response : t.response = s.response

/-- What every command does to them: nothing. -/
theorem exec_controlKept (i : Instr) (s t : State) (h : exec i s = .next t) : ControlKept s t := by
  cases i with
  | perm rounds =>
    simp only [exec, execPerm] at h
    split at h
    · cases h; constructor <;> rfl
    · cases h
  | _ => cases h; constructor <;> rfl

/-- A well-formed command always has a next state (R260). -/
theorem exec_completes (i : Instr) (s : State) (h : i.wellFormed = true) : ∃ t, exec i s = .next t := by
  cases i with
  | perm rounds => exact ⟨_, by simp only [exec, execPerm]; rw [if_pos (show legalRounds rounds = true from h)]⟩
  | _ => exact ⟨_, rfl⟩

end Sys2Proof.Machine
end

