-- ==== Sys2Proof/Laws/PerInstr.lean ====
section
/-!
SUPPORT. The family `EncodedOpcode`: what the encoding of each command holds in the fields every command has (30_encoding.md R101,
R105, R107): `rsv` is 0, and the opcode is the one the decoder's map answers that command for.
-/

namespace Sys2Proof.Laws.EncodedOpcode

open Sys2Proof

/-- The opcode of each command (R105). -/
def opcodeOf : Instr → BitVec 8
  | .nop => 0x00#8
  | .fadd _ _ _ => 0x10#8
  | .fsub _ _ _ => 0x11#8
  | .fmul _ _ _ => 0x12#8
  | .fsqr _ _ => 0x13#8
  | .fcar _ _ => 0x14#8
  | .finv _ _ => 0x15#8
  | .fcswap _ _ _ => 0x16#8
  | .funpack _ _ => 0x17#8
  | .fpack _ _ => 0x18#8
  | .smult _ _ _ => 0x20#8
  | .smultb _ _ => 0x21#8
  | .perm _ => 0x30#8
  | .init _ => 0x31#8
  | .adabs => 0x32#8
  | .adend => 0x33#8
  | .crypt => 0x34#8
  | .final => 0x35#8
  | .keyld _ => 0x36#8

/-- The word of `i` has `rsv` = 0 and `i`'s opcode. -/
def Statement (i : Instr) : Prop :=
  rsvField (encode i) = 0#8 ∧ opcodeField (encode i) = opcodeOf i

theorem nop : Statement .nop := ⟨by simp [encode], by simp [encode, opcodeOf]⟩
theorem fadd (d a b : FReg) : Statement (.fadd d a b) := ⟨by simp [encode], by simp [encode, opcodeOf]⟩
theorem fsub (d a b : FReg) : Statement (.fsub d a b) := ⟨by simp [encode], by simp [encode, opcodeOf]⟩
theorem fmul (d a b : FReg) : Statement (.fmul d a b) := ⟨by simp [encode], by simp [encode, opcodeOf]⟩
theorem fsqr (d a : FReg) : Statement (.fsqr d a) := ⟨by simp [encode], by simp [encode, opcodeOf]⟩
theorem fcar (d a : FReg) : Statement (.fcar d a) := ⟨by simp [encode], by simp [encode, opcodeOf]⟩
theorem finv (d a : FReg) : Statement (.finv d a) := ⟨by simp [encode], by simp [encode, opcodeOf]⟩
theorem fcswap (a b : FReg) (swap : Bool) : Statement (.fcswap a b swap) := ⟨by simp [encode], by simp [encode, opcodeOf]⟩
theorem funpack (d : FReg) (a : BReg) : Statement (.funpack d a) := ⟨by simp [encode], by simp [encode, opcodeOf]⟩
theorem fpack (d : BReg) (a : FReg) : Statement (.fpack d a) := ⟨by simp [encode], by simp [encode, opcodeOf]⟩
theorem smult (d a b : BReg) : Statement (.smult d a b) := ⟨by simp [encode], by simp [encode, opcodeOf]⟩
theorem smultb (d a : BReg) : Statement (.smultb d a) := ⟨by simp [encode], by simp [encode, opcodeOf]⟩
theorem perm (rounds : Nat) : Statement (.perm rounds) := ⟨by simp [encode], by simp [encode, opcodeOf]⟩
theorem init (load : Bool) : Statement (.init load) := ⟨by simp [encode], by simp [encode, opcodeOf]⟩
theorem adabs : Statement .adabs := ⟨by simp [encode], by simp [encode, opcodeOf]⟩
theorem adend : Statement .adend := ⟨by simp [encode], by simp [encode, opcodeOf]⟩
theorem crypt : Statement .crypt := ⟨by simp [encode], by simp [encode, opcodeOf]⟩
theorem final : Statement .final := ⟨by simp [encode], by simp [encode, opcodeOf]⟩
theorem keyld (a : BReg) : Statement (.keyld a) := ⟨by simp [encode], by simp [encode, opcodeOf]⟩

end Sys2Proof.Laws.EncodedOpcode
end

