-- ==== Sys2Proof/Laws/Step.lean ====
section
/-!
SUPPORT. What a step can do, once: the inversion of `step`, of a host read and of a host write, the offsets of the control
registers, and how `drive` runs a list of events.
-/

namespace Sys2Proof.Machine

/-! ### The control registers' offsets -/

theorem legalAccess_iff (off : Offset) (size : Nat) : legalAccess off size = true ↔ size = 4 ∧ off.toNat % 4 = 0 := by
  simp [legalAccess]

/-- A control register of the map has its word number's offset. -/
theorem locateNat_control (o : Nat) (l : Loc) (h : locateNat o = l)
    (hl : l = .ctrl ∨ l = .status ∨ l = .cmd) : controlLoc (o / 4) = l := by
  unfold locateNat wordRegLoc at h
  split at h
  · exact h
  · exfalso
    repeat' split at h
    all_goals rcases hl with rfl | rfl | rfl <;> cases h

theorem locateNat_ctrl (o : Nat) (h4 : o % 4 = 0) (h : locateNat o = .ctrl) : o = 0x004 := by
  have := locateNat_control o _ h (by simp)
  unfold controlLoc at this
  split at this <;> first | omega | cases this

theorem locateNat_status (o : Nat) (h4 : o % 4 = 0) (h : locateNat o = .status) : o = 0x008 := by
  have := locateNat_control o _ h (by simp)
  unfold controlLoc at this
  split at this <;> first | omega | cases this

theorem locateNat_cmd (o : Nat) (h4 : o % 4 = 0) (h : locateNat o = .cmd) : o = 0x00C := by
  have := locateNat_control o _ h (by simp)
  unfold controlLoc at this
  split at this <;> first | omega | cases this

/-- Only the aligned offset 0x004 is `CTRL` (R71). -/
theorem locate_ctrl (off : Offset) (h4 : off.toNat % 4 = 0) (h : locate off = .ctrl) : off = 0x004#12 :=
  BitVec.eq_of_toNat_eq (locateNat_ctrl off.toNat h4 h)

/-- Only the aligned offset 0x008 is `STATUS` (R71). -/
theorem locate_status (off : Offset) (h4 : off.toNat % 4 = 0) (h : locate off = .status) : off = 0x008#12 :=
  BitVec.eq_of_toNat_eq (locateNat_status off.toNat h4 h)

/-- Only the aligned offset 0x00C is `CMD` (R71). -/
theorem locate_cmd (off : Offset) (h4 : off.toNat % 4 = 0) (h : locate off = .cmd) : off = 0x00C#12 :=
  BitVec.eq_of_toNat_eq (locateNat_cmd off.toNat h4 h)

/-! ### The step -/

theorem popInput_of_nil (s : State) (h : s.inputs = []) : popInput s = s := by
  cases s; simp_all [popInput]

theorem step_of_nil (s : State) (h : s.inputs = []) : step s = coreEvent s := by
  simp [step, h]

theorem step_of_cons (s : State) (e : Event) (es : List Event) (h : s.inputs = e :: es) :
    step s = applyEvent (popInput s) e := by
  simp [step, h]

/-- The core's own turn: the next event is completion, or no event is queued. -/
def coreTurn (s : State) : Prop := s.inputs = [] ∨ ∃ rest, s.inputs = .completion :: rest

theorem step_of_coreTurn (s : State) (h : coreTurn s) : step s = coreEvent (popInput s) := by
  rcases h with h | ⟨rest, h⟩
  · rw [step_of_nil s h, popInput_of_nil s h]
  · rw [step_of_cons s _ _ h]; rfl

/-- What completion needs and gives (R232). -/
theorem complete_cases {s t : State} (h : complete s = .next t) :
    ∃ w i r, s.pending = some w ∧ decode w = .accept i ∧ exec i s = .next r ∧ t = retire r := by
  unfold complete fetchPending at h
  cases hp : s.pending with
  | none => simp [hp] at h
  | some w =>
    cases hd : decode w with
    | reject e => simp [hp, hd] at h
    | accept i =>
      simp only [hp, hd] at h
      cases he : exec i s with
      | next r =>
        simp only [he, Host.Outcome.next.injEq] at h
        exact ⟨w, i, r, rfl, hd, he, h.symm⟩
      | fault f => simp [he] at h
      | refused f => simp [he] at h

/-- Completion of an accepted word. -/
theorem complete_of_accept (s r : State) (w : Word) (i : Instr) (hp : s.pending = some w) (hd : decode w = .accept i)
    (he : exec i s = .next r) : complete s = .next (retire r) := by
  simp [complete, fetchPending, hp, hd, he]

/-- Everything a step can do. -/
theorem step_cases {s t : State} (h : step s = .next t) :
    (coreTurn s ∧ completionEnabled s = false ∧ t = popInput s) ∨
    (coreTurn s ∧ completionEnabled s = true ∧ ∃ w i r, s.pending = some w ∧ decode w = .accept i ∧
      exec i (popInput s) = .next r ∧ t = retire r) ∨
    (∃ off size rest, s.inputs = .read off size :: rest ∧ t = hostRead (popInput s) off size) ∨
    (∃ off size v rest, s.inputs = .write off size v :: rest ∧ t = hostWrite (popInput s) off size v) ∨
    (∃ rest, s.inputs = .resetAssert :: rest ∧ t = assertReset (popInput s)) ∨
    (∃ rest, s.inputs = .resetRelease :: rest ∧ t = releaseReset (popInput s)) := by
  have core : coreTurn s → (coreTurn s ∧ completionEnabled s = false ∧ t = popInput s) ∨
      (coreTurn s ∧ completionEnabled s = true ∧ ∃ w i r, s.pending = some w ∧ decode w = .accept i ∧
        exec i (popInput s) = .next r ∧ t = retire r) := by
    intro hc
    rw [step_of_coreTurn s hc] at h
    unfold coreEvent at h
    split at h
    · rename_i hen
      exact .inr ⟨hc, hen, complete_cases h⟩
    · rename_i hen
      cases h
      exact .inl ⟨hc, by simpa [completionEnabled] using hen, rfl⟩
  cases hi : s.inputs with
  | nil => exact (core (.inl hi)).elim .inl fun k => .inr (.inl k)
  | cons e es =>
    cases e with
    | completion => exact (core (.inr ⟨es, hi⟩)).elim .inl fun k => .inr (.inl k)
    | read off size =>
      rw [step_of_cons s _ _ hi] at h; cases h
      exact .inr (.inr (.inl ⟨off, size, es, rfl, rfl⟩))
    | write off size v =>
      rw [step_of_cons s _ _ hi] at h; cases h
      exact .inr (.inr (.inr (.inl ⟨off, size, v, es, rfl, rfl⟩)))
    | resetAssert =>
      rw [step_of_cons s _ _ hi] at h; cases h
      exact .inr (.inr (.inr (.inr (.inl ⟨es, rfl, rfl⟩))))
    | resetRelease =>
      rw [step_of_cons s _ _ hi] at h; cases h
      exact .inr (.inr (.inr (.inr (.inr ⟨es, rfl, rfl⟩))))

/-! ### The host's accesses -/

/-- Everything a host read can do: it answers, it may use up a free draw, and nothing else. -/
theorem hostRead_cases (s : State) (off : Offset) (size : Nat) :
    (∃ r, hostRead s off size = respond s r) ∨ hostRead s off size = freeRead s := by
  unfold hostRead
  repeat' split
  · exact .inl ⟨_, rfl⟩
  · exact .inr rfl
  · exact .inr rfl
  · exact .inl ⟨_, rfl⟩

/-- Everything a write to a register of the window can do. -/
theorem writeLoc_cases (s : State) (off : Offset) (v : Word) :
    (locate off = .ctrl ∧ writeLoc s off v = writeCtrl s v) ∨
    (locate off = .status ∧ writeLoc s off v = writeStatus s v) ∨
    (locate off = .cmd ∧ writeLoc s off v = writeCmd s v) ∨
    ((locate off).isWritableData = true ∧ s.busy = true ∧
      writeLoc s off v = recordError s .ebusyw (off.zeroExtend 32)) ∨
    ((locate off).isWritableData = true ∧ s.busy = false ∧ writeLoc s off v = s.poke (locate off) v) ∨
    (locate off ∈ [Loc.id, .errInfo, .phase, .dout .lo, .dout .hi, .reserved] ∧ writeLoc s off v = s) := by
  unfold writeLoc
  cases hl : locate off with
  | dout h => cases h <;> simp [Loc.isWritableData, State.poke]
  | ctrl => simp
  | status => simp
  | cmd => simp
  | _ => cases hb : s.busy <;> simp [Loc.isWritableData, State.poke]

/-- Everything a host write can do. -/
theorem hostWrite_cases (s : State) (off : Offset) (size : Nat) (v : Word) :
    (∃ r, hostWrite s off size v = respond s r ∧ (legalAccess off size = false ∨ s.resetLine = true)) ∨
    (legalAccess off size = true ∧ s.resetLine = false ∧ hostWrite s off size v = respond (writeLoc s off v) .ack) := by
  unfold hostWrite
  cases hl : legalAccess off size with
  | false => exact .inl ⟨_, rfl, .inl rfl⟩
  | true =>
    cases hr : s.resetLine with
    | true => exact .inl ⟨.ack, by simp, .inr rfl⟩
    | false => exact .inr ⟨rfl, rfl, by simp⟩

/-- Everything a `CMD` write can do (R231). -/
theorem writeCmd_cases (s : State) (w : Word) :
    (s.busy = true ∧ writeCmd s w = recordError s .ebusyc w) ∨
    (s.busy = false ∧ ∃ e, decode w = .reject e ∧ writeCmd s w = recordError { s with done := false } (rejectCode e) w) ∨
    (s.busy = false ∧ ∃ i, decode w = .accept i ∧ writeCmd s w = acceptWord { s with done := false } w) := by
  unfold writeCmd
  cases hb : s.busy with
  | true => exact .inl ⟨rfl, by simp⟩
  | false =>
    cases hd : decode w with
    | reject e => exact .inr (.inl ⟨rfl, e, rfl, by simp⟩)
    | accept i => exact .inr (.inr ⟨rfl, i, rfl, by simp⟩)

/-! ### Lists of events -/

theorem drive_cons (e : Event) (es : List Event) (s t : State) (h : step { s with inputs := [e] } = .next t) :
    drive (e :: es) s = (drive es t).map fun x => (readBack e t.response ++ x.1, x.2) := by
  simp only [drive, h]
  cases drive es t <;> rfl

/-- A run of two lists is the run of the first, then of the second. -/
theorem drive_append (es fs : List Event) (s t : State) (log : List (Offset × Word)) (h : drive es s = some (log, t)) :
    drive (es ++ fs) s = (drive fs t).map fun x => (log ++ x.1, x.2) := by
  induction es generalizing s log with
  | nil => cases h; cases hd : drive fs t <;> simp [hd]
  | cons e es ih =>
    cases hs : step { s with inputs := [e] } with
    | next u =>
      rw [drive_cons e es s u hs] at h
      cases hu : drive es u with
      | none => simp [hu] at h
      | some x =>
        simp only [hu, Option.map_some, Option.some.injEq, Prod.mk.injEq] at h
        obtain ⟨rfl, rfl⟩ := h
        rw [List.cons_append, drive_cons e (es ++ fs) s u hs, ih u x.1 (by rw [hu])]
        cases drive fs x.2 <;> simp
    | fault r => simp [drive, hs] at h
    | refused r => simp [drive, hs] at h

end Sys2Proof.Machine
end

