-- ==== Sys2Proof/Laws/Run.lean ====
section
/-!
SUPPORT. How runs of the host's events go: commands and the answer register do not meet, and what polling `STATUS` does.
-/

namespace Sys2Proof.Machine

/-- No command reads or writes the answer to the host's latest access. -/
theorem exec_respond (i : Instr) (s t : State) (r : Response) (h : exec i s = .next t) :
    exec i (respond s r) = .next (respond t r) := by
  cases i with
  | perm n =>
    simp only [exec, execPerm] at h ⊢
    split at h <;> cases h
    rename_i hl
    rw [if_pos hl]
    rfl
  | _ => cases h; rfl

/-- A poll of `STATUS` answers the status word, busy or not, and changes nothing (R83). -/
theorem step_pollStatus (s : State) (hr : s.resetLine = false) :
    step { s with inputs := [.read 0x008#12 4] } = .next (respond { s with inputs := [] } (.data (statusWord s))) := by
  have e : popInput { s with inputs := [.read 0x008#12 4] } = { s with inputs := [] } := rfl
  rw [step_of_cons _ _ _ rfl, e]
  simp only [applyEvent, hostRead]
  rw [show legalAccess 0x008#12 4 = true by decide, show locate 0x008#12 = .status by decide]
  simp [hr, Loc.isData]
  rfl

/-- Any number of polls of `STATUS` changes nothing but the answer. -/
theorem drive_polls (n : Nat) (s : State) (hr : s.resetLine = false) (hi : s.inputs = []) :
    ∃ log r, drive (List.replicate n (.read 0x008#12 4)) s = some (log, respond s r) ∧ ∀ x ∈ log, x.1 = 0x008#12 := by
  induction n generalizing s with
  | zero => exact ⟨[], s.response, rfl, by simp⟩
  | succ n ih =>
    obtain ⟨log, r, h, hl⟩ := ih (respond { s with inputs := [] } (.data (statusWord s))) hr rfl
    have hs : s = { s with inputs := [] } := by cases s; cases hi; rfl
    refine ⟨_, r, by
      rw [List.replicate_succ, drive_cons _ _ _ _ (step_pollStatus s hr), h]
      simp only [Option.map_some]
      rw [← hs]
      rfl, ?_⟩
    intro x hx
    simp only [List.mem_append, readBack, respond, List.mem_cons, List.not_mem_nil, or_false] at hx
    rcases hx with hx | hx
    · rw [hx]
    · exact hl x hx

end Sys2Proof.Machine
end

