-- ==== Sys2Proof/Tests/Slice0.lean ====
section
/-!
SUPPORT. Tests: the well-formedness smoke, words written out from the spec's encodings, one-step runs against the spec's worked
examples (95_test_vectors.md and the examples of the rules), and for every statement with hypotheses a witness that meets them.
Every expected value is the spec's; the vector or rule is named.
-/

open Sys2Proof Sys2Proof.Machine

namespace Sys2Proof.Tests

set_option Elab.async false

/-! ## Helpers -/

/-- A field element by its limbs; limbs not listed are 0 (the notation of 95_test_vectors.md). -/
def elem (xs : List Int) : FieldElem := Vector.ofFn fun j => BitVec.ofInt 64 (xs.getD j 0)

/-- `fe(n)`: the element with limbs `n[16j+15:16j]`. -/
def feOf (n : Nat) : FieldElem := Vector.ofFn fun j => BitVec.ofNat 64 (n / 65536 ^ j.val % 65536)

/-- 32 bytes, the least significant first. -/
def bytes (n : Nat) : Buffer := Vector.ofFn fun i => BitVec.ofNat 8 (n / 256 ^ i.val % 256)

/-- `p`, written out. -/
def p : Nat := 0x7FFFFFFFFFFFFFFFFFFFFFFFFFFFFFFFFFFFFFFFFFFFFFFFFFFFFFFFFFFFFFED

/-- The reset state with `F[1]` and `F[2]` set. -/
def withF (x y : FieldElem) : State := (State.reset.setFe 1 x).setFe 2 y

/-- The reset state with `B[0]` and `B[1]` set. -/
def withB (x y : Nat) : State := (State.reset.setBuf 0 (bytes x)).setBuf 1 (bytes y)

/-- Does the outcome go on, to a state of which `q` holds? -/
def goesTo (o : Host.Outcome State Fault Refusal) (q : State → Bool) : Bool :=
  match o with
  | .next t => q t
  | .fault _ => false
  | .refused _ => false

/-- One event from `s`. -/
def stepWith (s : State) (e : Event) : Host.Outcome State Fault Refusal := step { s with inputs := [e] }

/-- One event from `s`, after which `STATUS`, `LASTCMD` and `ERRINFO` read as given. -/
def shows (s : State) (e : Event) (status lastCmd errInfo : Word) : Bool :=
  goesTo (stepWith s e) fun t =>
    decide (t.peek .status = status) && decide (t.peek .cmd = lastCmd) && decide (t.peek .errInfo = errInfo)

/-- The core busy with the word `w`, from reset. -/
def busyWith (w : Word) : State := { State.reset with lastCmd := w, pending := some w, busy := true }

/-- The core idle with a recorded error. -/
def errored : State := { State.reset with err := true, ecode := 2#4, errInfo := 0xFF#32, done := true, ie := true }

/-! ## Well-formedness: the check refuses the ill-formed terms (30_encoding.md R104) -/

theorem test_perm_0_ill_formed : Instr.wellFormed (.perm 0) = false := by decide
theorem test_perm_13_ill_formed : Instr.wellFormed (.perm 13) = false := by decide
theorem test_perm_1_and_12_well_formed : Instr.wellFormed (.perm 1) = true ∧ Instr.wellFormed (.perm 12) = true := by decide
theorem test_indices_well_formed : Instr.wellFormed (.fadd 0 15 7) = true ∧ Instr.wellFormed (.keyld 15) = true := by decide

/-! ## Decoding: words written out from R101, R105 and R106 -/

theorem test_decode_nop : decode 0x00000000#32 = .accept .nop := by decide
theorem test_decode_fadd : decode 0x00F21310#32 = .accept (.fadd 3 1 2) := by decide
theorem test_decode_fsub : decode 0x0002F011#32 = .accept (.fsub 0 15 2) := by decide
theorem test_decode_fmul : decode 0x00021312#32 = .accept (.fmul 3 1 2) := by decide
theorem test_decode_fsqr : decode 0x000FA513#32 = .accept (.fsqr 5 10) := by decide
theorem test_decode_fcar : decode 0x00000014#32 = .accept (.fcar 0 0) := by decide
theorem test_decode_finv : decode 0x00000115#32 = .accept (.finv 1 0) := by decide
theorem test_decode_fcswap : decode 0x00121016#32 = .accept (.fcswap 1 2 true) := by decide
theorem test_decode_fcswap_even_imm : decode 0x00E21016#32 = .accept (.fcswap 1 2 false) := by decide
theorem test_decode_funpack : decode 0x00001017#32 = .accept (.funpack 0 1) := by decide
theorem test_decode_fpack : decode 0x00003218#32 = .accept (.fpack 2 3) := by decide
theorem test_decode_smult : decode 0x00010220#32 = .accept (.smult 2 0 1) := by decide
theorem test_decode_smultb : decode 0x00000121#32 = .accept (.smultb 1 0) := by decide
theorem test_decode_perm : decode 0x00600030#32 = .accept (.perm 6) := by decide
theorem test_decode_init : decode 0x00100031#32 = .accept (.init true) ∧ decode 0x00000031#32 = .accept (.init false) := by decide
theorem test_decode_init_imm_15 : decode 0x00F00031#32 = .accept (.init true) := by decide
theorem test_decode_adabs : decode 0x00000032#32 = .accept .adabs := by decide
theorem test_decode_adend : decode 0x00000033#32 = .accept .adend := by decide
theorem test_decode_crypt : decode 0x000FF034#32 = .accept .crypt := by decide
theorem test_decode_final : decode 0x00000035#32 = .accept .final := by decide
theorem test_decode_keyld : decode 0x00004036#32 = .accept (.keyld 4) := by decide

/-- V71 to V73, V77: `ERSV` comes first. -/
theorem test_decode_ersv :
    [0x01000000#32, 0xFF000010#32, 0x0100000F#32, 0x01D00030#32].map decode = List.replicate 4 (.reject .ersv) := by decide

/-- V74 and the gaps of R107 at their ends. -/
theorem test_decode_eillop :
    [0x01#32, 0x0F#32, 0x19#32, 0x1F#32, 0x22#32, 0x2F#32, 0x37#32, 0xFF#32].map decode =
      List.replicate 8 (.reject .eillop) := by decide

/-- V75, V76: the illegal round counts. -/
theorem test_decode_erounds :
    [0x00000030#32, 0x00D00030#32, 0x00E00030#32, 0x00F00030#32].map decode = List.replicate 4 (.reject .erounds) := by decide

/-- P2's encodings from their assembler text. -/
theorem test_encode_p2 :
    [Instr.smultb 2 0, .smultb 3 1, .smult 4 0 3, .smult 5 1 2, .keyld 4, .init true, .crypt].map encode =
      [0x00000221#32, 0x00001321#32, 0x00030420#32, 0x00021520#32, 0x00004036#32, 0x00100031#32, 0x00000034#32] := by decide

/-- R111's expansions. -/
theorem test_pseudo :
    [Pseudo.enc, .dec, .p6, .p8, .p12, .fsel 1 2 true].map (fun x => encode x.expand) =
      [0x00000034#32, 0x00000034#32, 0x00600030#32, 0x00800030#32, 0x00C00030#32, 0x00121016#32] := by decide

/-- The table's words of every row but `PERM`, whose bare word has a round count of 0 (V75). -/
theorem test_table_words :
    [0x00, 0x10, 0x11, 0x12, 0x13, 0x14, 0x15, 0x16, 0x17, 0x18, 0x20, 0x21, 0x31, 0x32, 0x33, 0x34, 0x35, 0x36].all
      (fun w => (decodeTableWord 32 w).isSome) = true ∧
    decodeTableWord 32 0x30 = none ∧ decodeTableWord 32 0x00100030 = some (.perm 1) := by decide

/-! ## The system command -/

/-- V70: completion of `NOP`. -/
theorem test_nop_completes : shows (busyWith 0x00000000#32) .completion 0x00000002#32 0x00000000#32 0#32 = true := by
  decide +kernel

/-! ## The field commands -/

/-- V13: a limb wraps modulo 2^64. -/
theorem test_fadd_wraps :
    goesTo (exec (.fadd 3 1 2) (withF (elem [0x7FFFFFFFFFFFFFFF]) (elem [1])))
      (fun t => decide (t.fe 3 = elem [-0x8000000000000000])) = true := by decide +kernel

/-- V14: no reduction. -/
theorem test_fadd_no_carry :
    goesTo (exec (.fadd 1 1 2) (withF (feOf (p - 1)) (feOf 1))) (fun t => decide (t.fe 1 = feOf p)) = true := by
  decide +kernel

/-- R140's example. -/
theorem test_fsub_negative :
    goesTo (exec (.fsub 3 1 2) (withF (feOf 3) (feOf 5))) (fun t => decide (t.fe 3 = elem [-2])) = true := by decide +kernel

/-- V16: a limb wraps. -/
theorem test_fsub_wraps :
    goesTo (exec (.fsub 2 1 2) (withF (elem [-0x8000000000000000]) (elem [1])))
      (fun t => decide (t.fe 2 = elem [0x7FFFFFFFFFFFFFFF])) = true := by decide +kernel

/-- V18: 2·(p − 1) is left as 2^256 − 40. -/
theorem test_fmul_lazy :
    goesTo (exec (.fmul 1 2 1) (withF (feOf (p - 1)) (feOf 2)))
      (fun t => decide (t.fe 1 = elem (0xFFD8 :: List.replicate 15 0xFFFF))) = true := by decide +kernel

/-- V19: 2^256 folds to 38. -/
theorem test_fmul_folds :
    goesTo (exec (.fmul 3 1 2) (withF (feOf (2 ^ 128)) (feOf (2 ^ 128)))) (fun t => decide (t.fe 3 = elem [0x26])) = true := by
  decide +kernel

/-- V20: (p − 1)². -/
theorem test_fsqr_minus_one :
    goesTo (exec (.fsqr 3 1) (withF (feOf (p - 1)) (feOf 0)))
      (fun t => decide (t.fe 3 = elem (0xFFEE :: List.replicate 14 0xFFFF ++ [0x7FFF]))) = true := by decide +kernel

/-- R142's example. -/
theorem test_fsqr_a24 :
    goesTo (exec (.fsqr 1 1) (withF (feOf 121665) (feOf 0))) (fun t => decide (t.fe 1 = elem [0x4681, 0x724A, 0x3])) = true := by
  decide +kernel

/-- R143: limb 0 exceeds 16 bits after one pass. -/
theorem test_fcar_limb0_large :
    goesTo (exec (.fcar 3 1) (withF (elem (List.replicate 16 0xFFFFF)) (feOf 0)))
      (fun t => decide (t.fe 3 = elem (0x1025F :: 0xE :: List.replicate 14 0xF))) = true := by decide +kernel

/-- R143: limb 0 is negative after one pass. -/
theorem test_fcar_limb0_negative :
    goesTo (exec (.fcar 1 1) (withF (elem (List.replicate 15 0 ++ [-1])) (feOf 0)))
      (fun t => decide (t.fe 1 = elem (-0x26 :: List.replicate 14 0 ++ [0xFFFF]))) = true := by decide +kernel

/-- R137: the last six turns of the loop, bits 5 to 0 of p − 2 (101011): from 2 they give 2^(2^6 + 43) = 2^107. -/
theorem test_finv_last_turns : invLoop (elem [2]) 6 (elem [2]) = feOf (2 ^ 107) := by decide +kernel

/-- R144: the loop runs over bits 253 to 0, from the source's old value. -/
theorem test_finv_destination (s : State) :
    goesTo (exec (.finv 1 1) s) (fun t => decide (t.fe 1 = invLoop (s.fe 1) 254 (s.fe 1))) = true := by
  simp [exec, execFinv, goesTo, inv, State.fe, State.setFe]

/-- V28: negative limbs swap exactly. -/
theorem test_fcswap_1 :
    goesTo (exec (.fcswap 1 2 true) (withF (elem [-1, 2]) (elem [3, -4])))
      (fun t => decide (t.fe 1 = elem [3, -4]) && decide (t.fe 2 = elem [-1, 2])) = true := by decide +kernel

/-- V29: a register swapped with itself. -/
theorem test_fcswap_alias :
    goesTo (exec (.fcswap 1 1 true) (withF (elem [-1, 2]) (feOf 0))) (fun t => decide (t.fe 1 = elem [-1, 2])) = true := by
  decide +kernel

/-- V33: 32 bytes of 0xFF. -/
theorem test_funpack_masks_bit_255 :
    goesTo (exec (.funpack 0 1) (withB 0 (2 ^ 256 - 1)))
      (fun t => decide (t.fe 0 = elem (List.replicate 15 0xFFFF ++ [0x7FFF]))) = true := by decide +kernel

/-- Byte 0 is the least significant (R136, R146). -/
theorem test_funpack_byte_order :
    goesTo (exec (.funpack 3 0) (withB 0x04030201 0)) (fun t => decide (t.fe 3 = elem [0x0201, 0x0403])) = true := by
  decide +kernel

/-- V38: p − 19. -/
theorem test_fpack_negative :
    goesTo (exec (.fpack 2 1) (withF (elem [-19]) (feOf 0))) (fun t => decide (t.buf 2 = bytes (p - 19))) = true := by
  decide +kernel

/-- V37: 2p packs to 0, so both subtractions happen. -/
theorem test_fpack_2p :
    goesTo (exec (.fpack 1 2) (withF (feOf 0) (elem (0xFFDA :: List.replicate 15 0xFFFF))))
      (fun t => decide (t.buf 1 = bytes 0)) = true := by decide +kernel

/-! ## The scalar multiplier (RFC 7748 values as 95_test_vectors.md gives them, little-endian integers) -/

/-- V40, V41. -/
theorem test_clamp : clamp (bytes (2 ^ 256 - 1)) = bytes (2 ^ 255 - 8) ∧ clamp (bytes 0) = bytes (2 ^ 254) := by decide +kernel

/-- V8, with the output over the scalar (V50). -/
theorem test_smult_rfc_vector_1 :
    goesTo (exec (.smult 0 0 1)
        (withB 0xc49a44ba44226a50185afcc10a4c1462dd5e46824b15163b9d7c52f06be346a5
          0x4c1cabd0a603a9103b35b326ec2466727c5fb124a4c19435db3030586768dbe6))
      (fun t => decide (t.buf 0 = bytes 0x5285a2775507b454f7711c4903cfec324f088df24dea948e90c6e99d3755dac3)) = true := by
  decide +kernel

/-- V9: bit 255 of the point is set and ignored. -/
theorem test_smult_rfc_vector_2 :
    goesTo (exec (.smult 2 0 1)
        (withB 0x0dba18799e16a42cd401eae021641bc1f56a7d959126d25a3c67b4d1d4e9664b
          0x93a415c749d54cfc3e3cc06f10e7db312cae38059d95b7f4d3116878120f21e5))
      (fun t => decide (t.buf 2 = bytes 0x5779ac7a64f7f8e652a19f79685a598bf873b8b45ce4ad7a7d90e87694decb95)) = true := by
  decide +kernel

/-- V11: Alice's public key. -/
theorem test_smultb_alice :
    goesTo (exec (.smultb 1 0) (withB 0x2a2cb91da5fb77b12a99c0eb872f4cdf4566b25172c1163c7da518730a6d0777 0))
      (fun t => decide (t.buf 1 = bytes 0x6a4e9baa8ea9a4ebf41a38260d3abf0d5af73eb4dc7d8b7454a7308909f02085)) = true := by
  decide +kernel

/-! ## The sponge -/

/-- V53, V54, V55. -/
theorem test_layers :
    sboxLayer (Vector.replicate 5 0#64) = #v[0#64, 0#64, 0xFFFFFFFFFFFFFFFF#64, 0#64, 0#64] ∧
    sboxLayer (Vector.replicate 5 0xFFFFFFFFFFFFFFFF#64) = #v[0xFFFFFFFFFFFFFFFF#64, 0#64, 0xFFFFFFFFFFFFFFFF#64,
      0xFFFFFFFFFFFFFFFF#64, 0xFFFFFFFFFFFFFFFF#64] ∧
    linearLayer (Vector.replicate 5 1#64) = #v[0x0000201000000001#64, 0x0000000002000009#64, 0x8400000000000001#64,
      0x0040800000000001#64, 0x0200000000800001#64] := by decide +kernel

/-- V60. -/
theorem test_perm_1 :
    goesTo (exec (.perm 1) State.reset) (fun t => decide (t.sponge = #v[0x000964B00000004B#64, 0x0000000096000213#64,
      0x53FFFFFFFFFFFF90#64, 0x12E580000000004B#64, 0x0000000000000000#64])) = true := by decide +kernel

/-- V63. -/
theorem test_perm_12 :
    goesTo (exec (.perm 12) State.reset) (fun t => decide (t.sponge = #v[0x78EA7AE5CFEBB108#64, 0x9B9BFB8513B560F7#64,
      0x6937F83E03D11A50#64, 0x3FE53F36F2C1178C#64, 0x045D648E4DEF12C9#64])) = true := by decide +kernel

/-- The state of V67 after step n has this sponge and phase, the key of R197's example, and this `DIN`. -/
def v67 (x : Sponge) (ph : Phase) (din : Word64) : State :=
  { State.reset with
    sponge := x, phase := ph, din := din,
    key := #v[0x0706050403020100#64, 0x0F0E0D0C0B0A0908#64, 0x1716151413121110#64, 0x1F1E1D1C1B1A1918#64] }

/-- V67, step 1. -/
theorem test_init_load :
    goesTo (exec (.init true) (v67 (Vector.replicate 5 7#64) .stream 0#64)) (fun t => decide (t.phase = .keyed) &&
      decide (t.sponge = #v[0xF802E8A75BB6DCA5#64, 0x7923661B3E2FC657#64, 0x86B37FE703DE54CC#64, 0xF416B1E6FFFDB8A3#64,
        0xF62E79BDD94A7D22#64])) = true := by decide +kernel

/-- V64. -/
theorem test_init_no_load :
    goesTo (exec (.init false) { State.reset with iv := 5#64 }) (fun t => decide (t.phase = .keyed) &&
      decide (t.sponge[0] = 0x78EA7AE5CFEBB108#64)) = true := by decide +kernel

/-- V67, step 2. -/
theorem test_adabs :
    goesTo (exec .adabs (v67 #v[0xF802E8A75BB6DCA5#64, 0x7923661B3E2FC657#64, 0x86B37FE703DE54CC#64, 0xF416B1E6FFFDB8A3#64,
        0xF62E79BDD94A7D22#64] .keyed 0x0706050403020100#64)) (fun t => decide (t.phase = .ad) &&
      decide (t.sponge = #v[0x01829DAED583F84B#64, 0x6308B7C53DB01AC5#64, 0x38FF1770C54267B7#64, 0x74C506A52568ECC9#64,
        0x2AE6A154DB2858DF#64])) = true := by decide +kernel

/-- V67, step 3. -/
theorem test_adend :
    goesTo (exec .adend (v67 #v[1#64, 2#64, 3#64, 4#64, 0x2AE6A154DB2858DF#64] .ad 9#64)) (fun t => decide (t.phase = .addone) &&
      decide (t.sponge = #v[1#64, 2#64, 3#64, 4#64, 0x2AE6A154DB2858DE#64])) = true := by decide +kernel

/-- V66, first `CRYPT`: no permutation. -/
theorem test_crypt_first :
    goesTo (exec .crypt { State.reset with din := 0x1122334455667788#64 }) (fun t => decide (t.phase = .stream) &&
      decide (t.dout = 0x1122334455667788#64) && decide (t.sponge = Vector.replicate 5 0#64)) = true := by decide +kernel

/-- V67, step 5: a subsequent word permutes first. -/
theorem test_crypt_next :
    goesTo (exec .crypt (v67 #v[0x01829DAED583F84B#64, 0x6308B7C53DB01AC5#64, 0x38FF1770C54267B7#64, 0x74C506A52568ECC9#64,
        0x2AE6A154DB2858DE#64] .stream 0#64)) (fun t => decide (t.dout = 0xBD7A1F5D38B61FAC#64) &&
      decide (t.sponge = #v[0xBD7A1F5D38B61FAC#64, 0x130A109009658043#64, 0x105A460A32AEFDDF#64, 0xA4183CE10FF71471#64,
        0xA6C2810D9DC8B4BE#64])) = true := by decide +kernel

/-- V67, step 6. -/
theorem test_final :
    goesTo (exec .final (v67 #v[0xBD7A1F5D38B61FAC#64, 0x130A109009658043#64, 0x105A460A32AEFDDF#64, 0xA4183CE10FF71471#64,
        0xA6C2810D9DC8B4BE#64] .stream 0#64)) (fun t => decide (t.phase = .final) &&
      decide (t.sponge = #v[0x0799C10D0BD2A8B2#64, 0xB58C9A20CF27680E#64, 0xB1C7ECEF88C86BA4#64, 0x37F5F6A81C6F1A5E#64,
        0xAAEB341F24B8EE41#64])) = true := by decide +kernel

/-- R197's example. -/
theorem test_keyld :
    goesTo (exec (.keyld 1) (withB 0 0x1f1e1d1c1b1a191817161514131211100f0e0d0c0b0a09080706050403020100))
      (fun t => decide (t.key = #v[0x0706050403020100#64, 0x0F0E0D0C0B0A0908#64, 0x1716151413121110#64,
        0x1F1E1D1C1B1A1918#64])) = true := by decide +kernel

/-! ## The life of a command and the errors (43_system.md R239, 95_test_vectors.md V70 to V81 and P3) -/

theorem test_r239_row2 : shows State.reset (.write 0x00C#12 4 0x00C00030#32) 0x00000001#32 0x00C00030#32 0#32 = true := by
  decide +kernel
theorem test_r239_row3 :
    shows (busyWith 0x00C00030#32) (.write 0x00C#12 4 0x00000000#32) 0x00000405#32 0x00C00030#32 0x00000000#32 = true := by
  decide +kernel
theorem test_r239_row4 :
    shows { busyWith 0x00C00030#32 with err := true, ecode := 4#4 } .completion 0x00000406#32 0x00C00030#32 0#32 = true := by
  decide +kernel
theorem test_r239_row5 :
    shows { State.reset with lastCmd := 0x00C00030#32, done := true, err := true, ecode := 4#4 }
      (.write 0x008#12 4 0x00000006#32) 0x00000000#32 0x00C00030#32 0#32 = true := by decide +kernel
theorem test_v74 : shows State.reset (.write 0x00C#12 4 0x000000FF#32) 0x00000204#32 0#32 0x000000FF#32 = true := by
  decide +kernel
theorem test_v72 : shows State.reset (.write 0x00C#12 4 0xFF000010#32) 0x00000104#32 0#32 0xFF000010#32 = true := by
  decide +kernel
theorem test_v76 : shows State.reset (.write 0x00C#12 4 0x00F00030#32) 0x00000304#32 0#32 0x00F00030#32 = true := by
  decide +kernel
theorem test_v81 : shows State.reset (.write 0x00C#12 4 0x000FF034#32) 0x00000001#32 0x000FF034#32 0#32 = true := by
  decide +kernel

/-- P3, step 7: `EBUSYW` with the byte offset. -/
theorem test_p3_step7 :
    shows (busyWith 0x00600030#32) (.write 0x100#12 4 0x12345678#32) 0x00000505#32 0x00600030#32 0x00000100#32 = true := by
  decide +kernel

/-- P3, step 4: `rd32 0x102`. -/
theorem test_p3_step4 :
    goesTo (stepWith errored (.read 0x102#12 4)) (fun t => decide (t = { errored with response := .busError })) = true := by
  decide +kernel

/-- P3, step 12: soft reset, `IE` = 0 although bit 0 was 1. -/
theorem test_p3_step12 :
    goesTo (stepWith errored (.write 0x004#12 4 0x00000003#32)) (fun t => decide (t = { State.reset with response := .ack })) =
      true := by decide +kernel

/-- P3, steps 2 and 5: `irq` with `IE` = 1, and its clearing. -/
theorem test_irq :
    errored.irq = true ∧ goesTo (stepWith errored (.write 0x008#12 4 0x00000006#32)) (fun t => !t.irq) = true := by
  decide +kernel

/-- R74: limb −1 reads 0xFFFFFFFF at both halves. -/
theorem test_read_negative_limb :
    goesTo (stepWith (withF (elem [0, 0, -1]) (feOf 0)) (.read 0x890#12 4)) (fun t => decide (t.response = .data 0xFFFFFFFF#32)) =
      true ∧
    goesTo (stepWith (withF (elem [0, 0, -1]) (feOf 0)) (.read 0x894#12 4)) (fun t => decide (t.response = .data 0xFFFFFFFF#32)) =
      true := by decide +kernel

/-- P2, step 1: the first word of a buffer is its first four bytes. -/
theorem test_write_buffer_word :
    goesTo (stepWith State.reset (.write 0x21C#12 4 0x2A2CB91D#32))
      (fun t => decide (t.buf 0 = bytes 0x2a2cb91d00000000000000000000000000000000000000000000000000000000)) = true := by
  decide +kernel

/-- R43: `PHASE` reads 3 in state `ADDONE`. -/
theorem test_read_phase :
    goesTo (stepWith { State.reset with phase := .addone } (.read 0x014#12 4)) (fun t => decide (t.response = .data 3#32)) =
      true := by decide +kernel

/-- R83: a read of `STATUS` while busy is defined. -/
theorem test_read_status_busy :
    goesTo (stepWith (busyWith 0#32) (.read 0x008#12 4)) (fun t => decide (t.response = .data 1#32)) = true := by decide +kernel

/-- R282: a write while the reset input is asserted is lost. -/
theorem test_write_in_reset :
    goesTo (stepWith { State.reset with resetLine := true } (.write 0x004#12 4 1#32)) (fun t => !t.ie) = true := by
  decide +kernel

/-- A word placed at the fetch runs as the very next step, here `KEYLD b4`. -/
theorem test_withFetchWord :
    goesTo (step (State.reset.withFetchWord 32 0x00004036)) (fun t => t.done && !t.busy && decide (t.lastCmd = 0x00004036#32)) =
      true := by decide +kernel

/-- R71 at both ends of every range of the map: the reserved offsets. -/
theorem test_map_reserved :
    [0x018#12, 0x0FC#12, 0x0FF#12, 0x128#12, 0x13C#12, 0x178#12, 0x17C#12, 0x190#12, 0x1FC#12, 0x400#12, 0x7FC#12].map locate =
      List.replicate 11 .reserved := by decide

/-- R71 at both ends of every range of the map: the registers beside the reserved offsets. -/
theorem test_map_ends :
    [0x014#12, 0x100#12, 0x124#12, 0x140#12, 0x15C#12, 0x160#12, 0x174#12, 0x180#12, 0x18C#12, 0x200#12, 0x3FC#12, 0x800#12,
      0xFFC#12].map locate =
    [.phase, .sponge 0 .lo, .sponge 4 .hi, .key 0 .lo, .key 3 .hi, .iv .lo, .nonce 1 .hi, .din .lo, .dout .hi, .buf 0 0,
      .buf 15 7, .limb 0 0 .lo, .limb 15 15 .hi] := by decide

/-! ## Witnesses: for each statement with hypotheses, a state and operands that meet all of them together -/

/-- The busy state used below meets the invariant. -/
theorem busy_inv : (busyWith 0x00600030#32).Inv where
  busyPending := rfl
  pendingLast := fun w h => by cases h; rfl
  lastAccepted := by decide
  busyNotDone := fun _ => rfl
  errClear := fun _ => ⟨rfl, rfl⟩
  errRecorded := fun h => by cases h
  heldInReset := fun h => by cases h

/-- A state that meets the invariant with an error recorded (an `EILLOP` word). -/
theorem errored_inv : errored.Inv where
  busyPending := rfl
  pendingLast := fun w h => by cases h
  lastAccepted := by decide
  busyNotDone := fun h => by cases h
  errClear := fun h => by cases h
  errRecorded := fun _ => ⟨.eillop, rfl, by unfold recordedInfo; decide⟩
  heldInReset := fun h => by cases h

theorem witness_ResetGivesEveryRegisterItsValue :
    ∃ s t : State, s ≠ State.reset ∧ t = applyReset s := ⟨errored, _, by decide +kernel, rfl⟩

theorem witness_StepKeepsInvariant : ∃ s t : State, s.Inv ∧ s ≠ State.reset ∧ step s = .next t :=
  ⟨_, _, busy_inv, by decide +kernel, rfl⟩

theorem witness_StepNeverStops : ∃ s : State, s.Inv ∧ s.busy = true ∧ s.pending.isSome = true := ⟨_, busy_inv, rfl, rfl⟩

theorem witness_HardwareResetEndsInResetState :
    ∃ es : List Event, es.length = 3 ∧ Event.resetRelease ∉ es :=
  ⟨[.write 0x180#12 4 5#32, .resetAssert, .completion], rfl, by decide⟩

theorem witness_DecodeOfEncode : Instr.wellFormed (.perm 12) = true ∧ Instr.wellFormed (.fcswap 15 0 true) = true := by decide

theorem witness_AcceptedWordIsItsCommandsEncoding : decode 0x00E21016#32 = .accept (.fcswap 1 2 false) := by decide

theorem witness_IgnoredFieldsDoNotMatter :
    decode 0x00021016#32 = .accept (.fcswap 1 2 false) ∧
    0x00E21F16#32 &&& usedBits (.fcswap 1 2 false) = 0x00021016#32 &&& usedBits (.fcswap 1 2 false) := by decide

/-- Both ways the core's turn comes. -/
theorem witness_StepRunsPendingCommand :
    (∃ (s t : State), s.busy = true ∧ s.resetLine = false ∧ s.pending = some 0x00000000#32 ∧
      decode 0x00000000#32 = .accept .nop ∧ s.inputs = [] ∧ exec .nop { s with inputs := s.inputs.tail } = .next t) ∧
    (∃ (s t : State), s.busy = true ∧ s.resetLine = false ∧ s.pending = some 0x00000000#32 ∧
      s.inputs = .completion :: [.resetAssert] ∧ exec .nop { s with inputs := s.inputs.tail } = .next t) :=
  ⟨⟨busyWith 0#32, _, rfl, rfl, rfl, by decide, rfl, rfl⟩,
    ⟨{ busyWith 0#32 with inputs := [.completion, .resetAssert] }, _, rfl, rfl, rfl, rfl, rfl⟩⟩

theorem witness_CompletionSetsDoneNeverErr : ∃ s : State, s.Inv ∧ s.busy = true ∧ s.inputs = [] := ⟨_, busy_inv, rfl, rfl⟩

theorem witness_AcceptedCommandBecomesPending :
    ∃ s : State, s.inputs = .write 0x00C#12 4 0x00C00030#32 :: [] ∧ s.busy = false ∧ s.resetLine = false ∧
      decode 0x00C00030#32 = .accept (.perm 12) :=
  ⟨{ errored with inputs := [.write 0x00C#12 4 0x00C00030#32] }, rfl, rfl, rfl, by decide⟩

/-- Each of the three rejections, with no error recorded and with one. -/
theorem witness_RejectedCommandOnlyRecordsError :
    (∃ s : State, s.inputs = .write 0x00C#12 4 0x01000000#32 :: [] ∧ s.busy = false ∧ s.resetLine = false ∧ s.err = false ∧
      decode 0x01000000#32 = .reject .ersv ∧ decode 0x000000FF#32 = .reject .eillop ∧ decode 0x00D00030#32 = .reject .erounds) ∧
    (∃ s : State, s.inputs = .write 0x00C#12 4 0x01000000#32 :: [] ∧ s.busy = false ∧ s.resetLine = false ∧ s.err = true) :=
  ⟨⟨{ State.reset with inputs := [.write 0x00C#12 4 0x01000000#32] }, rfl, rfl, rfl, rfl, by decide, by decide, by decide⟩,
    ⟨{ errored with inputs := [.write 0x00C#12 4 0x01000000#32] }, rfl, rfl, rfl, rfl⟩⟩

theorem witness_CommandWhileBusyIsDropped :
    ∃ s : State, s.inputs = .write 0x00C#12 4 0xFFFFFFFF#32 :: [] ∧ s.busy = true ∧ s.resetLine = false :=
  ⟨{ busyWith 0#32 with inputs := [.write 0x00C#12 4 0xFFFFFFFF#32] }, rfl, rfl, rfl⟩

theorem witness_CommandResultIndependentOfLatency :
    Instr.wellFormed (.perm 1) = true ∧ errored.busy = false ∧ errored.resetLine = false := by decide

theorem witness_FirstErrorWins : ∃ s t : State, s.err = true ∧ step s = .next t :=
  ⟨{ errored with inputs := [.write 0x00C#12 4 0x01000000#32] }, _, rfl, rfl⟩

/-- Each of the five ways an error is recorded. -/
theorem witness_ErrorsComeOnlyFromInterfaceMisuse :
    goesTo (stepWith (busyWith 0#32) (.write 0x00C#12 4 7#32)) (fun t => t.err) = true ∧
    goesTo (stepWith State.reset (.write 0x00C#12 4 0x01000000#32)) (fun t => t.err) = true ∧
    goesTo (stepWith State.reset (.write 0x00C#12 4 0x000000FF#32)) (fun t => t.err) = true ∧
    goesTo (stepWith State.reset (.write 0x00C#12 4 0x00000030#32)) (fun t => t.err) = true ∧
    goesTo (stepWith (busyWith 0#32) (.write 0xFFC#12 4 7#32)) (fun t => t.err) = true ∧
    State.reset.err = false ∧ (busyWith 0#32).err = false := by decide +kernel

/-- The first and the last writable data register of the map, while idle. -/
theorem witness_IdleDataWriteStoresOneWord :
    (0x100#12).toNat % 4 = 0 ∧ (locate 0x100#12).isWritableData = true ∧ (0xFFC#12).toNat % 4 = 0 ∧
    (locate 0xFFC#12).isWritableData = true ∧ errored.busy = false ∧ errored.resetLine = false := by decide

/-- The first and the last writable data register of the map, while busy. -/
theorem witness_BusyDataWriteIsDropped :
    (locate 0x100#12).isWritableData = true ∧ (locate 0xFFC#12).isWritableData = true ∧ (busyWith 0#32).busy = true ∧
    (busyWith 0#32).resetLine = false := by decide

theorem witness_ReadOnlyAndReservedIgnoreWrites :
    [0x000#12, 0x010#12, 0x014#12, 0x188#12, 0x18C#12, 0x7FC#12].map locate =
      [.id, .errInfo, .phase, .dout .lo, .dout .hi, .reserved] := by decide

theorem witness_BusyDataReadIsAFreeDraw :
    (locate 0x014#12).isData = true ∧ (locate 0xFFC#12).isData = true ∧ (busyWith 0#32).busy = true ∧
    (busyWith 0#32).resetLine = false := by decide

/-- A data register while idle; a control register and a reserved offset while busy. -/
theorem witness_DefinedReadReturnsTheRegister :
    (errored.busy = false ∧ (locate 0x188#12).isData = true) ∧
    ((busyWith 0#32).busy = true ∧ (locate 0x010#12).isData = false ∧ (locate 0x7FC#12).isData = false) := by decide

/-- A narrow, a wide and a misaligned access. -/
theorem witness_IllegalAccessGetsBusError :
    (2 ≠ 4 ∧ (0x008#12).toNat % 4 = 0) ∧ (8 ≠ 4) ∧ (0x102#12).toNat % 4 ≠ 0 ∧ (0xFFF#12).toNat % 4 ≠ 0 := by decide

theorem witness_StatusWriteOneToClear :
    ∃ s : State, s.inputs = .write 0x008#12 4 6#32 :: [] ∧ s.resetLine = false ∧ s.err = true ∧ s.done = true :=
  ⟨{ errored with inputs := [.write 0x008#12 4 6#32] }, rfl, rfl, rfl, rfl⟩

/-- A soft reset while busy, and a write of `IE`. -/
theorem witness_CtrlWriteSoftResetsOrSetsIe :
    (∃ s : State, s.inputs = .write 0x004#12 4 3#32 :: [] ∧ s.resetLine = false ∧ s.busy = true) ∧
    (3#32).getLsbD 1 = true ∧ (1#32).getLsbD 1 = false :=
  ⟨⟨{ busyWith 0#32 with inputs := [.write 0x004#12 4 3#32] }, rfl, rfl, rfl⟩, by decide, by decide⟩

/-- Sources at the ends of the range in which no limb wraps. -/
theorem witness_FaddAddsLimbwise :
    ∀ j : Fin 16, -2 ^ 63 ≤ ((elem [2 ^ 62, -2 ^ 63])[j]).toInt + ((elem [2 ^ 62 - 1, 0])[j]).toInt ∧
      ((elem [2 ^ 62, -2 ^ 63])[j]).toInt + ((elem [2 ^ 62 - 1, 0])[j]).toInt < 2 ^ 63 := by decide +kernel

/-- Sources at the ends of the range in which no limb wraps. -/
theorem witness_FsubSubtractsLimbwise :
    ∀ j : Fin 16, -2 ^ 63 ≤ ((elem [2 ^ 62, -2 ^ 63])[j]).toInt - ((elem [1 - 2 ^ 62, 0])[j]).toInt ∧
      ((elem [2 ^ 62, -2 ^ 63])[j]).toInt - ((elem [1 - 2 ^ 62, 0])[j]).toInt < 2 ^ 63 := by decide +kernel

theorem witness_FmulMultipliesValues : limbsWithin (2 ^ 26) (elem [2 ^ 26, -2 ^ 26, 5]) := by
  unfold limbsWithin; decide +kernel

theorem witness_FcarIsOneCarryPass : limbsWithin (2 ^ 62 - 1) (elem [2 ^ 62 - 1, 1 - 2 ^ 62]) := by
  unfold limbsWithin; decide +kernel

theorem witness_FinvIsThePowerPMinusTwo : limbsWithin (2 ^ 26) (elem [2]) := by unfold limbsWithin; decide +kernel

theorem witness_FpackIsTheCanonicalEncoding : limbsWithin (2 ^ 62 - 1) (elem [-19]) := by unfold limbsWithin; decide +kernel

/-- A buffer that holds `09 00 … 00`. -/
theorem witness_SmultbIsSmultOfTheBasePoint : le256 ((withB 0 9).buf 1) = 9 := by decide +kernel

/-- Two scalars that differ in clamped bits only. -/
theorem witness_ClampedScalarsDecideTheOutput :
    bytes 7 ≠ bytes (2 ^ 255) ∧ le256 (bytes 7) / 8 % 2 ^ 251 = le256 (bytes (2 ^ 255)) / 8 % 2 ^ 251 := by decide +kernel

theorem witness_PermutationIsBijective : 1 ≤ 1 ∧ 1 ≤ 12 ∧ 12 ≤ 12 := by decide

/-- A word with the least and a word with the largest legal round count. -/
theorem witness_PermRunsItsRounds :
    (rsvField 0x00100030#32 = 0#8 ∧ opcodeField 0x00100030#32 = 0x30#8 ∧ (immField 0x00100030#32).toNat = 1) ∧
    (rsvField 0x00C00030#32 = 0#8 ∧ opcodeField 0x00C00030#32 = 0x30#8 ∧ (immField 0x00C00030#32).toNat = 12) := by decide

/-- A word with each kind of illegal round count. -/
theorem witness_IllegalRoundCountNeverRuns :
    (opcodeField 0x00000030#32 = 0x30#8 ∧ (immField 0x00000030#32).toNat = 0) ∧
    (opcodeField 0x00D00030#32 = 0x30#8 ∧ (immField 0x00D00030#32).toNat = 13) := by decide

/-- The words the opcode clauses of the command statements speak of. -/
theorem witness_opcode_clauses :
    [0x000FFF00#32, 0x00F21310#32, 0x00F21311#32, 0x00F21312#32, 0x00FF1313#32, 0x00FF1314#32, 0x00FF1315#32, 0x00121F16#32,
      0x00FF1317#32, 0x00FF1318#32, 0x00F21320#32, 0x00FF1321#32, 0x001FFF31#32, 0x00FFFF32#32, 0x00FFFF33#32, 0x00FFFF34#32,
      0x00FFFF35#32, 0x00FF4F36#32].all (fun w => decide (rsvField w = 0#8)) = true := by decide

/-- The events of each kind, and one command that completes. -/
theorem witness_PhaseFollowsTheTable :
    Instr.wellFormed .final = true ∧ goesTo (exec .final State.reset) (fun _ => true) = true ∧
    goesTo (stepWith errored (.read 0x014#12 4)) (fun _ => true) = true ∧
    goesTo (stepWith (v67 (Vector.replicate 5 1#64) .stream 0#64) (.write 0x004#12 4 2#32)) (fun t => decide (t.phase = .idle)) =
      true ∧
    goesTo (stepWith (v67 (Vector.replicate 5 1#64) .stream 0#64) .resetAssert) (fun t => decide (t.phase = .idle)) = true := by
  decide +kernel

theorem witness_UpperKeyWordsAreNeverRead : ∃ t, exec (.init true) (v67 (Vector.replicate 5 7#64) .stream 0#64) = .next t :=
  ⟨_, rfl⟩

theorem witness_EncryptTwiceIsIdentity : errored.busy = false ∧ errored.resetLine = false := by decide

theorem witness_AssociatedDataSequence : errored.busy = false ∧ errored.resetLine = false := by decide

theorem witness_WindowIs4096BytesAtBase : ∃ addr : Nat, addr < Config.base ∨ Config.base + 4096 ≤ addr :=
  ⟨Config.base + 4096, .inr (Nat.le_refl _)⟩

end Sys2Proof.Tests
end

/-!
The family of the state (10_state.md): the invariant and what keeps it (O2, O3), the `STATUS` write (O27), the interrupt output
as the window shows it (O19), and the key words no command reads (O57).
-/

namespace Sys2Proof.Machine

/-! ### The registers the invariant speaks of -/

/-- `t` has the status bits, the command words and the reset line of `s`: all that `State.Inv` speaks of, but for its last
clause. -/
structure FlagsKept (s t : State) : Prop where
  busy : t.busy = s.busy
  done : t.done = s.done
  err : t.err = s.err
  ecode : t.ecode = s.ecode
  lastCmd : t.lastCmd = s.lastCmd
  errInfo : t.errInfo = s.errInfo
  pending : t.pending = s.pending
  resetLine : t.resetLine = s.resetLine

theorem ControlKept.flagsKept {s t : State} (h : ControlKept s t) : FlagsKept s t where
  busy := h.busy
  done := h.done
  err := h.err
  ecode := h.ecode
  lastCmd := h.lastCmd
  errInfo := h.errInfo
  pending := h.pending
  resetLine := h.resetLine

/-- A store in a data region touches no control register (R72 to R74). -/
theorem poke_flagsKept (s : State) (l : Loc) (v : Word) : FlagsKept s (s.poke l v) := by
  cases l <;> constructor <;> rfl

/-- The invariant carries over to a state with the same flags that meets the reset clause. -/
theorem State.Inv.of_flagsKept {s t : State} (hs : s.Inv) (h : FlagsKept s t)
    (held : t.resetLine = true → applyReset t = t) : t.Inv where
  busyPending := by rw [h.busy, h.pending]; exact hs.busyPending
  pendingLast := by rw [h.pending, h.lastCmd]; exact hs.pendingLast
  lastAccepted := by rw [h.lastCmd]; exact hs.lastAccepted
  busyNotDone := by rw [h.busy, h.done]; exact hs.busyNotDone
  errClear := by rw [h.err, h.ecode, h.errInfo]; exact hs.errClear
  errRecorded := by rw [h.err, h.ecode, h.errInfo]; exact hs.errRecorded
  heldInReset := held

/-- With the reset line released the last clause of the invariant says nothing, so the flags decide. -/
theorem State.Inv.of_released {s t : State} (hs : s.Inv) (hr : s.resetLine = false) (h : FlagsKept s t) : t.Inv :=
  hs.of_flagsKept h fun ht => by rw [h.resetLine, hr] at ht; cases ht

/-! ### Updates that keep the invariant under reset too -/

theorem State.Inv.popInput {s : State} (hs : s.Inv) : (popInput s).Inv :=
  hs.of_flagsKept ⟨rfl, rfl, rfl, rfl, rfl, rfl, rfl, rfl⟩ fun h => congrArg Machine.popInput (hs.heldInReset h)

theorem State.Inv.respond {s : State} (hs : s.Inv) (r : Response) : (respond s r).Inv :=
  hs.of_flagsKept ⟨rfl, rfl, rfl, rfl, rfl, rfl, rfl, rfl⟩ fun h => congrArg (Machine.respond · r) (hs.heldInReset h)

theorem State.Inv.freeRead {s : State} (hs : s.Inv) : (freeRead s).Inv :=
  hs.of_flagsKept ⟨rfl, rfl, rfl, rfl, rfl, rfl, rfl, rfl⟩ fun h => congrArg Machine.freeRead (hs.heldInReset h)

/-- Every reset ends in a state that meets the invariant, whatever state it comes from (R281, R283). -/
theorem applyReset_inv (s : State) : (applyReset s).Inv where
  busyPending := rfl
  pendingLast := fun _ h => by cases h
  lastAccepted := by rw [applyReset_lastCmd]; decide
  busyNotDone := fun _ => rfl
  errClear := fun _ => ⟨rfl, rfl⟩
  errRecorded := fun h => by cases h
  heldInReset := fun _ => applyReset_applyReset s

/-- Asserting the reset input is a reset of the state whose line is up (R282). -/
theorem assertReset_inv (s : State) : (assertReset s).Inv :=
  applyReset_inv { s with resetLine := true }

theorem State.Inv.releaseReset {s : State} (hs : s.Inv) : (releaseReset s).Inv where
  busyPending := hs.busyPending
  pendingLast := hs.pendingLast
  lastAccepted := hs.lastAccepted
  busyNotDone := hs.busyNotDone
  errClear := hs.errClear
  errRecorded := hs.errRecorded
  heldInReset := fun h => by cases h

theorem State.Inv.hostRead {s : State} (hs : s.Inv) (off : Offset) (size : Nat) : (hostRead s off size).Inv := by
  obtain ⟨r, h⟩ | h := hostRead_cases s off size
  · rw [h]; exact hs.respond r
  · rw [h]; exact hs.freeRead

/-! ### Updates made with the reset line released -/

section Released
variable {s : State} (hs : s.Inv) (hr : s.resetLine = false)
include hs hr

/-- Recording an error with the datum that belongs to its code (R251, R252): the first error's pair stands. -/
theorem State.Inv.recordError (e : ErrorCode) (info : Word) (he : recordedInfo e info) : (recordError s e info).Inv where
  busyPending := by simpa using hs.busyPending
  pendingLast := by simpa using hs.pendingLast
  lastAccepted := by simpa using hs.lastAccepted
  busyNotDone := by simpa using hs.busyNotDone
  errClear := fun h => by simp at h
  errRecorded := fun _ => by
    cases herr : s.err with
    | false => exact ⟨e, by simp [herr], by simpa [herr] using he⟩
    | true => simpa [herr] using hs.errRecorded herr
  heldInReset := fun h => by simp [hr] at h

theorem State.Inv.writeStatus (v : Word) : (writeStatus s v).Inv where
  busyPending := by simpa using hs.busyPending
  pendingLast := by simpa using hs.pendingLast
  lastAccepted := by simpa using hs.lastAccepted
  busyNotDone := fun h => by simp [hs.busyNotDone (by simpa using h)]
  errClear := fun h => by
    cases hv : v[2] with
    | true => simp [hv]
    | false => simpa [hv] using hs.errClear (by simpa [hv] using h)
  errRecorded := fun h => by
    obtain ⟨herr, hv⟩ : s.err = true ∧ v[2] = false := by simpa using h
    simpa [hv] using hs.errRecorded herr
  heldInReset := fun h => by simp [hr] at h

theorem State.Inv.writeCtrl (v : Word) : (writeCtrl s v).Inv := by
  unfold Machine.writeCtrl
  split
  · exact applyReset_inv s
  · exact hs.of_released hr ⟨rfl, rfl, rfl, rfl, rfl, rfl, rfl, rfl⟩

/-- Every `CMD` write while idle clears `DONE` (R231). -/
theorem State.Inv.clearDone : ({ s with done := false } : State).Inv where
  busyPending := hs.busyPending
  pendingLast := hs.pendingLast
  lastAccepted := hs.lastAccepted
  busyNotDone := fun _ => rfl
  errClear := hs.errClear
  errRecorded := hs.errRecorded
  heldInReset := fun h => absurd h (by simp [hr])

/-- Accepting a word the decoder accepts, with `DONE` clear (R231). -/
theorem State.Inv.acceptWord {w : Word} {i : Instr} (hd : decode w = .accept i) (hdone : s.done = false) :
    (acceptWord s w).Inv where
  busyPending := rfl
  pendingLast := fun _ h => (Option.some.inj h).symm
  lastAccepted := by simp [hd, Decoded.isAccept]
  busyNotDone := fun _ => hdone
  errClear := hs.errClear
  errRecorded := hs.errRecorded
  heldInReset := fun h => by simp [hr] at h

/-- Completion's last three lines (R232). -/
theorem State.Inv.retire : (retire s).Inv where
  busyPending := rfl
  pendingLast := fun _ h => by cases h
  lastAccepted := hs.lastAccepted
  busyNotDone := fun h => by cases h
  errClear := hs.errClear
  errRecorded := hs.errRecorded
  heldInReset := fun h => by simp [hr] at h

theorem State.Inv.writeCmd (w : Word) : (writeCmd s w).Inv := by
  obtain ⟨-, h⟩ | ⟨-, e, hd, h⟩ | ⟨-, i, hd, h⟩ := writeCmd_cases s w
  · rw [h]
    exact hs.recordError hr .ebusyc w trivial
  · rw [h]
    have hinfo : recordedInfo (rejectCode e) w := by cases e <;> exact hd
    exact (hs.clearDone hr).recordError hr (rejectCode e) w hinfo
  · rw [h]
    exact (hs.clearDone hr).acceptWord hr hd rfl

theorem State.Inv.writeLoc (off : Offset) (v : Word) (h4 : off.toNat % 4 = 0) : (writeLoc s off v).Inv := by
  obtain ⟨-, h⟩ | ⟨-, h⟩ | ⟨-, h⟩ | ⟨hl, -, h⟩ | ⟨-, -, h⟩ | ⟨-, h⟩ := writeLoc_cases s off v
  · rw [h]; exact hs.writeCtrl hr v
  · rw [h]; exact hs.writeStatus hr v
  · rw [h]; exact hs.writeCmd hr v
  · rw [h]; exact hs.recordError hr .ebusyw _ ⟨off, rfl, h4, hl⟩
  · rw [h]; exact hs.of_released hr (poke_flagsKept s _ v)
  · rw [h]; exact hs

end Released

theorem State.Inv.hostWrite {s : State} (hs : s.Inv) (off : Offset) (size : Nat) (v : Word) :
    (hostWrite s off size v).Inv := by
  obtain ⟨r, h, -⟩ | ⟨hlegal, hr, h⟩ := hostWrite_cases s off size v
  · rw [h]; exact hs.respond r
  · rw [h]; exact (hs.writeLoc hr off v ((legalAccess_iff off size).mp hlegal).2).respond .ack

theorem completionEnabled_iff (s : State) : completionEnabled s = true ↔ s.busy = true ∧ s.resetLine = false := by
  simp [completionEnabled]

/-- Settles O2: the reset state is a reset of itself. -/
theorem resetMeetsInvariant : Obligations.ResetMeetsInvariant :=
  applyReset_inv State.reset

/-- Settles O3, event by event: each event's update keeps the invariant. -/
theorem stepKeepsInvariant : Obligations.StepKeepsInvariant := by
  intro s t hs h
  have hp := hs.popInput
  obtain ⟨-, -, rfl⟩ | ⟨-, hen, _, _, r, -, -, he, rfl⟩ | ⟨off, size, _, -, rfl⟩ | ⟨off, size, v, _, -, rfl⟩ |
    ⟨_, -, rfl⟩ | ⟨_, -, rfl⟩ := step_cases h
  · exact hp
  · obtain ⟨-, hr⟩ := (completionEnabled_iff s).mp hen
    have hk := exec_controlKept _ _ _ he
    exact (hp.of_released hr hk.flagsKept).retire (hk.resetLine.trans hr)
  · exact hp.hostRead off size
  · exact hp.hostWrite off size v
  · exact assertReset_inv _
  · exact hp.releaseReset

/-! ### A write to `STATUS` -/

/-- The step of an aligned 32-bit write with the reset line released. -/
theorem step_write (s : State) (off : Offset) (v : Word) (rest : List Event) (hi : s.inputs = .write off 4 v :: rest)
    (hr : s.resetLine = false) (h4 : off.toNat % 4 = 0) :
    step s = .next (respond (writeLoc (popInput s) off v) .ack) := by
  have hlegal : legalAccess off 4 = true := (legalAccess_iff off 4).mpr ⟨rfl, h4⟩
  rw [step_of_cons s _ _ hi]
  simp [applyEvent, hostWrite, hlegal, hr]

theorem writeLoc_status (s : State) (v : Word) : writeLoc s 0x008#12 v = writeStatus s v := by
  have hl : locate 0x008#12 = .status := by decide
  simp [writeLoc, hl]

/-- Settles O27: the step is `writeStatus`, which the laws of the state read field by field. -/
theorem statusWriteOneToClear : Obligations.StatusWriteOneToClear := by
  intro s v rest hi hr
  refine ⟨respond (writeStatus (popInput s) v) .ack, ?_, by simp, by simp, by simp, by simp, by simp, fun l h1 h2 => ?_,
    by simp, by simp [popInput, hi]⟩
  · rw [step_write s _ v rest hi hr (by decide), writeLoc_status]
  · rw [peek_respond, peek_writeStatus _ v l h1 h2, peek_popInput]

/-! ### The interrupt output and the words a host reads -/

theorem getElem_bitWord (x : Bool) (place i : Nat) (hi : i < 32) : (bitWord x place)[i] = (decide (i = place) && x) := by
  by_cases h : i = place
  · subst h; simp [bitWord]
  · have : i < place ∨ i - place ≠ 0 := by omega
    rcases this with k | k <;> simp [bitWord, h, k]

@[simp] theorem ctrlWord_zero (s : State) : (ctrlWord s)[0] = s.ie := by
  simp [ctrlWord, getElem_bitWord]

@[simp] theorem statusWord_one (s : State) : (statusWord s)[1] = s.done := by
  simp [statusWord, getElem_bitWord]

@[simp] theorem statusWord_two (s : State) : (statusWord s)[2] = s.err := by
  simp [statusWord, getElem_bitWord]

/-- Settles O19: the three bits the host reads are the three fields `irq` is made of. -/
theorem irqIsEnabledDoneOrErr : Obligations.IrqIsEnabledDoneOrErr := by
  intro s
  simp [State.irq, State.peek]

/-! ### The key words a command reads -/

section KeyHead
variable {k k' : Vector Word64 4} (h0 : k'[0] = k[0]) (h1 : k'[1] = k[1])
include h0 h1

theorem addKeyTail_congr (x : Sponge) : addKeyTail x k' = addKeyTail x k := by
  simp only [addKeyTail, h0, h1]

theorem addKeyHead_congr (x : Sponge) : addKeyHead x k' = addKeyHead x k := by
  simp only [addKeyHead, h0, h1]

end KeyHead

/-- A command run with another key register whose first two words are the same (R38): `KEYLD` overwrites the register, and any
other command leaves it and does to the rest of the state what it did before. -/
theorem exec_setKey (i : Instr) (s t : State) (k : Vector Word64 4) (h0 : k[0] = s.key[0]) (h1 : k[1] = s.key[1])
    (h : exec i s = .next t) :
    exec i (s.setKey k) = .next t ∨ (exec i (s.setKey k) = .next (t.setKey k) ∧ t.key = s.key) := by
  cases i with
  | keyld a => cases h; exact .inl rfl
  | perm rounds =>
    simp only [exec, execPerm] at h ⊢
    split at h <;> cases h
    rename_i hl
    exact .inr ⟨by rw [if_pos hl]; rfl, rfl⟩
  | init load =>
    cases h
    have hload : loadedSponge (s.setKey k) = loadedSponge s := by simp [loadedSponge, h0, h1]
    refine .inr ⟨?_, rfl⟩
    simp only [exec, execInit, hload, setKey_key, setKey_sponge, addKeyTail_congr h0 h1]
    rfl
  | final =>
    cases h
    refine .inr ⟨?_, rfl⟩
    simp only [exec, execFinal, setKey_key, setKey_sponge, addKeyTail_congr h0 h1, addKeyHead_congr h0 h1]
    rfl
  | _ => cases h; exact .inr ⟨rfl, rfl⟩

/-- Settles O57: the second run ends in the first one's state, up to the key register. -/
theorem upperKeyWordsAreNeverRead : Obligations.UpperKeyWordsAreNeverRead := by
  intro i s t k2 k3 h
  obtain hsame | ⟨hset, hkey⟩ := exec_setKey i s t #v[s.key[0], s.key[1], k2, k3] rfl rfl h
  · exact ⟨t, hsame, .refl _ t, rfl, rfl⟩
  · exact ⟨t.setKey _, hset, unchanged_setKey t _, by simp [hkey], by simp [hkey]⟩

end Sys2Proof.Machine

/-!
The family of the register window (20_memory.md): the map (O20) and where the window lies (O60), what a read answers (O24, O25)
and a bus error leaves alone (O26), which write is stored (O21) and which is ignored (O23).
-/

namespace Sys2Proof.Machine

/-! ### The register map (R71) -/

theorem locate_ofNat (o : Nat) (h : o < 4096) : locate (BitVec.ofNat 12 o) = locateNat o := by
  rw [locate, BitVec.toNat_ofNat, Nat.mod_eq_of_lt h]

theorem slot_eq {n : Nat} [NeZero n] {base stride o : Nat} (i : Fin n) (h : (o - base) / stride % n = i.val) :
    slot n base stride o = i :=
  Fin.ext h

/-- The buffers lie 32 bytes apart from 0x200, their words 4 (R73). -/
theorem locateNat_buf (k : BReg) (w : Fin 8) : locateNat (0x200 + 32 * k.val + 4 * w.val) = .buf k w := by
  unfold locateNat
  rw [if_neg (by omega), if_neg (by omega), if_pos (by omega), slot_eq k (by omega), slot_eq w (by omega)]

/-- The field registers lie 128 bytes apart from 0x800, their limbs 8 (R74). -/
theorem locateNat_limb (k j : Fin 16) (b : Nat) (hb : b < 8) :
    locateNat (0x800 + b + 128 * k.val + 8 * j.val) = .limb k j (halfOf b) := by
  have hhalf : halfOf (0x800 + b + 128 * k.val + 8 * j.val) = halfOf b := by
    unfold halfOf
    rw [show (0x800 + b + 128 * k.val + 8 * j.val) / 4 % 2 = b / 4 % 2 by omega]
  unfold locateNat
  rw [if_neg (by omega), if_neg (by omega), if_neg (by omega), if_neg (by omega), slot_eq k (by omega),
    slot_eq j (by omega), hhalf]

theorem controlLoc_reserved_iff : ∀ word : Nat, controlLoc word = .reserved ↔ 6 ≤ word
  | 0 | 1 | 2 | 3 | 4 | 5 => by decide
  | word + 6 => by simp [controlLoc]

theorem wordRegLoc_reserved_iff (o : Nat) :
    wordRegLoc o = .reserved ↔ 0x128 ≤ o ∧ o < 0x140 ∨ 0x178 ≤ o ∧ o < 0x180 ∨ 0x190 ≤ o := by
  unfold wordRegLoc
  repeat' split
  all_goals simp only [reduceCtorEq, true_iff, false_iff]; omega

/-- The reserved offsets of the map (R71, R80). -/
theorem locateNat_reserved_iff (o : Nat) : locateNat o = .reserved ↔
    0x018 ≤ o ∧ o < 0x100 ∨ 0x128 ≤ o ∧ o < 0x140 ∨ 0x178 ≤ o ∧ o < 0x180 ∨ 0x190 ≤ o ∧ o < 0x200 ∨
    0x400 ≤ o ∧ o < 0x800 := by
  unfold locateNat
  split
  · rw [controlLoc_reserved_iff]; omega
  split
  · rw [wordRegLoc_reserved_iff]; omega
  repeat' split
  all_goals simp only [reduceCtorEq, true_iff, false_iff]; omega

/-- Settles O20: the registers at 0x000 to 0x1FF are few and fixed; the buffers, the field registers and the reserved ranges have
their own laws. -/
theorem registerMapOffsets : Obligations.RegisterMapOffsets := by
  unfold Obligations.RegisterMapOffsets
  iterate 18 refine And.intro (by decide) ?_
  refine ⟨fun k w => ?buf, fun k j => ⟨?lo, ?hi⟩, fun off => locateNat_reserved_iff off.toNat⟩
  case buf => rw [locate_ofNat _ (by omega), locateNat_buf]
  case lo => rw [locate_ofNat _ (by omega)]; exact locateNat_limb k j 0 (by decide)
  case hi => rw [locate_ofNat _ (by omega)]; exact locateNat_limb k j 4 (by decide)

/-- Settles O60: `windowOffset`'s range test and its subtraction of `BASE`, on each side of the range. -/
theorem windowIs4096BytesAtBase : Obligations.WindowIs4096BytesAtBase := by
  refine ⟨fun off => ?_, fun addr h => ?_⟩
  · rw [windowOffset, if_pos (by omega), Nat.add_sub_cancel_left, BitVec.ofNat_toNat, BitVec.setWidth_eq]
  · rw [windowOffset, if_neg (by omega)]

/-! ### The list of events and `irq` around an access -/

theorem popInput_inputs_of_cons {s : State} {e : Event} {rest : List Event} (h : s.inputs = e :: rest) :
    (popInput s).inputs = rest := by
  simp [popInput, h]

@[simp] theorem irq_respond (s : State) (r : Response) : (respond s r).irq = s.irq := rfl

@[simp] theorem irq_popInput (s : State) : (popInput s).irq = s.irq := rfl

/-! ### Accesses that are not aligned 32-bit, and reads (R79, R81, R83) -/

theorem hostRead_illegal (s : State) (off : Offset) (size : Nat) (h : legalAccess off size = false) :
    hostRead s off size = respond s .busError :=
  if_pos h

theorem hostWrite_illegal (s : State) (off : Offset) (size : Nat) (v : Word) (h : legalAccess off size = false) :
    hostWrite s off size v = respond s .busError :=
  if_pos h

/-- An aligned 32-bit read with the reset line released. -/
theorem hostRead_aligned (s : State) (off : Offset) (h4 : off.toNat % 4 = 0) (hr : s.resetLine = false) :
    hostRead s off 4 =
      if s.busy && (locate off).isData then freeRead s else respond s (.data (s.peek (locate off))) := by
  have hlegal : legalAccess off 4 = true := (legalAccess_iff off 4).mpr ⟨rfl, h4⟩
  simp [hostRead, hlegal, hr]

/-- Settles O26: both accesses answer `bus_error` before anything else is looked at. -/
theorem illegalAccessGetsBusError : Obligations.IllegalAccessGetsBusError := by
  intro s off size v rest hi hbad
  have hillegal : legalAccess off size = false := by
    rw [Bool.eq_false_iff, ne_eq, legalAccess_iff]
    tauto
  have hstep : step s = .next (respond (popInput s) .busError) := by
    obtain hi | hi := hi
    · rw [step_of_cons s _ _ hi, applyEvent, hostRead_illegal _ _ _ hillegal]
    · rw [step_of_cons s _ _ hi, applyEvent, hostWrite_illegal _ _ _ _ hillegal]
  have hrest : (popInput s).inputs = rest := hi.elim popInput_inputs_of_cons popInput_inputs_of_cons
  exact ⟨_, hstep, by simp, by simp, by simp, by simp, by simpa using hrest, by simp⟩

/-- Settles O24: busy and at a data location, the read's guard for free draws holds. -/
theorem busyDataReadIsAFreeDraw : Obligations.BusyDataReadIsAFreeDraw := by
  intro s off rest hi h4 hdata hbusy hr
  have hread : hostRead (popInput s) off 4 = freeRead (popInput s) := by
    rw [hostRead_aligned _ off h4 (by simpa using hr)]
    simp [hbusy, hdata]
  refine ⟨freeRead (popInput s), ?_, by simp, by simp, by simp, by simp, by simpa using popInput_inputs_of_cons hi⟩
  rw [step_of_cons s _ _ hi, applyEvent, hread]

/-- Settles O25: idle, or at a location that is no data, the read's guard for free draws fails. -/
theorem definedReadReturnsTheRegister : Obligations.DefinedReadReturnsTheRegister := by
  intro s off rest hi h4 hdefined hr
  have hread : hostRead (popInput s) off 4 = respond (popInput s) (.data (s.peek (locate off))) := by
    rw [hostRead_aligned _ off h4 (by simpa using hr), if_neg, peek_popInput]
    obtain hbusy | hdata := hdefined
    · simp [hbusy]
    · simp [hdata]
  refine ⟨respond (popInput s) _, ?_, rfl, by simp, by simp, by simp, by simpa using popInput_inputs_of_cons hi⟩
  rw [step_of_cons s _ _ hi, applyEvent, hread]

/-! ### What the host's write stores (R80 to R84) -/

/-- The locations whose writes are ignored are none of the writable data regions. -/
theorem isWritableData_of_readOnly :
    ∀ l ∈ [Loc.id, .errInfo, .phase, .dout .lo, .dout .hi, .reserved], l.isWritableData = false := by
  decide

/-- A write to a writable data region while idle is a store (R72 to R74). -/
theorem writeLoc_idleData (s : State) (off : Offset) (v : Word) (hl : (locate off).isWritableData = true)
    (hb : s.busy = false) : writeLoc s off v = s.poke (locate off) v := by
  obtain ⟨e, -⟩ | ⟨e, -⟩ | ⟨e, -⟩ | ⟨-, hbusy, -⟩ | ⟨-, -, h⟩ | ⟨hro, -⟩ := writeLoc_cases s off v
  · rw [e] at hl; cases hl
  · rw [e] at hl; cases hl
  · rw [e] at hl; cases hl
  · rw [hb] at hbusy; cases hbusy
  · exact h
  · rw [isWritableData_of_readOnly _ hro] at hl; cases hl

/-- A write to a read-only register or a reserved offset is ignored (R80, R84). -/
theorem writeLoc_readOnly (s : State) (off : Offset) (v : Word)
    (hl : locate off ∈ [Loc.id, .errInfo, .phase, .dout .lo, .dout .hi, .reserved]) : writeLoc s off v = s := by
  have hdata := isWritableData_of_readOnly _ hl
  obtain ⟨e, -⟩ | ⟨e, -⟩ | ⟨e, -⟩ | ⟨hw, -, -⟩ | ⟨hw, -, -⟩ | ⟨-, h⟩ := writeLoc_cases s off v
  · rw [e] at hl; exact absurd hl (by decide)
  · rw [e] at hl; exact absurd hl (by decide)
  · rw [e] at hl; exact absurd hl (by decide)
  · rw [hdata] at hw; cases hw
  · rw [hdata] at hw; cases hw
  · exact h

theorem poke_inputs (s : State) (l : Loc) (v : Word) : (s.poke l v).inputs = s.inputs := by
  cases l <;> rfl

/-- Settles O21: the step is the store, and `peek_poke` reads it back at every location. -/
theorem idleDataWriteStoresOneWord : Obligations.IdleDataWriteStoresOneWord := by
  intro s off v rest hi h4 hl hb hr
  have hpeek (l : Loc) : (respond ((popInput s).poke (locate off) v) .ack).peek l =
      if locate off = l then v else s.peek l := by
    rw [peek_respond, peek_poke _ _ l v hl, peek_popInput]
  refine ⟨respond ((popInput s).poke (locate off) v) .ack, ?step, ?same, ?others, ?pending, ?inputs⟩
  case step => rw [step_write s off v rest hi hr h4, writeLoc_idleData _ off v hl (by simpa using hb)]
  case same => rw [hpeek, if_pos rfl]
  case others => exact fun l hne => by rw [hpeek, if_neg hne.symm]
  case pending => simpa using (poke_flagsKept (popInput s) (locate off) v).pending
  case inputs => rw [respond_inputs, poke_inputs, popInput_inputs_of_cons hi]

/-- Settles O23: under reset every write is lost, and with the line released `writeLoc` ignores this one. -/
theorem readOnlyAndReservedIgnoreWrites : Obligations.ReadOnlyAndReservedIgnoreWrites := by
  intro s off v rest hi h4 hl
  obtain ⟨r, hwrite⟩ : ∃ r, hostWrite (popInput s) off 4 v = respond (popInput s) r := by
    obtain ⟨r, h, -⟩ | ⟨-, -, h⟩ := hostWrite_cases (popInput s) off 4 v
    · exact ⟨r, h⟩
    · exact ⟨.ack, by rw [h, writeLoc_readOnly _ off v hl]⟩
  refine ⟨respond (popInput s) r, ?_, by simp, by simp, by simpa using popInput_inputs_of_cons hi⟩
  rw [step_of_cons s _ _ hi, applyEvent, hwrite]

end Sys2Proof.Machine

/-!
The family of the encoding (30_encoding.md): encoder and decoder agree on every bit a command uses (O6, O7) and the decoder reads
no other (O8), the decoder's checks in their order (O9), the words the spec writes out (O10), and illegal round counts (O49).
-/

namespace Sys2Proof.Machine

open Sys2Proof.Laws
open Sys2Proof.Laws.EncodedOpcode (opcodeOf)

/-! ### The fields as numbers (R101) -/

theorem toNat_opcodeField (w : Word) : (opcodeField w).toNat = w.toNat % 256 := by
  simp [opcodeField]

theorem toNat_immField (w : Word) : (immField w).toNat = w.toNat / 2 ^ 20 % 16 := by
  simp [immField, Nat.shiftRight_eq_div_pow]

theorem rsvField_eq_zero_iff (w : Word) : rsvField w = 0#8 ↔ w.toNat / 2 ^ 24 = 0 := by
  have htop : (rsvField w).toNat = w.toNat / 2 ^ 24 := by
    have := w.isLt
    simp [rsvField, Nat.shiftRight_eq_div_pow]
    omega
  rw [← BitVec.toNat_inj, htop]
  rfl

theorem legalRounds_iff (n : Nat) : legalRounds n = true ↔ 1 ≤ n ∧ n ≤ 12 := by
  simp [legalRounds]

theorem legalRounds_eq_false_iff (n : Nat) : legalRounds n = false ↔ n = 0 ∨ 13 ≤ n := by
  rw [Bool.eq_false_iff, ne_eq, legalRounds_iff]
  omega

/-! ### The fields of a masked word -/

theorem rsvField_and (w m : Word) : rsvField (w &&& m) = rsvField w &&& m.extractLsb' 24 8 :=
  BitVec.extractLsb'_and

theorem opcodeField_and (w m : Word) : opcodeField (w &&& m) = opcodeField w &&& m.extractLsb' 0 8 :=
  BitVec.extractLsb'_and

theorem immField_and (w m : Word) : immField (w &&& m) = immField w &&& m.extractLsb' 20 4 :=
  BitVec.extractLsb'_and

theorem dField_and (w m : Word) : dField (w &&& m) = (indexBits (dField w) &&& m.extractLsb' 8 4).toFin :=
  congrArg BitVec.toFin BitVec.extractLsb'_and

theorem aField_and (w m : Word) : aField (w &&& m) = (indexBits (aField w) &&& m.extractLsb' 12 4).toFin :=
  congrArg BitVec.toFin BitVec.extractLsb'_and

theorem bField_and (w m : Word) : bField (w &&& m) = (indexBits (bField w) &&& m.extractLsb' 16 4).toFin :=
  congrArg BitVec.toFin BitVec.extractLsb'_and

/-- A masked word is assembled from its masked fields (R101, R106). -/
theorem and_eq_assemble (w m : Word) (h : rsvField w = 0#8) :
    w &&& m = assemble (immField w &&& m.extractLsb' 20 4) (indexBits (bField w) &&& m.extractLsb' 16 4)
      (indexBits (aField w) &&& m.extractLsb' 12 4) (indexBits (dField w) &&& m.extractLsb' 8 4)
      (opcodeField w &&& m.extractLsb' 0 8) := by
  have hr : rsvField (w &&& m) = 0#8 := by rw [rsvField_and, h, BitVec.zero_and]
  have hfields := assemble_fields (w &&& m) hr
  simp only [immField_and, opcodeField_and, BitVec.extractLsb'_and] at hfields
  exact hfields.symm

/-- A field that is used whole. -/
theorem and_fifteen (x : BitVec 4) : x &&& 15#4 = x :=
  BitVec.and_allOnes

/-- `imm[0]` alone, as the field a one-bit immediate is encoded in (R103). -/
theorem flagBits_immFlag (w : Word) : flagBits (immFlag w) = immField w &&& 1#4 := by
  have h : ∀ x : BitVec 4, flagBits (x.getLsbD 0) = x &&& 1#4 := by decide
  exact h (immField w)

/-! ### The encoder's words under the decoder (R105, R107) -/

/-- The family `EncodedOpcode`, for every command at once. -/
theorem encode_rsv_and_opcode (i : Instr) : EncodedOpcode.Statement i := by
  cases i
  exacts [EncodedOpcode.nop, EncodedOpcode.fadd .., EncodedOpcode.fsub .., EncodedOpcode.fmul ..,
    EncodedOpcode.fsqr .., EncodedOpcode.fcar .., EncodedOpcode.finv .., EncodedOpcode.fcswap ..,
    EncodedOpcode.funpack .., EncodedOpcode.fpack .., EncodedOpcode.smult .., EncodedOpcode.smultb ..,
    EncodedOpcode.perm .., EncodedOpcode.init .., EncodedOpcode.adabs, EncodedOpcode.adend, EncodedOpcode.crypt,
    EncodedOpcode.final, EncodedOpcode.keyld ..]

/-- Settles O6: each command's opcode selects its own row, and the row reads the operands back. -/
theorem decodeOfEncode : Obligations.DecodeOfEncode := by
  intro i hi
  rw [decode_of_rsv _ (encode_rsv_and_opcode i).1]
  cases i with
  | perm rounds =>
    have hl : legalRounds rounds = true := hi
    obtain ⟨-, h12⟩ := (legalRounds_iff rounds).mp hl
    have himm : (BitVec.ofNat 4 rounds).toNat = rounds := by
      rw [BitVec.toNat_ofNat, Nat.mod_eq_of_lt (by omega)]
    simp [decodeOpcode, encode, hl, himm]
  | _ => simp [decodeOpcode, encode, immFlag]

/-! ### What the decoder answers (R107) -/

/-- The opcodes of R105, in the table's order. -/
def opcodeNumbers : List Nat :=
  [0x00, 0x10, 0x11, 0x12, 0x13, 0x14, 0x15, 0x16, 0x17, 0x18, 0x20, 0x21, 0x30, 0x31, 0x32, 0x33, 0x34, 0x35, 0x36]

theorem toNat_opcodeOf_mem (i : Instr) : (opcodeOf i).toNat ∈ opcodeNumbers := by
  cases i <;> simp [opcodeOf, opcodeNumbers]

/-- With `rsv` = 0 a word is accepted as the command whose encoding it is in the bits used, or fails one of the two later checks.
The mask is unfolded in a rewrite of its own: in one `simp` call with the rest, the kernel's check of the proof does not end. -/
theorem decodeOpcode_cases (w : Word) (hr : rsvField w = 0#8) :
    (∃ i, decodeOpcode w = .accept i ∧ opcodeField w = opcodeOf i ∧ w &&& usedBits i = encode i) ∨
    (decodeOpcode w = .reject .erounds ∧ opcodeField w = 0x30#8 ∧ legalRounds (immField w).toNat = false) ∨
    (decodeOpcode w = .reject .eillop ∧ (opcodeField w).toNat ∉ opcodeNumbers) := by
  generalize hd : decodeOpcode w = answer
  unfold decodeOpcode at hd
  split at hd
  case h_13 hop =>
    split at hd
    case isTrue hl =>
      refine .inl ⟨_, hd.symm, hop, ?_⟩
      rw [and_eq_assemble w _ hr, hop]
      simp only [usedBits]
      simp [encode, and_fifteen]
    case isFalse hl => exact .inr (.inl ⟨hd.symm, hop, by simpa using hl⟩)
  case h_20 =>
    refine .inr (.inr ⟨hd.symm, ?_⟩)
    simp_all [opcodeNumbers, ← BitVec.toNat_inj]
  all_goals
    rename_i hop
    refine .inl ⟨_, hd.symm, hop, ?_⟩
    rw [and_eq_assemble w _ hr, hop]
    simp only [usedBits]
    simp [encode, flagBits_immFlag, and_fifteen]

/-- Settles O7 from the one accepting case. -/
theorem acceptedWordIsItsCommandsEncoding : Obligations.AcceptedWordIsItsCommandsEncoding := by
  intro w i h
  refine ⟨wellFormed_of_accept w i h, ?_⟩
  have hr := rsv_of_accept w i h
  rw [decode_of_rsv w hr] at h
  obtain ⟨j, hd, -, henc⟩ | ⟨hd, -, -⟩ | ⟨hd, -⟩ := decodeOpcode_cases w hr <;> rw [hd] at h <;> cases h
  exact henc

/-! ### The bits the decoder reads (R108) -/

theorem rsvField_and_usedBits (w : Word) (i : Instr) : rsvField (w &&& usedBits i) = rsvField w := by
  have h : (usedBits i).extractLsb' 24 8 = BitVec.allOnes 8 := by cases i <;> simp only [usedBits] <;> decide
  rw [rsvField_and, h, BitVec.and_allOnes]

theorem opcodeField_and_usedBits (w : Word) (i : Instr) : opcodeField (w &&& usedBits i) = opcodeField w := by
  have h : (usedBits i).extractLsb' 0 8 = BitVec.allOnes 8 := by cases i <;> simp only [usedBits] <;> decide
  rw [opcodeField_and, h, BitVec.and_allOnes]

/-- A word with the opcode of `i` is decoded by the bits `i` uses. -/
theorem decode_and_usedBits (w : Word) (i : Instr) (hop : opcodeField w = opcodeOf i) :
    decode (w &&& usedBits i) = decode w := by
  unfold decode decodeOpcode
  rw [rsvField_and_usedBits, opcodeField_and_usedBits, hop]
  cases i
  all_goals simp only [opcodeOf, usedBits, immFlag, immField_and, dField_and, aField_and, bField_and]
  all_goals simp [and_fifteen]

/-- Settles O8: either word decodes as its used bits do, and those are the same. -/
theorem ignoredFieldsDoNotMatter : Obligations.IgnoredFieldsDoNotMatter := by
  intro w w' i h hsame
  obtain ⟨hwf, henc⟩ := acceptedWordIsItsCommandsEncoding w i h
  rw [henc] at hsame
  have hop : opcodeField w' = opcodeOf i := by
    rw [← opcodeField_and_usedBits w' i, hsame, (encode_rsv_and_opcode i).2]
  rw [← decode_and_usedBits w' i hop, hsame, decodeOfEncode i hwf]

/-! ### The decoder's rejections (R107) -/

theorem decodeOpcode_of_illegalRounds (w : Word) (hop : opcodeField w = 0x30#8)
    (hl : legalRounds (immField w).toNat = false) : decodeOpcode w = .reject .erounds := by
  simp [decodeOpcode, hop, hl]

theorem decodeOpcode_eq_erounds_iff (w : Word) (hr : rsvField w = 0#8) :
    decodeOpcode w = .reject .erounds ↔ opcodeField w = 0x30#8 ∧ legalRounds (immField w).toNat = false := by
  refine ⟨fun h => ?_, fun ⟨hop, hl⟩ => decodeOpcode_of_illegalRounds w hop hl⟩
  obtain ⟨i, hd, -, -⟩ | ⟨-, hop, hl⟩ | ⟨hd, -⟩ := decodeOpcode_cases w hr
  · rw [hd] at h; cases h
  · exact ⟨hop, hl⟩
  · rw [hd] at h; cases h

theorem decodeOpcode_eq_eillop_iff (w : Word) (hr : rsvField w = 0#8) :
    decodeOpcode w = .reject .eillop ↔ (opcodeField w).toNat ∉ opcodeNumbers := by
  obtain ⟨i, hd, hop, -⟩ | ⟨hd, hop, -⟩ | ⟨hd, hmem⟩ := decodeOpcode_cases w hr
  · simp [hd, hop, toNat_opcodeOf_mem]
  · simp [hd, hop, opcodeNumbers]
  · simp [hd, hmem]

/-- The check of `rsv` is not the opcode map's. -/
theorem decodeOpcode_ne_ersv (w : Word) (hr : rsvField w = 0#8) : decodeOpcode w ≠ .reject .ersv := by
  obtain ⟨i, hd, -, -⟩ | ⟨hd, -, -⟩ | ⟨hd, -⟩ := decodeOpcode_cases w hr <;> simp [hd]

theorem decode_of_rsv_ne (w : Word) (h : rsvField w ≠ 0#8) : decode w = .reject .ersv :=
  if_pos h

/-- Settles O9: on either side of the `rsv` check, each later check's own law, its fields read as numbers. -/
theorem decodeRejectsInOrder : Obligations.DecodeRejectsInOrder := by
  intro w
  rw [ne_eq, ← rsvField_eq_zero_iff]
  by_cases hr : rsvField w = 0#8
  · rw [decode_of_rsv w hr]
    refine ⟨?ersv, ?eillop, ?erounds⟩
    case ersv => simp [decodeOpcode_ne_ersv w hr, hr]
    case eillop =>
      rw [decodeOpcode_eq_eillop_iff w hr, toNat_opcodeField]
      exact (and_iff_right hr).symm
    case erounds =>
      rw [decodeOpcode_eq_erounds_iff w hr, ← BitVec.toNat_inj, toNat_opcodeField, Bool.eq_false_iff, ne_eq,
        legalRounds_iff, toNat_immField]
      exact (and_iff_right hr).symm
  · simp [decode_of_rsv_ne w hr, hr]

/-- Settles O10, word by word. -/
theorem specWordsDecode : Obligations.SpecWordsDecode := by
  unfold Obligations.SpecWordsDecode
  decide

/-! ### An illegal round count (R104) -/

theorem exec_perm_illegal (s : State) (rounds : Nat) (hl : legalRounds rounds = false) :
    exec (.perm rounds) s = .fault .illFormedRounds := by
  simp [exec, execPerm, hl]

/-- Settles O49: the decoder's last check, and the same check where `PERM` runs. -/
theorem illegalRoundCountNeverRuns : Obligations.IllegalRoundCountNeverRuns := by
  refine ⟨fun w hr hop himm => ?_, fun s rounds h => ?_⟩
  · rw [decode_of_rsv w hr]
    exact decodeOpcode_of_illegalRounds w hop ((legalRounds_eq_false_iff _).mpr himm)
  · exact exec_perm_illegal s rounds ((legalRounds_eq_false_iff rounds).mpr h)

end Sys2Proof.Machine

/-!
The family of the field commands (40_field.md). A carry pass is read as a split of the limb sum at 2^256 (`carryIn`, `carLow`), and
an element after enough passes as the digits of a number (`HasDigits`), which the trial subtractions of `pack` reduce mod `p`.
With these: sums and differences (O30, O31), products and powers (O32, O33, O34, O36), the carry pass (O35), the swap (O37) and the
byte strings (O38, O39, O40).
-/

namespace Sys2Proof.Machine

/-! ### A limb's integer (R10, R11) -/

theorem bmod_of_fits {x : Int} (hlo : -2 ^ 63 ≤ x) (hhi : x < 2 ^ 63) : x.bmod (2 ^ 64) = x :=
  Int.bmod_eq_of_le (by norm_num at *; omega) (by norm_num at *; omega)

theorem toInt_add_of_fits {x y : Limb} (hlo : -2 ^ 63 ≤ x.toInt + y.toInt) (hhi : x.toInt + y.toInt < 2 ^ 63) :
    (x + y).toInt = x.toInt + y.toInt := by
  rw [BitVec.toInt_add, bmod_of_fits hlo hhi]

theorem toInt_sub_of_fits {x y : Limb} (hlo : -2 ^ 63 ≤ x.toInt - y.toInt) (hhi : x.toInt - y.toInt < 2 ^ 63) :
    (x - y).toInt = x.toInt - y.toInt := by
  rw [BitVec.toInt_sub, bmod_of_fits hlo hhi]

theorem toInt_mul_of_fits {x y : Limb} (hlo : -2 ^ 63 ≤ x.toInt * y.toInt) (hhi : x.toInt * y.toInt < 2 ^ 63) :
    (x * y).toInt = x.toInt * y.toInt := by
  rw [BitVec.toInt_mul, bmod_of_fits hlo hhi]

@[simp] theorem toInt_sar (x : Limb) (n : Nat) : (sar x n).toInt = x.toInt / 2 ^ n := by
  rw [sar, BitVec.toInt_sshiftRight, Int.shiftRight_eq_div_pow]
  norm_cast

theorem toNat_and_mask16 (x : Limb) : (x &&& 0xFFFF#64).toNat = x.toNat % 2 ^ 16 := by
  rw [BitVec.toNat_and]
  exact Nat.and_two_pow_sub_one_eq_mod _ 16

theorem toInt_of_small {x : Limb} (h : x.toNat < 2 ^ 16) : x.toInt = x.toNat :=
  BitVec.toInt_eq_toNat_of_lt (by omega)

theorem toInt_and_mask16 (x : Limb) : (x &&& 0xFFFF#64).toInt = x.toInt % 2 ^ 16 := by
  have hmask := toNat_and_mask16 x
  rw [toInt_of_small (by omega), hmask, BitVec.toInt_eq_toNat_cond]
  split <;> omega

/-- Any limb shifted down by 16 places lies within 2^47. -/
theorem sar16_bounds (x : Limb) : -2 ^ 47 ≤ (sar x 16).toInt ∧ (sar x 16).toInt < 2 ^ 47 := by
  have hlo := BitVec.le_toInt x
  have hhi := BitVec.toInt_lt (x := x)
  rw [toInt_sar]
  omega

/-! ### The value of a field element (R14) -/

theorem limbSum_eq_sum (f : FieldElem) : limbSum f = ∑ j : Fin 16, f[j].toInt * 2 ^ (16 * j.val) :=
  (Fin.sum_univ_def _).symm

theorem coe_val (f : FieldElem) : (val f : Int) = limbSum f % fieldPrime :=
  Int.toNat_of_nonneg (Int.emod_nonneg _ (by decide))

theorem val_lt (f : FieldElem) : val f < fieldPrime := by
  have := Int.emod_lt_of_pos (limbSum f) (b := fieldPrime) (by decide)
  rw [← coe_val] at this
  exact_mod_cast this

theorem cast_val (f : FieldElem) : ((val f : Nat) : ZMod fieldPrime) = (limbSum f : ZMod fieldPrime) := by
  rw [← ZMod.intCast_mod (limbSum f), ← coe_val, Int.cast_natCast]

/-- The value is the one residue in [0, p). -/
theorem val_eq_of_cast {f : FieldElem} {N : Nat} (h : ((val f : Nat) : ZMod fieldPrime) = (N : Nat)) :
    val f = N % fieldPrime := by
  rwa [ZMod.natCast_eq_natCast_iff', Nat.mod_eq_of_lt (val_lt f)] at h

/-- Congruent sums have one value. -/
theorem val_eq_of_limbSum {f g : FieldElem} (q : Int) (h : limbSum f = limbSum g + q * fieldPrime) : val f = val g := by
  rw [val, val, h, Int.add_mul_emod_self_right]

theorem limbSum_set_zero (f : FieldElem) (x : Limb) : limbSum (f.set 0 x) = limbSum f - f[0].toInt + x.toInt := by
  simp only [limbSum_eq_sum, Fin.sum_univ_succ (n := 15)]
  simp only [Fin.getElem_fin, Fin.val_zero, Fin.val_succ, Vector.getElem_set_self, mul_zero, pow_zero, mul_one,
    Vector.getElem_set_ne _ _ (Nat.succ_ne_zero _).symm]
  ring

/-- Without a wrap the limb sums add (R139). -/
theorem limbSum_addElem {a b : FieldElem}
    (h : ∀ j : Fin 16, -2 ^ 63 ≤ a[j].toInt + b[j].toInt ∧ a[j].toInt + b[j].toInt < 2 ^ 63) :
    limbSum (addElem a b) = limbSum a + limbSum b := by
  simp only [limbSum_eq_sum, ← Finset.sum_add_distrib, ← add_mul]
  exact Finset.sum_congr rfl fun j _ => by rw [getElem_addElem, toInt_add_of_fits (h j).1 (h j).2]

/-- Without a wrap the limb sums subtract (R140). -/
theorem limbSum_subElem {a b : FieldElem}
    (h : ∀ j : Fin 16, -2 ^ 63 ≤ a[j].toInt - b[j].toInt ∧ a[j].toInt - b[j].toInt < 2 ^ 63) :
    limbSum (subElem a b) = limbSum a - limbSum b := by
  simp only [limbSum_eq_sum, ← Finset.sum_sub_distrib, ← sub_mul]
  exact Finset.sum_congr rfl fun j _ => by rw [getElem_subElem, toInt_sub_of_fits (h j).1 (h j).2]

/-! ### Folding a loop over `Fin n` -/

/-- A loop whose turn `i` takes `P i` to `P (i + 1)` takes `P 0` to `P n`. -/
theorem foldl_finRange_eq {α : Type} {n : Nat} (turn : α → Fin n → α) (P : Nat → α)
    (h : ∀ i : Fin n, turn (P i) i = P (i + 1)) : (List.finRange n).foldl turn (P 0) = P n := by
  induction n generalizing P with
  | zero => rfl
  | succ n ih =>
    rw [List.finRange_succ, List.foldl_cons, List.foldl_map]
    rw [show turn (P 0) 0 = P 1 from h 0]
    exact ih (fun a i => turn a i.succ) (fun k => P (k + 1)) fun i => h i.succ

/-! ### The carries of one pass (R133) -/

/-- The carry into limb `j`: what the limbs below it do not hold in 16 bits each. -/
def carryIn (f : FieldElem) : Nat → Limb
  | 0 => 0#64
  | j + 1 => if h : j < 16 then sar (f[j] + carryIn f j) 16 else 0#64

/-- Limb `j` with the carry into it. -/
def carried (f : FieldElem) (j : Fin 16) : Limb := f[j] + carryIn f j

/-- The 16 bits each limb keeps. -/
def carLow (f : FieldElem) : FieldElem := Vector.ofFn fun j => carried f j &&& 0xFFFF#64

theorem carryIn_succ (f : FieldElem) (j : Fin 16) : carryIn f (j.val + 1) = sar (carried f j) 16 := by
  simp [carryIn, carried]

theorem carried_zero (f : FieldElem) : carried f 0 = f[(0 : Fin 16)] := BitVec.add_zero _

@[simp] theorem getElem_carLow (f : FieldElem) (j : Fin 16) : (carLow f)[j] = carried f j &&& 0xFFFF#64 := by
  simp [carLow]

/-- A working copy before turn `n`: the limbs of `f` below `n` are done, limb `n` has its carry, and `rest` is untouched above. -/
def sweep (f rest : FieldElem) (n : Nat) : FieldElem := Vector.ofFn fun j =>
  if j.val < n then carried f j &&& 0xFFFF#64 else if j.val = n then carried f j else rest[j]

theorem getElem_sweep (f rest : FieldElem) (n j : Nat) (hj : j < 16) :
    (sweep f rest n)[j] = if j < n then carried f ⟨j, hj⟩ &&& 0xFFFF#64
      else if j = n then carried f ⟨j, hj⟩ else rest[j] := by
  simp [sweep]

theorem sweep_zero (f rest : FieldElem) : sweep f rest 0 = rest.set 0 f[0] := by
  apply Vector.ext
  intro j hj
  obtain rfl | h := Nat.eq_zero_or_pos j
  · simp [getElem_sweep, carried, carryIn]
  · simp [getElem_sweep, show j ≠ 0 by omega, show 0 ≠ j by omega]

/-- A turn of `car` that is not the last one (R133). -/
theorem getElem_carStep (o : FieldElem) (i j : Nat) (hi : i < 15) (hj : j < 16) :
    (carStep o ⟨i, by omega⟩)[j] =
      if j = i + 1 then o[i + 1] + sar o[i] 16 else if j = i then o[i] &&& 0xFFFF#64 else o[j] := by
  simp [carStep, hi, Vector.getElem_set, eq_comm]

theorem carStep_sweep (f : FieldElem) (n : Fin 15) :
    carStep (sweep f f n) n.castSucc = sweep f f (n + 1) := by
  obtain ⟨n, hn⟩ := n
  have hc : sar (carried f ⟨n, by omega⟩) 16 = carryIn f (n + 1) := (carryIn_succ f ⟨n, by omega⟩).symm
  apply Vector.ext
  intro j hj
  refine (getElem_carStep _ n j hn hj).trans ?_
  simp only [getElem_sweep]
  obtain hlt | rfl | rfl | hgt : j < n ∨ j = n ∨ j = n + 1 ∨ n + 1 < j := by omega
  · simp [hlt, show j ≠ n + 1 by omega, show j ≠ n by omega, show j < n + 1 by omega]
  · simp
  · simp [hc]
    rfl
  · simp [show j ≠ n + 1 by omega, show j ≠ n by omega, show ¬ j < n by omega, show ¬ j < n + 1 by omega]

/-- One carry pass keeps 16 bits of each limb and folds the last carry into limb 0 (R133). -/
theorem car_eq (f : FieldElem) : car f = (carLow f).set 0 ((carLow f)[0] + 38#64 * carryIn f 16) := by
  have hfirst : ((List.finRange 15).map Fin.castSucc).foldl carStep f = sweep f f 15 := by
    have hstart : sweep f f 0 = f := by rw [sweep_zero, Vector.set_getElem_self]
    rw [List.foldl_map]
    conv_lhs => rw [← hstart]
    exact foldl_finRange_eq _ _ (carStep_sweep f)
  have hc : sar (carried f 15) 16 = carryIn f 16 := (carryIn_succ f 15).symm
  rw [car, List.finRange_succ_last, List.foldl_append, hfirst]
  apply Vector.ext
  intro j hj
  obtain rfl | rfl | h : j = 0 ∨ j = 15 ∨ (0 < j ∧ j < 15) := by omega
  · simp [carStep, getElem_sweep, carLow, hc]
  · simp [carStep, getElem_sweep, carLow]
  · simp [carStep, getElem_sweep, carLow, show 0 ≠ j by omega, show 15 ≠ j by omega, h]

theorem getElem_car_of_ne_zero (f : FieldElem) {j : Fin 16} (h : j ≠ 0) : (car f)[j] = carried f j &&& 0xFFFF#64 := by
  have h0 : 0 ≠ j.val := fun e => h (Fin.ext e.symm)
  simp [car_eq, h0, carLow]

theorem getElem_car_zero (f : FieldElem) : (car f)[0] = (carLow f)[0] + 38#64 * carryIn f 16 := by
  simp [car_eq]

/-! ### The carries as integers -/

theorem toInt_carryIn_succ (f : FieldElem) (j : Fin 16) :
    (carryIn f (j.val + 1)).toInt = (carried f j).toInt / 2 ^ 16 := by
  rw [carryIn_succ, toInt_sar]

theorem carryIn_bounds (f : FieldElem) (n : Nat) :
    -2 ^ 47 ≤ (carryIn f n).toInt ∧ (carryIn f n).toInt < 2 ^ 47 := by
  cases n with
  | zero => simp [carryIn]
  | succ n =>
    unfold carryIn
    split
    · exact sar16_bounds _
    · simp

/-- Below magnitude 2^62 no carry wraps its limb (R149). -/
theorem toInt_carried {f : FieldElem} (hf : limbsWithin (2 ^ 62 - 1) f) (j : Fin 16) :
    (carried f j).toInt = f[j].toInt + (carryIn f j.val).toInt := by
  have hlimb := hf j
  have hcarry := carryIn_bounds f j.val
  exact toInt_add_of_fits (by omega) (by omega)

theorem toInt_carLow (f : FieldElem) (j : Fin 16) : (carLow f)[j].toInt = (carried f j).toInt % 2 ^ 16 := by
  rw [getElem_carLow, toInt_and_mask16]

/-- The carry into limb `j`, at the weight of limb `j`. -/
def weightedCarry (f : FieldElem) (j : Nat) : Int := (carryIn f j).toInt * 2 ^ (16 * j)

/-- The 16 bits a pass keeps, and the last carry at weight 2^256, are the whole element. -/
theorem limbSum_eq_carLow_add {f : FieldElem} (hf : limbsWithin (2 ^ 62 - 1) f) :
    limbSum f = limbSum (carLow f) + (carryIn f 16).toInt * 2 ^ 256 := by
  have hlimb (j : Fin 16) : f[j].toInt * 2 ^ (16 * j.val) =
      (carLow f)[j].toInt * 2 ^ (16 * j.val) + (weightedCarry f (j.val + 1) - weightedCarry f j.val) := by
    have hsplit := Int.emod_add_mul_ediv (carried f j).toInt (2 ^ 16)
    rw [← toInt_carLow, ← toInt_carryIn_succ, toInt_carried hf] at hsplit
    simp only [weightedCarry, mul_add, mul_one, pow_add]
    linear_combination (-2 ^ (16 * j.val)) * hsplit
  have htelescope : ∑ j : Fin 16, (weightedCarry f (j.val + 1) - weightedCarry f j.val) = (carryIn f 16).toInt * 2 ^ 256 := by
    rw [Fin.sum_univ_eq_sum_range (fun j => weightedCarry f (j + 1) - weightedCarry f j), Finset.sum_range_sub]
    simp [weightedCarry, carryIn]
  rw [limbSum_eq_sum, limbSum_eq_sum, Finset.sum_congr rfl fun j _ => hlimb j, Finset.sum_add_distrib, htelescope]

theorem two_pow_256 : (2 ^ 256 : Int) = 2 * fieldPrime + 38 := by
  norm_num [fieldPrime]

/-- Limb 0 after a pass, for every content of the element: 38 carries of at most 2^47 do not wrap. -/
theorem toInt_car_zero (f : FieldElem) :
    (car f)[0].toInt = (carLow f)[0].toInt + 38 * (carryIn f 16).toInt := by
  have hlow : (carLow f)[0].toInt = (carried f 0).toInt % 2 ^ 16 := toInt_carLow f 0
  have hcarry := carryIn_bounds f 16
  have hfactor : (38#64).toInt = 38 := by decide
  have h38 : (38#64 * carryIn f 16).toInt = 38 * (carryIn f 16).toInt := by
    rw [toInt_mul_of_fits] <;> rw [hfactor] <;> omega
  rw [getElem_car_zero, toInt_add_of_fits, h38] <;> omega

/-- A pass takes a multiple of `2·p` from the element: 2^256 is folded as 38 (R133). -/
theorem limbSum_car {f : FieldElem} (hf : limbsWithin (2 ^ 62 - 1) f) :
    limbSum (car f) = limbSum f - (carryIn f 16).toInt * (2 * fieldPrime) := by
  have hset : limbSum (car f) = limbSum (carLow f) - (carLow f)[0].toInt + (car f)[0].toInt := by
    rw [getElem_car_zero, ← limbSum_set_zero, ← car_eq]
  rw [hset, toInt_car_zero, limbSum_eq_carLow_add hf, two_pow_256]
  ring

/-- A carry pass keeps the value (R149). -/
theorem val_car {f : FieldElem} (hf : limbsWithin (2 ^ 62 - 1) f) : val (car f) = val f :=
  val_eq_of_limbSum (-2 * (carryIn f 16).toInt) (by rw [limbSum_car hf]; ring)

/-! ### Digits to the base `m` -/

/-- The digits of a number are summed to the number. -/
theorem sum_digits_base {m n N : Nat} (h : N < m ^ n) : ∑ j : Fin n, N / m ^ j.val % m * m ^ j.val = N := by
  have hsum := finFunctionFinEquiv_apply (finFunctionFinEquiv.symm (⟨N, h⟩ : Fin (m ^ n)))
  rw [Equiv.apply_symm_apply] at hsum
  simpa only [finFunctionFinEquiv_symm_apply_val] using hsum.symm

/-- A sum of digits has those digits. -/
theorem digit_sum_base {m n : Nat} {d : Fin n → Nat} (h : ∀ j, d j < m) :
    ∑ j : Fin n, d j * m ^ j.val < m ^ n ∧ ∀ k : Fin n, (∑ j : Fin n, d j * m ^ j.val) / m ^ k.val % m = d k := by
  have hsum := finFunctionFinEquiv_apply fun j => (⟨d j, h j⟩ : Fin m)
  refine ⟨hsum ▸ Fin.isLt _, fun k => ?_⟩
  rw [← hsum, ← finFunctionFinEquiv_symm_apply_val, Equiv.symm_apply_apply]

/-! ### Elements whose limbs are the 16-bit digits of a number -/

/-- The limbs of `f` are the 16-bit digits of the 256-bit number `N`. -/
structure HasDigits (f : FieldElem) (N : Nat) : Prop where
  lt : N < 2 ^ 256
  digit : ∀ j : Fin 16, f[j].toNat = N / (2 ^ 16) ^ j.val % 2 ^ 16

theorem HasDigits.limb_lt {f : FieldElem} {N : Nat} (h : HasDigits f N) (j : Fin 16) : f[j].toNat < 2 ^ 16 := by
  rw [h.digit]
  exact Nat.mod_lt _ (by norm_num)

/-- The limb sum of digits below 2^16 is the sum of the digits at their weights. -/
theorem limbSum_of_small {f : FieldElem} (h : ∀ j : Fin 16, f[j].toNat < 2 ^ 16) :
    limbSum f = ((∑ j : Fin 16, f[j].toNat * (2 ^ 16) ^ j.val : Nat) : Int) := by
  rw [limbSum_eq_sum, Nat.cast_sum]
  refine Finset.sum_congr rfl fun j _ => ?_
  rw [toInt_of_small (h j), pow_mul]
  norm_cast

/-- The digits of a number are summed to the number. -/
theorem HasDigits.limbSum {f : FieldElem} {N : Nat} (h : HasDigits f N) : limbSum f = N := by
  have hN : N < (2 ^ 16) ^ 16 := by simpa only [← pow_mul] using h.lt
  rw [limbSum_of_small h.limb_lt, Finset.sum_congr rfl fun j _ => by rw [h.digit j], sum_digits_base hN]

theorem HasDigits.val_eq {f : FieldElem} {N : Nat} (h : HasDigits f N) : val f = N % fieldPrime := by
  rw [val, h.limbSum]
  norm_cast

/-- Limbs below 2^16 are the digits of the element's limb sum. -/
theorem hasDigits_of_small {f : FieldElem} (h : ∀ j : Fin 16, f[j].toNat < 2 ^ 16) :
    HasDigits f (limbSum f).toNat := by
  obtain ⟨hlt, hdigit⟩ := digit_sum_base h
  rw [limbSum_of_small h, Int.toNat_natCast]
  exact ⟨by simpa only [← pow_mul] using hlt, fun j => (hdigit j).symm⟩

theorem HasDigits.unique {f g : FieldElem} {N : Nat} (hf : HasDigits f N) (hg : HasDigits g N) : f = g := by
  apply Vector.ext
  intro j hj
  exact BitVec.eq_of_toNat_eq ((hf.digit ⟨j, hj⟩).trans (hg.digit ⟨j, hj⟩).symm)

theorem HasDigits.number_unique {f : FieldElem} {M N : Nat} (hM : HasDigits f M) (hN : HasDigits f N) : M = N := by
  exact_mod_cast hM.limbSum.symm.trans hN.limbSum

theorem HasDigits.limbsWithin {f : FieldElem} {N : Nat} (h : HasDigits f N) : limbsWithin (2 ^ 16) f := by
  intro j
  have hlt := h.limb_lt j
  rw [toInt_of_small hlt]
  omega

theorem limbsWithin.mono {m n : Int} {f : FieldElem} (h : limbsWithin m f) (hmn : m ≤ n) : limbsWithin n f :=
  fun j => ⟨by linarith [(h j).1], (h j).2.trans hmn⟩

theorem limbSum_bounds_of_small {f : FieldElem} (h : ∀ j : Fin 16, f[j].toNat < 2 ^ 16) :
    0 ≤ limbSum f ∧ limbSum f < 2 ^ 256 := by
  have hd := hasDigits_of_small h
  have hlt := hd.lt
  rw [hd.limbSum]
  omega

/-! ### Elements after a carry pass (R133, R149) -/

theorem carLow_small (f : FieldElem) (j : Fin 16) : (carLow f)[j].toNat < 2 ^ 16 := by
  rw [getElem_carLow, toNat_and_mask16]
  exact Nat.mod_lt _ (by norm_num)

theorem toInt_carLow_bounds (f : FieldElem) (j : Fin 16) : 0 ≤ (carLow f)[j].toInt ∧ (carLow f)[j].toInt < 2 ^ 16 := by
  have := carLow_small f j
  rw [toInt_of_small this]
  omega

/-- Limbs 1..15 are 16-bit digits, and limb 0 is off such a digit by at most `n`. -/
structure NearlyCarried (n : Int) (f : FieldElem) : Prop where
  upper : ∀ j : Fin 16, j ≠ 0 → 0 ≤ f[j].toInt ∧ f[j].toInt < 2 ^ 16
  lower : -n ≤ f[0].toInt ∧ f[0].toInt ≤ 2 ^ 16 - 1 + n

theorem NearlyCarried.limbsWithin {n : Int} {f : FieldElem} (h : NearlyCarried n f) (hn : 0 ≤ n) :
    limbsWithin (2 ^ 16 + n) f := by
  intro j
  obtain rfl | hj := eq_or_ne j 0
  · have hlow : -n ≤ f[(0 : Fin 16)].toInt ∧ f[(0 : Fin 16)].toInt ≤ 2 ^ 16 - 1 + n := h.lower
    omega
  · have := h.upper j hj
    omega

/-- With another digit for limb 0, all limbs are digits. -/
theorem NearlyCarried.set_small {n : Int} {f : FieldElem} (h : NearlyCarried n f) {x : Limb} (hx : x.toNat < 2 ^ 16)
    (j : Fin 16) : (f.set 0 x)[j].toNat < 2 ^ 16 := by
  obtain rfl | hj := eq_or_ne j 0
  · simpa using hx
  · have hj' : 0 ≠ j.val := fun e => hj (Fin.ext e.symm)
    have hup := h.upper j hj
    have hcond := BitVec.toInt_eq_toNat_cond f[j]
    have hget : (f.set 0 x)[j] = f[j] := by simp [hj']
    rw [hget]
    split at hcond <;> omega

/-- The limb sum lies in the 256-bit range, up to `n`: it does so with limb 0 set to 0 and to 0xFFFF. -/
theorem NearlyCarried.limbSum_bounds {n : Int} {f : FieldElem} (h : NearlyCarried n f) :
    -n ≤ limbSum f ∧ limbSum f ≤ 2 ^ 256 - 1 + n := by
  have hmin := limbSum_bounds_of_small (h.set_small (x := 0#64) (by decide))
  have hmax := limbSum_bounds_of_small (h.set_small (x := 0xFFFF#64) (by decide))
  have hlow := h.lower
  rw [limbSum_set_zero, show (0#64).toInt = 0 by decide] at hmin
  rw [limbSum_set_zero, show (0xFFFF#64).toInt = 65535 by decide] at hmax
  omega

/-- Limb 0 of a pass is a digit off by 38 times the last carry. -/
theorem nearlyCarried_car {n : Int} {f : FieldElem} (hlo : -n ≤ 38 * (carryIn f 16).toInt)
    (hhi : 38 * (carryIn f 16).toInt ≤ n) : NearlyCarried n (car f) := by
  refine ⟨fun j hj => ?_, ?_⟩
  · rw [getElem_car_of_ne_zero f hj, ← getElem_carLow]
    exact toInt_carLow_bounds f j
  · have hdigit : 0 ≤ (carLow f)[0].toInt ∧ (carLow f)[0].toInt < 2 ^ 16 := toInt_carLow_bounds f 0
    rw [toInt_car_zero]
    omega

/-- One pass, from any content. -/
theorem nearlyCarried_car_any (f : FieldElem) : NearlyCarried (38 * 2 ^ 47) (car f) := by
  have hcarry := carryIn_bounds f 16
  exact nearlyCarried_car (by omega) (by omega)

theorem NearlyCarried.fits {n : Int} {f : FieldElem} (h : NearlyCarried n f) (h0 : 0 ≤ n) (hn : n ≤ 2 ^ 60) :
    Machine.limbsWithin (2 ^ 62 - 1) f :=
  (h.limbsWithin h0).mono (by omega)

/-- The last carry is the limb sum divided by 2^256. -/
theorem carryIn_last_bounds {f : FieldElem} (hf : limbsWithin (2 ^ 62 - 1) f) :
    (carryIn f 16).toInt * 2 ^ 256 ≤ limbSum f ∧ limbSum f < ((carryIn f 16).toInt + 1) * 2 ^ 256 := by
  have hlow := limbSum_bounds_of_small (carLow_small f)
  rw [limbSum_eq_carLow_add hf]
  omega

/-- A second pass: its last carry is −1, 0 or 1, and what is left lies in the 256-bit range. -/
theorem NearlyCarried.car {n : Int} {f : FieldElem} (h : NearlyCarried n f) (h0 : 0 ≤ n) (hn : n ≤ 2 ^ 60) :
    NearlyCarried 38 (car f) ∧ 0 ≤ limbSum (car f) ∧ limbSum (car f) < 2 ^ 256 := by
  have hf := h.fits h0 hn
  have hsum := h.limbSum_bounds
  have hcarry := carryIn_last_bounds hf
  have hpass := limbSum_car hf
  have hp := two_pow_256
  have hrange : (carryIn f 16).toInt = -1 ∨ (carryIn f 16).toInt = 0 ∨ (carryIn f 16).toInt = 1 := by omega
  refine ⟨nearlyCarried_car (by omega) (by omega), ?_⟩
  obtain e | e | e := hrange <;> rw [e] at hpass hcarry <;> omega

/-- Two passes leave a valid source, from any content (R149). -/
theorem nearlyCarried_car_car (f : FieldElem) : NearlyCarried 38 (Machine.car (Machine.car f)) :=
  ((nearlyCarried_car_any f).car (by norm_num) (by norm_num)).1

/-- A pass without a last carry leaves the digits of the limb sum. -/
theorem hasDigits_car {f : FieldElem} (hf : limbsWithin (2 ^ 62 - 1) f) (hlo : 0 ≤ limbSum f) (hhi : limbSum f < 2 ^ 256) :
    HasDigits (car f) (limbSum f).toNat := by
  have hcarry := carryIn_last_bounds hf
  have hzero : carryIn f 16 = 0#64 := by
    apply BitVec.eq_of_toInt_eq
    rw [show (0#64).toInt = 0 by decide]
    omega
  have hcar : car f = carLow f := by simp [car_eq, hzero]
  have hsum : limbSum f = limbSum (carLow f) := by simp [limbSum_eq_carLow_add hf, hzero]
  rw [hcar, hsum]
  exact hasDigits_of_small (carLow_small f)

/-- The three passes of `pack` leave the digits of a number of the value after one pass (R135). -/
theorem hasDigits_car_car_car (f : FieldElem) :
    ∃ N, HasDigits (car (car (car f))) N ∧ N % fieldPrime = val (car f) := by
  have h1 := nearlyCarried_car_any f
  have hf1 := h1.fits (by norm_num) (by norm_num)
  obtain ⟨h2, hlo, hhi⟩ := h1.car (by norm_num) (by norm_num)
  have hf2 := h2.fits (by norm_num) (by norm_num)
  have hdigits := hasDigits_car hf2 hlo hhi
  exact ⟨_, hdigits, by rw [← hdigits.val_eq, val_car hf2, val_car hf1]⟩

/-! ### `unpack` and the byte string of an element (R15, R135, R136) -/

theorem le256_eq_sum (x : Buffer) : le256 x = ∑ i : Fin 32, x[i].toNat * (2 ^ 8) ^ i.val := by
  simp only [← pow_mul]
  exact (Fin.sum_univ_def _).symm

/-- The bytes of a buffer are the digits of its integer. -/
theorem le256_byte (x : Buffer) (i : Nat) (hi : i < 32) : le256 x / (2 ^ 8) ^ i % 2 ^ 8 = x[i].toNat := by
  rw [le256_eq_sum]
  exact (digit_sum_base fun i : Fin 32 => x[i].isLt).2 ⟨i, hi⟩

/-- Two bytes of a number are its 16-bit digit. -/
theorem two_byte_digit (N j : Nat) :
    N / (2 ^ 8) ^ (2 * j) % 2 ^ 8 + N / (2 ^ 8) ^ (2 * j + 1) % 2 ^ 8 * 2 ^ 8 = N / (2 ^ 16) ^ j % 2 ^ 16 := by
  have hbase : ((2 : Nat) ^ 8) ^ (2 * j) = (2 ^ 16) ^ j := by rw [pow_mul, ← pow_mul 2 8 2]
  rw [pow_succ (2 ^ 8) (2 * j), ← Nat.div_div_eq_div_mul, hbase]
  omega

/-- A limb of two bytes (R136). -/
theorem toNat_byte_pair (lo hi : Byte) :
    (lo.zeroExtend 64 + (hi.zeroExtend 64 <<< 8)).toNat = lo.toNat + hi.toNat * 2 ^ 8 := by
  have hlo := lo.isLt
  have hhi := hi.isLt
  simp only [BitVec.truncate_eq_setWidth, BitVec.toNat_add, BitVec.toNat_shiftLeft, BitVec.toNat_setWidth,
    Nat.shiftLeft_eq]
  omega

/-- A digit of a number whose bits from 255 on are cleared. -/
theorem digit_mod_two_pow_255 (N : Nat) (j : Fin 16) :
    N % 2 ^ 255 / (2 ^ 16) ^ j.val % 2 ^ 16 =
      if j = 15 then N / (2 ^ 16) ^ j.val % 2 ^ 16 % 2 ^ 15 else N / (2 ^ 16) ^ j.val % 2 ^ 16 := by
  have hsplit : (2 : Nat) ^ 255 = (2 ^ 16) ^ j.val * 2 ^ (255 - 16 * j.val) := by
    rw [← pow_mul, ← pow_add]
    congr 1
    omega
  rw [hsplit, Nat.mod_mul_right_div_self]
  split_ifs with hj
  · subst hj
    change N / (2 ^ 16) ^ 15 % 2 ^ 15 % 2 ^ 16 = N / (2 ^ 16) ^ 15 % 2 ^ 16 % 2 ^ 15
    omega
  · have hj : 16 ≤ 255 - 16 * j.val := by
      have : j.val ≠ 15 := fun e => hj (Fin.ext e)
      omega
    exact Nat.mod_mod_of_dvd _ (pow_dvd_pow 2 hj)

/-- `unpack` reads the digits of the integer with bit 255 cleared (R136). -/
theorem hasDigits_unpack (x : Buffer) : HasDigits (unpack x) (le256 x % 2 ^ 255) := by
  refine ⟨lt_trans (Nat.mod_lt _ (by norm_num)) (by norm_num), fun j => ?_⟩
  have hpair : ((x[2 * j.val]).zeroExtend 64 + ((x[2 * j.val + 1]).zeroExtend 64 <<< 8) : Limb).toNat =
      le256 x / (2 ^ 16) ^ j.val % 2 ^ 16 := by
    rw [toNat_byte_pair, ← le256_byte x (2 * j.val) (by omega), ← le256_byte x (2 * j.val + 1) (by omega),
      two_byte_digit]
  rw [digit_mod_two_pow_255]
  split_ifs with hj
  · subst hj
    rw [← hpair]
    have hlimb : ∀ l : Limb, (l &&& 0x7FFF#64).toNat = l.toNat % 2 ^ 15 := fun l => by
      rw [BitVec.toNat_and]
      exact Nat.and_two_pow_sub_one_eq_mod _ 15
    rw [← hlimb]
    simp [unpack]
  · rw [← hpair]
    have hj' : 15 ≠ j.val := fun e => hj (Fin.ext e.symm)
    simp [unpack, hj']

theorem toNat_getElem_encode256 (r n : Nat) (hn : n < 32) : (encode256 r)[n].toNat = r / (2 ^ 8) ^ n % 2 ^ 8 := by
  simp [encode256, pow_mul]

/-- The bytes of an element are the encoding of the number its limbs are the digits of (R135). -/
theorem limbBytes_eq {f : FieldElem} {N : Nat} (h : HasDigits f N) : limbBytes f = encode256 N := by
  apply Vector.ext
  intro n hn
  have hdigit := h.digit ⟨n / 2, by omega⟩
  have hpair := two_byte_digit N (n / 2)
  rw [← hdigit] at hpair
  apply BitVec.eq_of_toNat_eq
  obtain hpar | hpar := Nat.mod_two_eq_zero_or_one n
  · have hbyte : (limbBytes f)[n].toNat = f[n / 2].toNat % 2 ^ 8 := by simp [limbBytes, hpar]
    rw [show 2 * (n / 2) = n by omega] at hpair
    rw [hbyte, toNat_getElem_encode256]
    simp only [Fin.getElem_fin] at hpair
    omega
  · have hbyte : (limbBytes f)[n].toNat = f[n / 2].toNat / 2 ^ 8 % 2 ^ 8 := by
      simp [limbBytes, hpar, Nat.shiftRight_eq_div_pow]
    rw [show 2 * (n / 2) + 1 = n by omega] at hpair
    rw [hbyte, toNat_getElem_encode256]
    simp only [Fin.getElem_fin] at hpair
    omega

/-! ### The trial subtraction of `p` (R135) -/

/-- The limbs of `p`. -/
def primeElem : FieldElem := Vector.ofFn fun j =>
  if j.val = 0 then 0xFFED#64 else if j.val = 15 then 0x7FFF#64 else 0xFFFF#64

theorem hasDigits_primeElem : HasDigits primeElem fieldPrime := by
  refine ⟨by decide, ?_⟩
  decide +kernel

/-- The limbs of `t`, less those of `p`. -/
def primeDiff (t : FieldElem) : FieldElem := subElem t primeElem

theorem getElem_primeDiff (t : FieldElem) (j : Nat) (hj : j < 16) :
    (primeDiff t)[j] = t[j] - if j = 0 then 0xFFED#64 else if j = 15 then 0x7FFF#64 else 0xFFFF#64 := by
  simp [primeDiff, subElem, primeElem]

/-- Every borrow is 0 or 1: the carries of the difference of two elements of 16-bit limbs are 0 or −1. -/
theorem carryIn_zero_or_neg_one {f : FieldElem} (h : limbsWithin (2 ^ 16 - 1) f) (n : Nat) (hn : n ≤ 16) :
    carryIn f n = 0#64 ∨ carryIn f n = -1#64 := by
  induction n with
  | zero => exact .inl rfl
  | succ n ih =>
    have hlimb := h ⟨n, hn⟩
    have hcarried := toInt_carried (h.mono (by norm_num)) ⟨n, hn⟩
    have hnext := toInt_carryIn_succ f ⟨n, hn⟩
    have hin : (carryIn f n).toInt = 0 ∨ (carryIn f n).toInt = -1 :=
      (ih (by omega)).imp (fun e => by rw [e]; decide) (fun e => by rw [e]; decide)
    simp only [← BitVec.toInt_inj, show (0#64).toInt = 0 by decide, show (-1#64).toInt = -1 by decide]
    simp only at hnext hcarried
    omega

/-- The borrow a limb passes on is its carry, negated. -/
theorem borrow_carried {f : FieldElem} (h : limbsWithin (2 ^ 16 - 1) f) (j : Fin 16) :
    borrow (carried f j) = -carryIn f (j.val + 1) := by
  rw [borrow, ← carryIn_succ]
  obtain e | e := carryIn_zero_or_neg_one h (j.val + 1) (by omega) <;> rw [e] <;> decide

theorem trialStep_sweep {t : FieldElem} (h : limbsWithin (2 ^ 16 - 1) (primeDiff t)) (n : Fin 14) :
    trialStep t (sweep (primeDiff t) (Vector.replicate 16 0#64) n) n =
      sweep (primeDiff t) (Vector.replicate 16 0#64) (n + 1) := by
  obtain ⟨n, hn⟩ := n
  have hborrow := borrow_carried h ⟨n, by omega⟩
  have hnext : t[n + 1] - 0xFFFF#64 + carryIn (primeDiff t) (n + 1) = carried (primeDiff t) ⟨n + 1, by omega⟩ := by
    simp [carried, getElem_primeDiff, show n ≠ 14 by omega]
  apply Vector.ext
  intro j hj
  simp only [trialStep, Vector.getElem_set, getElem_sweep]
  obtain hlt | rfl | rfl | hgt : j < n ∨ j = n ∨ j = n + 1 ∨ n + 1 < j := by omega
  · simp [hlt, show n + 1 ≠ j by omega, show n ≠ j by omega, show j < n + 1 by omega]
  · simp
  · simp [hborrow, hnext]
  · simp [show n + 1 ≠ j by omega, show n ≠ j by omega, show ¬ j < n by omega, show ¬ j < n + 1 by omega,
      show j ≠ n by omega, show j ≠ n + 1 by omega]

/-- The last turns leave limb 15 with its carry, unmasked. -/
theorem sweep_finish (f rest : FieldElem) :
    ((sweep f rest 14).set 15 (carried f 15)).set 14 (carried f 14 &&& 0xFFFF#64) =
      (carLow f).set 15 (carried f 15) := by
  apply Vector.ext
  intro j hj
  obtain h14 | rfl | rfl : j < 14 ∨ j = 14 ∨ j = 15 := by omega
  · simp [getElem_sweep, carLow, show 14 ≠ j by omega, show 15 ≠ j by omega, h14]
  · simp [carLow]
  · simp

/-- One trial subtraction: the carries of the difference of the limbs, the last one negated. -/
theorem trialSub_eq {t : FieldElem} (h : limbsWithin (2 ^ 16 - 1) (primeDiff t)) :
    trialSub t = ((carLow (primeDiff t)).set 15 (carried (primeDiff t) 15), -carryIn (primeDiff t) 16) := by
  have hstart : (Vector.replicate 16 0#64).set 0 (t[0] - 0xFFED#64) =
      sweep (primeDiff t) (Vector.replicate 16 0#64) 0 := by
    rw [sweep_zero, getElem_primeDiff, if_pos rfl]
  have hloop := foldl_finRange_eq _ _ (trialStep_sweep h)
  rw [← hstart] at hloop
  have hborrow14 := borrow_carried h 14
  have hborrow15 := borrow_carried h 15
  have hlast : t[15] - 0x7FFF#64 + carryIn (primeDiff t) 15 = carried (primeDiff t) 15 := by
    simp [carried, getElem_primeDiff]
  simp [trialSub, hloop, hlast, hborrow14, hborrow15, getElem_sweep, sweep_finish]

/-- Without a last carry, limb 15 keeps all its bits. -/
theorem carLow_set_last {f : FieldElem} (hc : carryIn f 16 = 0#64) : (carLow f).set 15 (carried f 15) = carLow f := by
  have htop := toInt_carryIn_succ f 15
  have hlow : (carLow f)[15].toInt = (carried f 15).toInt % 2 ^ 16 := toInt_carLow f 15
  have hsame : carried f 15 = (carLow f)[15] := by
    have hzero : (0#64).toInt = (carried f 15).toInt / 2 ^ 16 := hc ▸ htop
    rw [show (0#64).toInt = 0 by decide] at hzero
    apply BitVec.eq_of_toInt_eq
    omega
  rw [hsame, Vector.set_getElem_self]

section TrialDifference

variable {t : FieldElem} {N : Nat} (ht : HasDigits t N)
include ht

theorem digits_sub_prime_bounds (j : Fin 16) :
    -(2 ^ 16 - 1) ≤ t[j].toInt - primeElem[j].toInt ∧ t[j].toInt - primeElem[j].toInt ≤ 2 ^ 16 - 1 := by
  have htj := ht.limb_lt j
  have hpj := hasDigits_primeElem.limb_lt j
  rw [toInt_of_small htj, toInt_of_small hpj]
  omega

theorem digits_sub_prime_fits (j : Fin 16) :
    -2 ^ 63 ≤ t[j].toInt - primeElem[j].toInt ∧ t[j].toInt - primeElem[j].toInt < 2 ^ 63 := by
  have := digits_sub_prime_bounds ht j
  omega

theorem limbsWithin_sub_prime : limbsWithin (2 ^ 16 - 1) (primeDiff t) := fun j => by
  obtain ⟨hlo, hhi⟩ := digits_sub_prime_fits ht j
  rw [primeDiff, getElem_subElem, toInt_sub_of_fits hlo hhi]
  exact digits_sub_prime_bounds ht j

theorem limbSum_sub_prime : limbSum (primeDiff t) = (N : Int) - fieldPrime := by
  rw [primeDiff, limbSum_subElem (digits_sub_prime_fits ht), ht.limbSum, hasDigits_primeElem.limbSum]

/-- One pass of `pack` subtracts `p` once, where it can (R135). -/
theorem hasDigits_reducePass : HasDigits (reducePass t) (if N < fieldPrime then N else N - fieldPrime) := by
  have hlimbs := limbsWithin_sub_prime ht
  have hlow := carLow_small (primeDiff t)
  have hbounds := limbSum_bounds_of_small hlow
  have hsplit := limbSum_eq_carLow_add (hlimbs.mono (n := 2 ^ 62 - 1) (by norm_num))
  rw [limbSum_sub_prime ht] at hsplit
  rw [reducePass, trialSub_eq hlimbs]
  obtain hc | hc := carryIn_zero_or_neg_one hlimbs 16 le_rfl
  all_goals rw [hc] at hsplit ⊢
  · have hsum : limbSum (carLow (primeDiff t)) = (N : Int) - fieldPrime := by simpa using hsplit.symm
    have hge : ¬ N < fieldPrime := by omega
    have hN : (limbSum (carLow (primeDiff t))).toNat = N - fieldPrime := by omega
    rw [if_neg hge, ← hN, show 1#64 - -0#64 = flagLimb true by decide, cswap_flagLimb, carLow_set_last hc]
    exact hasDigits_of_small hlow
  · have hlt : N < fieldPrime := by
      have hN := ht.lt
      rw [show (-1#64).toInt = -1 by decide] at hsplit
      omega
    rw [if_pos hlt, show 1#64 - -(-1#64) = flagLimb false by decide, cswap_flagLimb]
    exact ht

end TrialDifference

/-- The two passes of `pack` reduce mod `p`, as 2^256 is less than `3·p` (R135). -/
theorem hasDigits_reducePass_reducePass {t : FieldElem} {N : Nat} (ht : HasDigits t N) :
    HasDigits (reducePass (reducePass t)) (N % fieldPrime) := by
  have h := hasDigits_reducePass (hasDigits_reducePass ht)
  by_cases h1 : N < fieldPrime
  · rwa [if_pos h1, if_pos h1, ← Nat.mod_eq_of_lt h1] at h
  · rw [if_neg h1] at h
    rw [Nat.mod_eq_sub_mod (not_lt.1 h1)]
    by_cases h2 : N - fieldPrime < fieldPrime
    · rwa [if_pos h2, ← Nat.mod_eq_of_lt h2] at h
    · have h3 : N - fieldPrime - fieldPrime < fieldPrime := by
        have hlt := ht.lt
        have hp : fieldPrime = 2 ^ 255 - 19 := rfl
        omega
      rwa [if_neg h2, ← Nat.mod_eq_of_lt h3, ← Nat.mod_eq_sub_mod (not_lt.1 h2)] at h

/-- `pack` is the canonical encoding of the value after one carry pass (R135, R150). -/
theorem pack_eq (f : FieldElem) : pack f = encode256 (val (car f)) := by
  obtain ⟨N, hdigits, hval⟩ := hasDigits_car_car_car f
  rw [pack, limbBytes_eq (hasDigits_reducePass_reducePass hdigits), hval]

theorem le256_pack (f : FieldElem) : le256 (pack f) = val (car f) := by
  rw [pack_eq, le256_encode256 _ ((val_lt _).trans (by decide))]

theorem HasDigits.val_car {f : FieldElem} {N : Nat} (h : HasDigits f N) : val (car f) = N % fieldPrime := by
  rw [Machine.val_car (h.limbsWithin.mono (by norm_num)), h.val_eq]

theorem pack_of_digits {f : FieldElem} {N : Nat} (h : HasDigits f N) : pack f = encode256 (N % fieldPrime) := by
  rw [pack_eq, h.val_car]

/-- `unpack` reads back the digits of what `pack` encodes. -/
theorem hasDigits_unpack_pack (f : FieldElem) : HasDigits (unpack (pack f)) (val (car f)) := by
  have h := hasDigits_unpack (pack f)
  have hlt : val (car f) < 2 ^ 255 := (val_lt _).trans (by decide)
  rwa [le256_pack, Nat.mod_eq_of_lt hlt] at h

/-! ### The folded product (R134) -/

/-- How often the product of limbs `j` and `k` counts in limb `i`: 2^256 is folded as 38. -/
def foldWeight (i j k : Fin 16) : Int :=
  if j.val + k.val = i.val then 1 else if j.val + k.val = i.val + 16 then 38 else 0

/-- Limb `i` of the folded product, as an integer. -/
def foldedSum (a b : FieldElem) (i : Fin 16) : Int :=
  ∑ j : Fin 16, ∑ k : Fin 16, foldWeight i j k * (a[j].toInt * b[k].toInt)

/-- The weight limb `j` has in limb `i`, in its one product, with limb `i - j` mod 16. -/
def wrapWeight (i j : Fin 16) : Int := if j ≤ i then 1 else 38

theorem foldWeight_eq (i j k : Fin 16) : foldWeight i j k = if k = i - j then wrapWeight i j else 0 := by
  have hk : k = i - j ↔ (j.val + k.val) % 16 = i.val := by
    rw [eq_sub_iff_add_eq', Fin.ext_iff, Fin.val_add]
  simp only [foldWeight, wrapWeight, hk, Fin.le_def]
  split_ifs <;> omega

theorem foldedSum_eq (a b : FieldElem) (i : Fin 16) :
    foldedSum a b i = ∑ j : Fin 16, wrapWeight i j * (a[j].toInt * b[i - j].toInt) := by
  simp only [foldedSum, foldWeight_eq, ite_mul, zero_mul, Finset.sum_ite_eq', Finset.mem_univ, if_true]

theorem mulAccum_eq_sum (a b : FieldElem) (k : Nat) :
    mulAccum a b k = ∑ j : Fin 16, if h : j.val ≤ k ∧ k - j.val < 16 then a[j] * b[k - j.val] else 0 :=
  (Fin.sum_univ_def _).symm

/-- Below index 16 limb `j` meets limb `i - j`, when there is one. -/
theorem mulAccum_low (a b : FieldElem) (i : Fin 16) :
    mulAccum a b i.val = ∑ j : Fin 16, if j ≤ i then a[j] * b[i - j] else 0 := by
  rw [mulAccum_eq_sum]
  refine Finset.sum_congr rfl fun j _ => ?_
  by_cases h : j ≤ i
  · simp [h, Fin.sub_val_of_le h, show i.val - j.val < 16 by omega]
  · simp [h]

/-- From index 16 on limb `j` meets limb `i + 16 - j`, for the other limbs `j`. -/
theorem mulAccum_high (a b : FieldElem) (i : Fin 16) :
    mulAccum a b (i.val + 16) = ∑ j : Fin 16, if j ≤ i then 0 else a[j] * b[i - j] := by
  rw [mulAccum_eq_sum]
  refine Finset.sum_congr rfl fun j _ => ?_
  by_cases h : j ≤ i
  · simp [h]
    omega
  · have hsub : (i - j).val = i.val + 16 - j.val := by
      rw [Fin.coe_sub_iff_lt.2 (not_le.1 h), Nat.add_comm]
    simp only [h, hsub, if_false, Fin.getElem_fin]
    rw [dif_pos (by omega)]

/-- Index 31 does not occur, so the fold is the same for every limb. -/
theorem getElem_mulFold_eq_add (a b : FieldElem) (i : Fin 16) :
    (mulFold a b)[i] = mulAccum a b i.val + 38#64 * mulAccum a b (i.val + 16) := by
  by_cases h : i.val < 15
  · simp [mulFold, h]
  · obtain rfl : i = Fin.last 15 := by
      apply Fin.ext
      simp only [Fin.val_last]
      omega
    have hnone : mulAccum a b ((Fin.last 15).val + 16) = 0 := by
      rw [mulAccum_high]
      exact Finset.sum_eq_zero fun j _ => if_pos (Fin.le_last j)
    rw [hnone]
    simp [mulFold]

/-- The folded limb (R134). -/
theorem getElem_mulFold (a b : FieldElem) (i : Fin 16) :
    (mulFold a b)[i] = BitVec.ofInt 64 (foldedSum a b i) := by
  change _ = ((foldedSum a b i : Int) : Limb)
  have hcast (x : Limb) : ((x.toInt : Int) : Limb) = x := BitVec.ofInt_toInt
  rw [foldedSum_eq]
  push_cast
  simp only [hcast]
  rw [getElem_mulFold_eq_add, mulAccum_low, mulAccum_high, Finset.mul_sum, ← Finset.sum_add_distrib]
  refine Finset.sum_congr rfl fun j _ => ?_
  unfold wrapWeight
  split_ifs <;> simp

/-- With source limbs of magnitude at most 2^26 no folded limb reaches 2^62 (R148). -/
theorem foldedSum_bounds {a b : FieldElem} (ha : limbsWithin (2 ^ 26) a) (hb : limbsWithin (2 ^ 26) b) (i : Fin 16) :
    |foldedSum a b i| ≤ 2 ^ 62 - 1 := by
  have hterm (j : Fin 16) : |wrapWeight i j * (a[j].toInt * b[i - j].toInt)| ≤ 38 * (2 ^ 26 * 2 ^ 26) := by
    have hw : |wrapWeight i j| ≤ 38 := by
      unfold wrapWeight
      split_ifs <;> norm_num
    rw [abs_mul, abs_mul]
    gcongr
    · exact abs_le.2 (ha j)
    · exact abs_le.2 (hb (i - j))
  rw [foldedSum_eq]
  calc |∑ j : Fin 16, wrapWeight i j * (a[j].toInt * b[i - j].toInt)|
      ≤ ∑ j : Fin 16, |wrapWeight i j * (a[j].toInt * b[i - j].toInt)| := Finset.abs_sum_le_sum_abs _ _
    _ ≤ ∑ _j : Fin 16, 38 * (2 ^ 26 * 2 ^ 26) := Finset.sum_le_sum fun j _ => hterm j
    _ ≤ 2 ^ 62 - 1 := by norm_num

theorem toInt_mulFold {a b : FieldElem} (ha : limbsWithin (2 ^ 26) a) (hb : limbsWithin (2 ^ 26) b) (i : Fin 16) :
    (mulFold a b)[i].toInt = foldedSum a b i := by
  obtain ⟨hlo, hhi⟩ := abs_le.1 (foldedSum_bounds ha hb i)
  rw [getElem_mulFold, BitVec.toInt_ofInt, bmod_of_fits (by omega) (by omega)]

theorem limbsWithin_mulFold {a b : FieldElem} (ha : limbsWithin (2 ^ 26) a) (hb : limbsWithin (2 ^ 26) b) :
    limbsWithin (2 ^ 62 - 1) (mulFold a b) := fun i => by
  rw [toInt_mulFold ha hb]
  exact abs_le.1 (foldedSum_bounds ha hb i)

/-- 2^256 is 38 mod p (R134). -/
theorem two_pow_256_mod_prime : (2 ^ 256 : ZMod fieldPrime) = 38 := by
  have h : ((2 ^ 256 : Int) : ZMod fieldPrime) = ((2 * fieldPrime + 38 : Int) : ZMod fieldPrime) := by
    rw [two_pow_256]
  rw [Int.cast_add, Int.cast_mul, Int.cast_natCast, ZMod.natCast_self, mul_zero, zero_add, Int.cast_pow] at h
  exact_mod_cast h

/-- Over all limbs, the product of limbs `j` and `k` counts with its schoolbook weight. -/
theorem sum_foldWeight (j k : Fin 16) :
    ∑ i : Fin 16, (foldWeight i j k : ZMod fieldPrime) * 2 ^ (16 * i.val) = 2 ^ (16 * (j.val + k.val)) := by
  have hval := Fin.val_add j k
  have hone (i : Fin 16) : foldWeight i j k =
      if i = j + k then (if j.val + k.val < 16 then 1 else 38) else 0 := by
    have hi : i = j + k ↔ (j.val + k.val) % 16 = i.val := by
      rw [Fin.ext_iff, hval, eq_comm]
    simp only [foldWeight, hi]
    split_ifs <;> omega
  simp only [hone, Int.cast_ite, ite_mul, Int.cast_zero, zero_mul, Finset.sum_ite_eq', Finset.mem_univ, if_true]
  split_ifs with h
  · rw [hval, Nat.mod_eq_of_lt h, Int.cast_one, one_mul]
  · have hsum : 16 * (j.val + k.val) = 256 + 16 * (j + k).val := by omega
    rw [hsum, pow_add 2 256, two_pow_256_mod_prime]
    norm_num

theorem cast_limbSum (f : FieldElem) :
    (limbSum f : ZMod fieldPrime) = ∑ j : Fin 16, (f[j].toInt : ZMod fieldPrime) * 2 ^ (16 * j.val) := by
  rw [limbSum_eq_sum]
  push_cast
  rfl

/-- The folded product stands for the product (R134). -/
theorem cast_limbSum_mulFold {a b : FieldElem} (ha : limbsWithin (2 ^ 26) a) (hb : limbsWithin (2 ^ 26) b) :
    (limbSum (mulFold a b) : ZMod fieldPrime) = limbSum a * limbSum b := by
  calc (limbSum (mulFold a b) : ZMod fieldPrime)
      = ∑ i : Fin 16, ∑ j : Fin 16, ∑ k : Fin 16,
          (foldWeight i j k : ZMod fieldPrime) * (a[j].toInt * b[k].toInt) * 2 ^ (16 * i.val) := by
        rw [cast_limbSum]
        refine Finset.sum_congr rfl fun i _ => ?_
        rw [toInt_mulFold ha hb, foldedSum]
        push_cast
        simp only [Finset.sum_mul]
    _ = ∑ j : Fin 16, ∑ k : Fin 16, (a[j].toInt * b[k].toInt : ZMod fieldPrime) *
          ∑ i : Fin 16, (foldWeight i j k : ZMod fieldPrime) * 2 ^ (16 * i.val) := by
        rw [Finset.sum_comm]
        refine Finset.sum_congr rfl fun j _ => ?_
        rw [Finset.sum_comm]
        refine Finset.sum_congr rfl fun k _ => ?_
        rw [Finset.mul_sum]
        exact Finset.sum_congr rfl fun i _ => by ring
    _ = limbSum a * limbSum b := by
        rw [cast_limbSum, cast_limbSum, Finset.sum_mul_sum]
        refine Finset.sum_congr rfl fun j _ => Finset.sum_congr rfl fun k _ => ?_
        rw [sum_foldWeight]
        ring

/-! ### `mul` and `inv` (R134, R137, R148, R149) -/

theorem nearlyCarried_mul (a b : FieldElem) : NearlyCarried 38 (mul a b) := nearlyCarried_car_car _

theorem limbsWithin_mul (a b : FieldElem) : limbsWithin (2 ^ 26) (mul a b) :=
  ((nearlyCarried_mul a b).limbsWithin (by norm_num)).mono (by norm_num)

theorem cast_val_mul {a b : FieldElem} (ha : limbsWithin (2 ^ 26) a) (hb : limbsWithin (2 ^ 26) b) :
    ((val (mul a b) : Nat) : ZMod fieldPrime) = val a * val b := by
  have hfirst : limbsWithin (2 ^ 62 - 1) (car (mulFold a b)) :=
    (nearlyCarried_car_any _).fits (by norm_num) (by norm_num)
  rw [mul, val_car hfirst, val_car (limbsWithin_mulFold ha hb), cast_val, cast_limbSum_mulFold ha hb, cast_val,
    cast_val]

theorem val_mul {a b : FieldElem} (ha : limbsWithin (2 ^ 26) a) (hb : limbsWithin (2 ^ 26) b) :
    val (mul a b) = val a * val b % fieldPrime :=
  val_eq_of_cast (by rw [cast_val_mul ha hb, Nat.cast_mul])

/-- One turn of the loop of `inv` (R137). -/
def invTurn (a : FieldElem) (k : Nat) (c : FieldElem) : FieldElem :=
  if k = 2 ∨ k = 4 then mul c c else mul (mul c c) a

theorem invLoop_succ (a : FieldElem) (k : Nat) (c : FieldElem) : invLoop a (k + 1) c = invLoop a k (invTurn a k c) := by
  simp only [invLoop, invTurn, ne_eq, ← not_or, ite_not]

/-- The accumulator of `inv` after `n` turns. -/
def invState (a : FieldElem) : Nat → FieldElem
  | 0 => a
  | n + 1 => invTurn a (253 - n) (invState a n)

theorem invState_turn (a : FieldElem) {k : Nat} (hk : k < 254) :
    invState a (254 - k) = invTurn a k (invState a (254 - (k + 1))) := by
  rw [show 254 - k = 254 - (k + 1) + 1 by omega, invState, show 253 - (254 - (k + 1)) = k by omega]

theorem invLoop_invState (a : FieldElem) (k : Nat) (hk : k ≤ 254) :
    invLoop a k (invState a (254 - k)) = invState a 254 := by
  induction k with
  | zero => rfl
  | succ k ih =>
    rw [invLoop_succ, ← invState_turn a (by omega), ih (by omega)]

/-- The bits of `p − 2` below bit 254: the zeros are bits 2 and 4, where `inv` only squares (R137). -/
theorem testBit_prime_sub_two (k : Nat) (hk : k < 254) : (fieldPrime - 2).testBit k = !decide (k = 2 ∨ k = 4) := by
  have hp : fieldPrime - 2 = 2 ^ 255 - (20 + 1) := by decide
  have h20 : (20 : Nat).testBit k = decide (k = 2 ∨ k = 4) := by
    by_cases h : k < 5
    · interval_cases k <;> rfl
    · rw [Nat.testBit_lt_two_pow ((show 20 < 2 ^ 5 by norm_num).trans_le (Nat.pow_le_pow_right (by norm_num) (not_lt.1 h)))]
      simp
      omega
  rw [hp, Nat.testBit_two_pow_sub_succ (by norm_num), h20]
  simp [show k < 255 by omega]

/-- A turn doubles the exponent and adds the bit it stands for. -/
theorem shiftRight_prime_sub_two (k : Nat) (hk : k < 254) :
    (fieldPrime - 2) >>> k = 2 * ((fieldPrime - 2) >>> (k + 1)) + if k = 2 ∨ k = 4 then 0 else 1 := by
  have hbit := testBit_prime_sub_two k hk
  rw [Nat.testBit_eq_decide_div_mod_eq] at hbit
  rw [Nat.shiftRight_succ, Nat.shiftRight_eq_div_pow]
  generalize (fieldPrime - 2) / 2 ^ k = e at *
  split_ifs with h <;> simp [h] at hbit <;> omega

theorem limbsWithin_invTurn (a c : FieldElem) (k : Nat) : limbsWithin (2 ^ 26) (invTurn a k c) := by
  unfold invTurn
  split_ifs <;> exact limbsWithin_mul _ _

theorem cast_val_invTurn {a c : FieldElem} (ha : limbsWithin (2 ^ 26) a) (hc : limbsWithin (2 ^ 26) c) (k : Nat) :
    ((val (invTurn a k c) : Nat) : ZMod fieldPrime) = (val c) ^ 2 * (val a) ^ (if k = 2 ∨ k = 4 then 0 else 1) := by
  unfold invTurn
  split_ifs
  · rw [cast_val_mul hc hc]
    ring
  · rw [cast_val_mul (limbsWithin_mul c c) ha, cast_val_mul hc hc]
    ring

/-- From the power `⌊(p − 2) / 2^k⌋` the last `k` turns reach the power `p − 2`. -/
theorem cast_val_invLoop {a : FieldElem} (ha : limbsWithin (2 ^ 26) a) (k : Nat) (hk : k ≤ 254) {c : FieldElem}
    (hc : limbsWithin (2 ^ 26) c)
    (hval : ((val c : Nat) : ZMod fieldPrime) = (val a) ^ ((fieldPrime - 2) >>> k)) :
    ((val (invLoop a k c) : Nat) : ZMod fieldPrime) = (val a) ^ (fieldPrime - 2) := by
  induction k generalizing c with
  | zero => exact hval
  | succ k ih =>
    rw [invLoop_succ]
    refine ih (by omega) (limbsWithin_invTurn a c k) ?_
    rw [cast_val_invTurn ha hc, hval, shiftRight_prime_sub_two k (by omega), pow_add, pow_mul, pow_right_comm]

/-- `inv` is the power `p − 2` (R137). -/
theorem val_inv {a : FieldElem} (ha : limbsWithin (2 ^ 26) a) :
    val (inv a) = val a ^ (fieldPrime - 2) % fieldPrime := by
  have htop : (fieldPrime - 2) >>> 254 = 1 := by decide
  have hpower := cast_val_invLoop ha 254 le_rfl ha (by rw [htop, pow_one])
  exact val_eq_of_cast (by rw [inv, hpower, Nat.cast_pow])

/-! ### The opcodes of the field commands (R105) -/

theorem opcodeMeans_of_decodeOpcode {op : BitVec 8} {mk : Word → Instr}
    (h : ∀ w, opcodeField w = op → decodeOpcode w = .accept (mk w)) : opcodeMeans op mk :=
  fun w hr hop => (decode_of_rsv w hr).trans (h w hop)

/-! ### The field commands -/

/-- Settles O30, limb by limb, and for the values from the limb sums. -/
theorem faddAddsLimbwise : Obligations.FaddAddsLimbwise := by
  refine ⟨opcodeMeans_of_decodeOpcode fun w hop => by simp [decodeOpcode, hop], fun s d a b => ?_⟩
  refine ⟨s.setFe d (addElem (s.fe a) (s.fe b)), rfl, fun j => ?limb, fun hfits => ?value, unchanged_setFe _ _ _⟩
  case limb => rw [fe_setFe_same, getElem_addElem, BitVec.toInt_add]
  case value =>
    have h : (val (addElem (s.fe a) (s.fe b)) : Int) = ((val (s.fe a) + val (s.fe b) : Nat) : Int) % fieldPrime := by
      rw [coe_val, limbSum_addElem hfits, Nat.cast_add, coe_val, coe_val, ← Int.add_emod]
    rw [fe_setFe_same]
    exact_mod_cast h

/-- Settles O31, limb by limb, and for the values from the limb sums. -/
theorem fsubSubtractsLimbwise : Obligations.FsubSubtractsLimbwise := by
  refine ⟨opcodeMeans_of_decodeOpcode fun w hop => by simp [decodeOpcode, hop], fun s d a b => ?_⟩
  refine ⟨s.setFe d (subElem (s.fe a) (s.fe b)), rfl, fun j => ?limb, fun hfits => ?value, unchanged_setFe _ _ _⟩
  case limb => rw [fe_setFe_same, getElem_subElem, BitVec.toInt_sub]
  case value => rw [fe_setFe_same, coe_val, limbSum_subElem hfits, coe_val, coe_val, ← Int.sub_emod]

/-- Settles O32: `o` is the folded product `mul` computes before its two passes. -/
theorem fmulIsFoldedSchoolbookProduct : Obligations.FmulIsFoldedSchoolbookProduct := by
  refine ⟨opcodeMeans_of_decodeOpcode fun w hop => by simp [decodeOpcode, hop], fun s d a b => ?_⟩
  exact ⟨s.setFe d (mul (s.fe a) (s.fe b)), mulFold (s.fe a) (s.fe b), rfl, getElem_mulFold _ _, fe_setFe_same _ _ _,
    unchanged_setFe _ _ _⟩

/-- Settles O33: neither the folded product nor the passes wrap, and the second pass leaves limb 0 at most 38 off a digit. -/
theorem fmulMultipliesValues : Obligations.FmulMultipliesValues := by
  intro s d a b ha hb
  obtain ⟨hupper, hlower⟩ := nearlyCarried_mul (s.fe a) (s.fe b)
  refine ⟨s.setFe d (mul (s.fe a) (s.fe b)), rfl, ?_⟩
  rw [fe_setFe_same]
  exact ⟨val_mul ha hb, hupper, hlower⟩

/-- Settles O34: the two meanings are one. -/
theorem fsqrIsFmulOfItself : Obligations.FsqrIsFmulOfItself := by
  refine ⟨opcodeMeans_of_decodeOpcode fun w hop => by simp [decodeOpcode, hop], fun s d a => ?_⟩
  exact ⟨s.setFe d (mul (s.fe a) (s.fe a)), rfl, rfl, unchanged_setFe _ _ _⟩

/-- Settles O35: the carries are `carryIn` of the next limb. -/
theorem fcarIsOneCarryPass : Obligations.FcarIsOneCarryPass := by
  refine ⟨opcodeMeans_of_decodeOpcode fun w hop => by simp [decodeOpcode, hop], fun s d a => ?_⟩
  refine ⟨s.setFe d (car (s.fe a)), fun i => carryIn (s.fe a) (i.val + 1), rfl, ?_⟩
  rw [fe_setFe_same]
  refine ⟨?first, ?limb0, fun i => ⟨?carry, ?limb, ?bounds⟩, val_car, unchanged_setFe _ _ _⟩
  case first => exact (carryIn_succ _ 0).trans (by rw [carried_zero, sar])
  case limb0 =>
    have hlow : (carLow (s.fe a))[0] = carried (s.fe a) 0 &&& 0xFFFF#64 := getElem_carLow _ 0
    rw [carried_zero] at hlow
    exact (getElem_car_zero _).trans (by rw [hlow]; rfl)
  case carry => exact carryIn_succ _ _
  case limb => exact getElem_car_of_ne_zero _ (Fin.succ_ne_zero i)
  case bounds => exact (nearlyCarried_car_any _).upper _ (Fin.succ_ne_zero i)

/-- Settles O36: the sequence is the accumulator of `inv`, counted down. -/
theorem finvIsThePowerPMinusTwo : Obligations.FinvIsThePowerPMinusTwo := by
  refine ⟨opcodeMeans_of_decodeOpcode fun w hop => by simp [decodeOpcode, hop], fun s d a => ?_⟩
  refine ⟨s.setFe d (inv (s.fe a)), fun k => invState (s.fe a) (254 - k), rfl, ?start, fun k hk => ?turn, ?last, ?value,
    unchanged_setFe _ _ _⟩
  case start => simp [invState]
  case turn => exact invState_turn _ hk
  case last => rw [fe_setFe_same]; exact invLoop_invState _ 254 le_rfl
  case value => rw [fe_setFe_same]; exact val_inv

theorem exec_fcswap (s : State) (a b : FReg) (swap : Bool) :
    exec (.fcswap a b swap) s =
      .next ((s.setFe a (if swap then s.fe b else s.fe a)).setFe b (if swap then s.fe a else s.fe b)) := by
  rw [exec, execFcswap, cswap_flagLimb]
  cases swap <;> rfl

/-- Settles O37: the branchless select selects; if `F[a]` and `F[b]` are one register, both selections are its content. -/
theorem fcswapSwapsExactlyOnFlag : Obligations.FcswapSwapsExactlyOnFlag := by
  refine ⟨opcodeMeans_of_decodeOpcode fun w hop => by simp [decodeOpcode, hop, immFlag, immField], fun s a b swap => ?_⟩
  refine ⟨_, exec_fcswap s a b swap, ?a, fe_setFe_same _ _ _, ?frame⟩
  case a =>
    rw [fe_setFe, fe_setFe_same]
    split_ifs with hab
    all_goals simp [hab]
  case frame =>
    exact ((unchanged_setFe s a _).mono fun _ => .inl).trans ((unchanged_setFe _ b _).mono fun _ => .inr)

/-- Settles O38: the digits, and from them the value. -/
theorem funpackReadsLittleEndian : Obligations.FunpackReadsLittleEndian := by
  refine ⟨opcodeMeans_of_decodeOpcode fun w hop => by simp [decodeOpcode, hop], fun s d a => ?_⟩
  have h := hasDigits_unpack (s.buf a)
  refine ⟨s.setFe d (unpack (s.buf a)), rfl, ?_⟩
  rw [fe_setFe_same]
  exact ⟨fun j => by rw [h.digit, pow_mul], h.val_eq, unchanged_setFe _ _ _⟩

/-- Settles O39: the first of the three passes of `pack` decides the value, and keeps it below magnitude 2^62. -/
theorem fpackIsTheCanonicalEncoding : Obligations.FpackIsTheCanonicalEncoding := by
  refine ⟨opcodeMeans_of_decodeOpcode fun w hop => by simp [decodeOpcode, hop], fun s d a => ?_⟩
  refine ⟨s.setBuf d (pack (s.fe a)), rfl, ?_⟩
  rw [buf_setBuf_same, le256_pack]
  exact ⟨val_lt _, rfl, val_car, unchanged_setBuf _ _ _⟩

/-- Settles O40: both round trips reduce the number mod `p` once. -/
theorem packUnpackCanonicalise : Obligations.PackUnpackCanonicalise := by
  refine ⟨fun f => ?_, fun x => ?_⟩
  · rw [pack_of_digits (hasDigits_unpack_pack f), Nat.mod_eq_of_lt (val_lt _), pack_eq]
  · have h := hasDigits_unpack x
    have hround := hasDigits_unpack_pack (unpack x)
    rw [h.val_car] at hround
    constructor
    · intro heq
      rw [heq] at hround
      rw [h.number_unique hround]
      exact Nat.mod_lt _ fieldPrime_pos
    · intro hlt
      rw [Nat.mod_eq_of_lt hlt] at hround
      exact hround.unique h

end Sys2Proof.Machine

/-!
The family of the scalar multiplier (41_scalarmult.md). The byte strings are read as numbers: the clamped scalar and its bits (O43).
The exact ladder and the limb-level sequence are both carried along R171's ladder over `ZMod fieldPrime`: the first is that ladder
on residues (O41, O42), the second holds its pairs as lazily carried limbs, with the pending swap already done (O44).
-/

namespace Sys2Proof.Machine

/-! ### Byte strings as numbers (R15, R170) -/

theorem le256_injective : Function.Injective le256 := fun x y h => by
  apply Vector.ext
  intro i hi
  exact BitVec.eq_of_toNat_eq (by rw [← le256_byte x i hi, ← le256_byte y i hi, h])

/-- The integer by its first byte, its last byte and the 30 bytes between. -/
theorem exists_le256_set_ends (x : Buffer) :
    ∃ mid < 2 ^ 240, ∀ lo hi : Byte, le256 ((x.set 0 lo).set 31 hi) = lo.toNat + 2 ^ 8 * mid + 2 ^ 248 * hi.toNat := by
  refine ⟨∑ i : Fin 30, x[i.val + 1].toNat * (2 ^ 8) ^ i.val, ?_, fun lo hi => ?_⟩
  · have h := (digit_sum_base fun i : Fin 30 => x[i.val + 1].isLt).1
    rwa [← pow_mul] at h
  · have hmid (i : Fin 30) : ((x.set 0 lo).set 31 hi)[i.castSucc.succ] = x[i.val + 1] := by
      simp [show i.val ≠ 30 by omega]
    have hlast : ((x.set 0 lo).set 31 hi)[(Fin.last 30).succ] = hi := by simp
    rw [le256_eq_sum, Fin.sum_univ_succ, Fin.sum_univ_castSucc, hlast, Finset.mul_sum, ← add_assoc]
    refine congr_arg₂ _ (congr_arg₂ _ ?_ (Finset.sum_congr rfl fun i _ => ?_)) ?_
    · simp
    · rw [hmid, Fin.val_succ, Fin.val_castSucc, pow_succ]
      ring
    · rw [Fin.val_succ, Fin.val_last, ← pow_mul, mul_comm]

theorem toNat_clamp_low : ∀ b : Byte, (b &&& 0xF8#8).toNat = b.toNat / 8 * 8 := by decide +kernel

theorem toNat_clamp_high : ∀ b : Byte, ((b &&& 0x7F#8) ||| 0x40#8).toNat = b.toNat % 64 + 64 := by decide +kernel

/-- Clamping clears bits 0 to 2 and 255 and sets bit 254 (R170). -/
theorem le256_clamp (k : Buffer) : le256 (clamp k) = le256 k / 8 % 2 ^ 251 * 8 + 2 ^ 254 := by
  obtain ⟨mid, hmid, hends⟩ := exists_le256_set_ends k
  have hself : (k.set 0 k[0]).set 31 k[31] = k := by simp
  have hk := hends k[0] k[31]
  have h0 := k[0].isLt
  have h31 := k[31].isLt
  rw [hself] at hk
  rw [clamp, hends, toNat_clamp_low, toNat_clamp_high, hk]
  omega

theorem clamp_clamp (k : Buffer) : clamp (clamp k) = clamp k := by
  apply le256_injective
  rw [le256_clamp, le256_clamp k]
  omega

theorem scalarBit_eq_testBit (z : Buffer) (i : Fin 256) : scalarBit z i = (le256 z).testBit i := by
  rw [scalarBit, ← BitVec.testBit_toNat, ← le256_byte z (i.val / 8) (by omega), ← pow_mul, Nat.testBit_mod_two_pow,
    Nat.testBit_div_two_pow, Nat.mod_add_div]
  simp [Nat.mod_lt]

theorem cast_val_unpack (u : Buffer) :
    ((val (unpack u) : Nat) : ZMod fieldPrime) = ((le256 u % 2 ^ 255 : Nat) : ZMod fieldPrime) := by
  rw [(hasDigits_unpack u).val_eq, ZMod.natCast_mod]

/-! ### R171's ladder over a ring -/

/-- The iterations of R171's loop for the scalar bits `t - 1` down to 0. -/
def ringTurns {R : Type} [CommRing R] (x1 : R) (n t : Nat) (m : RingLadder R) : RingLadder R :=
  (List.range t).reverse.foldl (fun m i => RingLadder.step x1 (n.testBit i) m) m

theorem ringTurns_succ {R : Type} [CommRing R] (x1 : R) (n t : Nat) (m : RingLadder R) :
    ringTurns x1 n (t + 1) m = ringTurns x1 n t (RingLadder.step x1 (n.testBit t) m) := by
  rw [ringTurns, List.range_succ, List.reverse_append]
  rfl

/-- R171's working values before the first iteration. -/
def ringStart {R : Type} [CommRing R] (x1 : R) : RingLadder R :=
  { x2 := 1, z2 := 0, x3 := x1, z3 := 1, swap := false }

theorem ringLadder_eq {R : Type} [CommRing R] (x1 : R) (n : Nat) :
    ringLadder x1 n = (ringTurns x1 n 255 (ringStart x1)).cswap (ringTurns x1 n 255 (ringStart x1)).swap := rfl

theorem RingLadder.cswap_cswap {R : Type} (m : RingLadder R) (s t : Bool) : (m.cswap s).cswap t = m.cswap (xor s t) := by
  cases s <;> cases t <;> rfl

/-! ### The exact ladder on residues (R171) -/

/-- The working registers as residue classes. -/
def Ladder.toRing (l : Ladder) : RingLadder (ZMod fieldPrime) :=
  { x2 := l.x2, z2 := l.z2, x3 := l.x3, z3 := l.z3, swap := l.swap }

theorem toRing_ladderSwap (l : Ladder) (s : Bool) : (ladderSwap l s).toRing = l.toRing.cswap s := by
  cases s <;> rfl

theorem toRing_ladderStep (x1 : Nat) (kt : Bool) (l : Ladder) :
    (ladderStep x1 kt l).toRing = RingLadder.step (x1 : ZMod fieldPrime) kt l.toRing := by
  have hswap := toRing_ladderSwap l (xor l.swap kt)
  rw [RingLadder.step, show l.toRing.swap = l.swap from rfl, ← hswap]
  simp only [ladderStep, Ladder.toRing, cast_addMod, cast_subMod, cast_mulMod, a24, Nat.cast_ofNat]
  congr 1 <;> ring

theorem toRing_ladderLoop (x1 n t : Nat) (l : Ladder) :
    (ladderLoop x1 n t l).toRing = ringTurns (x1 : ZMod fieldPrime) n t l.toRing := by
  induction t generalizing l with
  | zero => rfl
  | succ t ih => rw [ladderLoop, ih, toRing_ladderStep, ringTurns_succ]

/-- The working registers before the first iteration. -/
def ladderStart (x1 : Nat) : Ladder := { x2 := 1, z2 := 0, x3 := x1, z3 := 1, swap := false }

/-- The working registers after the last swap. -/
def finishedLadder (x1 n : Nat) : Ladder :=
  ladderSwap (ladderLoop x1 n 255 (ladderStart x1)) (ladderLoop x1 n 255 (ladderStart x1)).swap

theorem x25519_eq (k u : Buffer) :
    x25519 k u = encode256 (mulMod (finishedLadder (val (unpack u)) (le256 (clamp k))).x2
      (powMod (finishedLadder (val (unpack u)) (le256 (clamp k))).z2 255 (fieldPrime - 2))) := rfl

theorem toRing_finishedLadder (x1 n : Nat) : (finishedLadder x1 n).toRing = ringLadder (x1 : ZMod fieldPrime) n := by
  have hstart : (ladderStart x1).toRing = ringStart (x1 : ZMod fieldPrime) := by simp [ladderStart, ringStart, Ladder.toRing]
  have hloop := toRing_ladderLoop x1 n 255 (ladderStart x1)
  rw [hstart] at hloop
  rw [finishedLadder, toRing_ladderSwap, hloop, ringLadder_eq, ← hloop]
  rfl

theorem le256_x25519 (k u : Buffer) :
    le256 (x25519 k u) = mulMod (finishedLadder (val (unpack u)) (le256 (clamp k))).x2
      (powMod (finishedLadder (val (unpack u)) (le256 (clamp k))).z2 255 (fieldPrime - 2)) := by
  rw [x25519_eq, le256_encode256 _ ((mulMod_lt _ _).trans (by decide))]

theorem le256_x25519_lt (k u : Buffer) : le256 (x25519 k u) < fieldPrime := by
  rw [le256_x25519]
  exact mulMod_lt _ _

/-- The exact ladder is R171's over `ZMod fieldPrime`, on the clamped scalar and the masked u-coordinate. -/
theorem cast_le256_x25519 (k u : Buffer) :
    ((le256 (x25519 k u) : Nat) : ZMod fieldPrime) =
      ringX25519 ((le256 u % 2 ^ 255 : Nat) : ZMod fieldPrime) (le256 (clamp k)) := by
  rw [le256_x25519, cast_mulMod, cast_powMod _ _ _ (by decide), ← cast_val_unpack, ringX25519, ← toRing_finishedLadder]
  rfl

/-! ### Elements that stand for a residue (R14, R148, R149) -/

/-- The value of `f` is `v`, and its limbs have magnitude at most `n`. -/
structure Represents (n : Int) (f : FieldElem) (v : ZMod fieldPrime) : Prop where
  limbs : limbsWithin n f
  value : ((val f : Nat) : ZMod fieldPrime) = v

theorem Represents.of_eq {n : Int} {f : FieldElem} {v w : ZMod fieldPrime} (h : Represents n f v) (hw : v = w) :
    Represents n f w :=
  hw ▸ h

/-- A carried element is a valid source (R148). -/
theorem Represents.source {f : FieldElem} {v : ZMod fieldPrime} (h : Represents (2 ^ 17) f v) : Represents (2 ^ 26) f v :=
  ⟨h.limbs.mono (by norm_num), h.value⟩

/-- The sum of two carried elements, not carried again, is a valid source. -/
theorem Represents.add {f g : FieldElem} {v w : ZMod fieldPrime} (hf : Represents (2 ^ 17) f v)
    (hg : Represents (2 ^ 17) g w) : Represents (2 ^ 26) (addElem f g) (v + w) := by
  have hfits (j : Fin 16) : -2 ^ 63 ≤ f[j].toInt + g[j].toInt ∧ f[j].toInt + g[j].toInt < 2 ^ 63 := by
    have hfj := hf.limbs j
    have hgj := hg.limbs j
    omega
  refine ⟨fun j => ?_, ?_⟩
  · have hfj := hf.limbs j
    have hgj := hg.limbs j
    rw [getElem_addElem, toInt_add_of_fits (hfits j).1 (hfits j).2]
    omega
  · rw [cast_val, limbSum_addElem hfits, Int.cast_add, ← cast_val, ← cast_val, hf.value, hg.value]

/-- The difference of two carried elements, not carried again, is a valid source. -/
theorem Represents.sub {f g : FieldElem} {v w : ZMod fieldPrime} (hf : Represents (2 ^ 17) f v)
    (hg : Represents (2 ^ 17) g w) : Represents (2 ^ 26) (subElem f g) (v - w) := by
  have hfits (j : Fin 16) : -2 ^ 63 ≤ f[j].toInt - g[j].toInt ∧ f[j].toInt - g[j].toInt < 2 ^ 63 := by
    have hfj := hf.limbs j
    have hgj := hg.limbs j
    omega
  refine ⟨fun j => ?_, ?_⟩
  · have hfj := hf.limbs j
    have hgj := hg.limbs j
    rw [getElem_subElem, toInt_sub_of_fits (hfits j).1 (hfits j).2]
    omega
  · rw [cast_val, limbSum_subElem hfits, Int.cast_sub, ← cast_val, ← cast_val, hf.value, hg.value]

/-- A product of valid sources is carried. -/
theorem Represents.mul {f g : FieldElem} {v w : ZMod fieldPrime} (hf : Represents (2 ^ 26) f v)
    (hg : Represents (2 ^ 26) g w) : Represents (2 ^ 17) (Machine.mul f g) (v * w) :=
  ⟨((nearlyCarried_mul f g).limbsWithin (by norm_num)).mono (by norm_num),
    by rw [cast_val_mul hf.limbs hg.limbs, hf.value, hg.value]⟩

theorem limbsWithin_inv (f : FieldElem) : limbsWithin (2 ^ 26) (Machine.inv f) := by
  rw [Machine.inv, show invLoop f 254 f = invState f 254 from invLoop_invState f 254 le_rfl]
  exact limbsWithin_invTurn _ _ _

theorem Represents.inv {f : FieldElem} {v : ZMod fieldPrime} (hf : Represents (2 ^ 26) f v) :
    Represents (2 ^ 26) (Machine.inv f) (v ^ (fieldPrime - 2)) :=
  ⟨limbsWithin_inv f, by rw [val_inv hf.limbs, ZMod.natCast_mod, Nat.cast_pow, hf.value]⟩

/-- Limbs that are the digits of a number represent its residue, carried. -/
theorem HasDigits.represents {f : FieldElem} {N : Nat} (h : HasDigits f N) : Represents (2 ^ 17) f N :=
  ⟨h.limbsWithin.mono (by norm_num), by rw [h.val_eq, ZMod.natCast_mod]⟩

/-- An element of two low limbs has them as digits. -/
theorem hasDigits_smallElem {l0 l1 : Limb} (h0 : l0.toNat < 2 ^ 16) (h1 : l1.toNat < 2 ^ 16) :
    HasDigits (smallElem l0 l1) (l0.toNat + 2 ^ 16 * l1.toNat) := by
  refine ⟨by omega, fun j => ?_⟩
  obtain ⟨_ | _ | n, hj⟩ := j
  · have hlimb : (smallElem l0 l1)[0] = l0 := by simp [smallElem]
    change (smallElem l0 l1)[0].toNat = _ / (2 ^ 16) ^ 0 % 2 ^ 16
    rw [hlimb]
    omega
  · have hlimb : (smallElem l0 l1)[1] = l1 := by simp [smallElem]
    change (smallElem l0 l1)[1].toNat = _ / (2 ^ 16) ^ 1 % 2 ^ 16
    rw [hlimb]
    omega
  · have hlimb : (smallElem l0 l1)[n + 2] = 0#64 := by simp [smallElem]
    have hlt : l0.toNat + 2 ^ 16 * l1.toNat < (2 ^ 16) ^ (n + 2) :=
      calc l0.toNat + 2 ^ 16 * l1.toNat < (2 ^ 16) ^ 2 := by omega
        _ ≤ (2 ^ 16) ^ (n + 2) := Nat.pow_le_pow_right (by norm_num) (Nat.le_add_left 2 n)
    change (smallElem l0 l1)[n + 2].toNat = _ / (2 ^ 16) ^ (n + 2) % 2 ^ 16
    rw [hlimb, Nat.div_eq_of_lt hlt]
    rfl

/-! ### The limb-level sequence (R176) -/

/-- The pairs of `l` stand, carried, for those of `m`. -/
structure LimbLadder.Represents (l : LimbLadder) (m : RingLadder (ZMod fieldPrime)) : Prop where
  x2 : Machine.Represents (2 ^ 17) l.a m.x2
  x3 : Machine.Represents (2 ^ 17) l.b m.x3
  z2 : Machine.Represents (2 ^ 17) l.c m.z2
  z3 : Machine.Represents (2 ^ 17) l.d m.z3

/-- The two swaps of R176 for the scalar bit `r`. -/
def LimbLadder.swapPairs (l : LimbLadder) (r : Bool) : LimbLadder :=
  { a := (cswap l.a l.b (flagLimb r)).1
    b := (cswap l.a l.b (flagLimb r)).2
    c := (cswap l.c l.d (flagLimb r)).1
    d := (cswap l.c l.d (flagLimb r)).2 }

/-- R176's differential addition and doubling, what it does between the swaps. -/
def LimbLadder.addAndDouble (x : FieldElem) (l : LimbLadder) : LimbLadder :=
  let sum2 := addElem l.a l.c
  let diff2 := subElem l.a l.c
  let aa := mul sum2 sum2
  let bb := mul diff2 diff2
  let cb := mul (addElem l.b l.d) diff2
  let da := mul (subElem l.b l.d) sum2
  let e := subElem aa bb
  { a := mul aa bb
    b := mul (addElem cb da) (addElem cb da)
    c := mul e (addElem (mul e (smallElem 0xDB41#64 0x1#64)) aa)
    d := mul (mul (subElem cb da) (subElem cb da)) x }

theorem limbLadderStep_eq (x : FieldElem) (r : Bool) (l : LimbLadder) :
    limbLadderStep x r l = ((l.swapPairs r).addAndDouble x).swapPairs r := rfl

theorem LimbLadder.Represents.swapPairs {l : LimbLadder} {m : RingLadder (ZMod fieldPrime)} (h : l.Represents m) (r : Bool) :
    (l.swapPairs r).Represents (m.cswap r) := by
  obtain ⟨hx2, hx3, hz2, hz3⟩ := h
  cases r <;> simp only [LimbLadder.swapPairs, cswap_flagLimb]
  · exact ⟨hx2, hx3, hz2, hz3⟩
  · exact ⟨hx3, hx2, hz3, hz2⟩

/-- On swapped pairs, addition and doubling is one iteration of R171. -/
theorem LimbLadder.Represents.addAndDouble {l : LimbLadder} {m : RingLadder (ZMod fieldPrime)} {r : Bool} {x : FieldElem}
    {x1 : ZMod fieldPrime} (h : l.Represents (m.cswap (xor m.swap r))) (hx : Machine.Represents (2 ^ 17) x x1) :
    (l.addAndDouble x).Represents (RingLadder.step x1 r m) := by
  obtain ⟨hx2, hx3, hz2, hz3⟩ := h
  have hA := hx2.add hz2
  have hB := hx2.sub hz2
  have hAA := hA.mul hA
  have hBB := hB.mul hB
  have hCB := (hx3.add hz3).mul hB
  have hDA := (hx3.sub hz3).mul hA
  have hE := hAA.sub hBB
  have ha24 : Machine.Represents (2 ^ 17) (smallElem 0xDB41#64 0x1#64) (121665 : Nat) :=
    (hasDigits_smallElem (by decide) (by decide)).represents
  have hsum := hCB.add hDA
  have hdiff := hCB.sub hDA
  refine ⟨(hAA.source.mul hBB.source).of_eq ?_, (hsum.mul hsum).of_eq ?_,
    (hE.mul ((hE.mul ha24.source).add hAA)).of_eq ?_, ((hdiff.mul hdiff).source.mul hx.source).of_eq ?_⟩
  all_goals
    rw [RingLadder.step]
    push_cast
    ring

/-- R176 swaps back in the iteration, R171 in the next: between iterations the limbs hold the pairs with the pending swap done. -/
theorem LimbLadder.Represents.step {l : LimbLadder} {m : RingLadder (ZMod fieldPrime)} {x : FieldElem}
    {x1 : ZMod fieldPrime} (h : l.Represents (m.cswap m.swap)) (hx : Machine.Represents (2 ^ 17) x x1) (r : Bool) :
    (limbLadderStep x r l).Represents ((RingLadder.step x1 r m).cswap r) := by
  have hswapped := h.swapPairs r
  rw [RingLadder.cswap_cswap] at hswapped
  rw [limbLadderStep_eq]
  exact (hswapped.addAndDouble hx).swapPairs r

theorem LimbLadder.Represents.loop {x : FieldElem} {x1 : ZMod fieldPrime} (hx : Machine.Represents (2 ^ 17) x x1)
    (z : Buffer) (t : Nat) (ht : t ≤ 256) {l : LimbLadder} {m : RingLadder (ZMod fieldPrime)}
    (h : l.Represents (m.cswap m.swap)) :
    (limbLadderLoop x z t l).Represents
      ((ringTurns x1 (le256 z) t m).cswap (ringTurns x1 (le256 z) t m).swap) := by
  induction t generalizing l m with
  | zero => exact h
  | succ t ih =>
    have hbit : scalarBit z (Fin.ofNat 256 t) = (le256 z).testBit t := by
      rw [scalarBit_eq_testBit, Fin.val_ofNat, Nat.mod_eq_of_lt ht]
    rw [limbLadderLoop, hbit, ringTurns_succ]
    exact ih (by omega) (h.step hx _)

/-- The four working elements before the first iteration. -/
def limbLadderStart (x : FieldElem) : LimbLadder :=
  { a := smallElem 1#64 0#64, b := x, c := smallElem 0#64 0#64, d := smallElem 1#64 0#64 }

theorem represents_limbLadderStart {x : FieldElem} {x1 : ZMod fieldPrime} (hx : Represents (2 ^ 17) x x1) :
    (limbLadderStart x).Represents (ringStart x1) := by
  have hone : Represents (2 ^ 17) (smallElem 1#64 0#64) (1 : Nat) :=
    (hasDigits_smallElem (by decide) (by decide)).represents
  have hzero : Represents (2 ^ 17) (smallElem 0#64 0#64) (0 : Nat) :=
    (hasDigits_smallElem (by decide) (by decide)).represents
  rw [Nat.cast_one] at hone
  rw [Nat.cast_zero] at hzero
  exact ⟨hone, hx, hzero, hone⟩

/-- The working elements after the last iteration. -/
def finishedLimbs (k u : Buffer) : LimbLadder := limbLadderLoop (unpack u) (clamp k) 255 (limbLadderStart (unpack u))

theorem x25519Limbs_eq (k u : Buffer) :
    x25519Limbs k u = pack (mul (finishedLimbs k u).a (inv (finishedLimbs k u).c)) := rfl

theorem represents_finishedLimbs (k u : Buffer) :
    (finishedLimbs k u).Represents (ringLadder ((le256 u % 2 ^ 255 : Nat) : ZMod fieldPrime) (le256 (clamp k))) :=
  have hx := (hasDigits_unpack u).represents
  LimbLadder.Represents.loop hx (clamp k) 255 (by norm_num) (m := ringStart _) (represents_limbLadderStart hx)

theorem le256_x25519Limbs_lt (k u : Buffer) : le256 (x25519Limbs k u) < fieldPrime := by
  rw [x25519Limbs_eq, le256_pack]
  exact val_lt _

/-- The limb-level sequence, too, is R171's ladder over `ZMod fieldPrime`. -/
theorem cast_le256_x25519Limbs (k u : Buffer) :
    ((le256 (x25519Limbs k u) : Nat) : ZMod fieldPrime) =
      ringX25519 ((le256 u % 2 ^ 255 : Nat) : ZMod fieldPrime) (le256 (clamp k)) := by
  have h := represents_finishedLimbs k u
  have hout := h.x2.source.mul h.z2.source.inv
  rw [x25519Limbs_eq, le256_pack, val_car (hout.limbs.mono (by norm_num))]
  exact hout.value

/-! ### The scalar-multiplier commands -/

/-- Settles O44: both outputs are below p and stand for R171's output, so they are one number. -/
theorem limbLevelLadderIsExact : Obligations.LimbLevelLadderIsExact := by
  intro k u
  apply le256_injective
  have hcast := (cast_le256_x25519Limbs k u).trans (cast_le256_x25519 k u).symm
  rwa [ZMod.natCast_eq_natCast_iff', Nat.mod_eq_of_lt (le256_x25519Limbs_lt k u),
    Nat.mod_eq_of_lt (le256_x25519_lt k u)] at hcast

/-- Settles O43: the output uses the scalar only clamped, and the clamped scalar is a number of bits 3 to 253. -/
theorem clampedScalarsDecideTheOutput : Obligations.ClampedScalarsDecideTheOutput := by
  refine fun k k' u => ⟨clamp_clamp k, fun h => ?_⟩
  have hclamp : clamp k = clamp k' := le256_injective (by rw [le256_clamp, le256_clamp, h])
  rw [x25519_eq, hclamp, x25519_eq]

/-- Settles O41, through the exact ladder's residues. -/
theorem smultIsTheLadderModP : Obligations.SmultIsTheLadderModP := by
  refine ⟨opcodeMeans_of_decodeOpcode fun w hop => by simp [decodeOpcode, hop], fun s d a b => ?_⟩
  refine ⟨s.setBuf d (x25519 (s.buf a) (s.buf b)), rfl, ?_⟩
  rw [buf_setBuf_same, ← le256_clamp]
  exact ⟨le256_x25519_lt _ _, cast_le256_x25519 _ _, unchanged_setBuf _ _ _⟩

theorem le256_basePoint : le256 basePoint = 9 := by decide +kernel

/-- Settles O42: a buffer of the integer 9 is the base point. -/
theorem smultbIsSmultOfTheBasePoint : Obligations.SmultbIsSmultOfTheBasePoint := by
  refine ⟨opcodeMeans_of_decodeOpcode fun w hop => by simp [decodeOpcode, hop], fun s d a => ?_⟩
  refine ⟨s.setBuf d (x25519 (s.buf a) basePoint), rfl, ?_⟩
  rw [buf_setBuf_same, ← le256_clamp]
  refine ⟨le256_x25519_lt _ _, ?ladder, fun x hx => ?smult, unchanged_setBuf _ _ _⟩
  case ladder =>
    rw [cast_le256_x25519, le256_basePoint]
    rfl
  case smult =>
    rw [exec, execSmult, le256_injective (hx.trans le256_basePoint.symm)]

end Sys2Proof.Machine

/-!
The family of the sponge (42_sponge.md). The permutation layer by layer: the substitution layer as a table (O45), the linear layer
as rotations (O46), both injective, hence the permutation a bijection (O47), and its rounds (O48). Then the commands: what each
does to `S`, `PHASE`, `DOUT` and `K` (O50 to O55), and the phases of a run (O56). Last, the host's sequences of commands (O58, O59),
followed on the data registers alone.
-/

namespace Sys2Proof.Machine

/-! ### The substitution layer (R192) -/

/-- The number of five bits, the first one highest (R192). -/
def packLane (b0 b1 b2 b3 b4 : Bool) : Nat :=
  b0.toNat * 16 + b1.toNat * 8 + b2.toNat * 4 + b3.toNat * 2 + b4.toNat

/-- Bit `j` of each word, packed. -/
def laneValue (x : Sponge) (j : Nat) : Nat :=
  packLane (x[0].getLsbD j) (x[1].getLsbD j) (x[2].getLsbD j) (x[3].getLsbD j) (x[4].getLsbD j)

/-- `SBOX` of R192. -/
def sboxTable : List Nat :=
  [4, 11, 31, 20, 26, 21, 9, 2, 27, 5, 8, 18, 29, 3, 6, 28, 30, 19, 7, 14, 0, 13, 17, 24, 16, 12, 1, 25, 22, 10, 15, 23]

/-- The layer's statements on one lane are a look-up: their bits generalised, they are five-bit Boolean functions. -/
theorem laneValue_sboxLayer (x : Sponge) {j : Nat} (hj : j < 64) :
    laneValue (sboxLayer x) j = sboxTable.getD (laneValue x j) 32 := by
  unfold laneValue sboxLayer
  simp only [Vector.getElem_mk, List.getElem_toArray, List.getElem_cons_zero, List.getElem_cons_succ,
    BitVec.getLsbD_xor, BitVec.getLsbD_and, BitVec.getLsbD_not, hj, decide_true, Bool.true_and]
  generalize x[0].getLsbD j = b0
  generalize x[1].getLsbD j = b1
  generalize x[2].getLsbD j = b2
  generalize x[3].getLsbD j = b3
  generalize x[4].getLsbD j = b4
  revert b0 b1 b2 b3 b4
  decide

/-- Settles O45: a lane's number is the packed column. -/
theorem sboxLayerIsTheTableInEveryLane : Obligations.SboxLayerIsTheTableInEveryLane :=
  fun x j => laneValue_sboxLayer x j.isLt

theorem packLane_injective : ∀ b0 b1 b2 b3 b4 c0 c1 c2 c3 c4 : Bool,
    packLane b0 b1 b2 b3 b4 = packLane c0 c1 c2 c3 c4 → b0 = c0 ∧ b1 = c1 ∧ b2 = c2 ∧ b3 = c3 ∧ b4 = c4 := by
  decide +kernel

theorem packLane_lt : ∀ b0 b1 b2 b3 b4 : Bool, packLane b0 b1 b2 b3 b4 < 32 := by
  decide

theorem sboxTable_injective : ∀ u v : Fin 32, sboxTable.getD u 32 = sboxTable.getD v 32 → u = v := by
  decide +kernel

/-- Two states with the same lanes are the same. -/
theorem sponge_eq_of_laneValue {x y : Sponge} (h : ∀ j < 64, laneValue x j = laneValue y j) : x = y := by
  apply Vector.ext
  intro w hw
  apply BitVec.eq_of_getLsbD_eq
  intro j hj
  obtain ⟨h0, h1, h2, h3, h4⟩ := packLane_injective _ _ _ _ _ _ _ _ _ _ (h j hj)
  interval_cases w
  exacts [h0, h1, h2, h3, h4]

theorem sboxLayer_injective : Function.Injective sboxLayer := by
  intro x y h
  apply sponge_eq_of_laneValue
  intro j hj
  have htable : sboxTable.getD (laneValue x j) 32 = sboxTable.getD (laneValue y j) 32 := by
    rw [← laneValue_sboxLayer x hj, ← laneValue_sboxLayer y hj, h]
  exact congrArg Fin.val (sboxTable_injective ⟨_, packLane_lt _ _ _ _ _⟩ ⟨_, packLane_lt _ _ _ _ _⟩ htable)

/-! ### The linear layer (R193) -/

/-- The pairs of R193, by word. -/
def rotationPair (w : Fin 5) : Nat × Nat := (#v[(19, 28), (61, 39), (1, 6), (10, 17), (7, 41)] : Vector (Nat × Nat) 5)[w]

theorem rotationPair_range (w : Fin 5) :
    (0 < (rotationPair w).1 ∧ (rotationPair w).1 < 64) ∧ 0 < (rotationPair w).2 ∧ (rotationPair w).2 < 64 := by
  revert w
  decide

theorem getElem_linearLayer (x : Sponge) (w : Fin 5) :
    (linearLayer x)[w] = diffuse (rotationPair w).1 (rotationPair w).2 x[w] := by
  fin_cases w <;> rfl

/-- A bit of a word XORed with two right rotations of itself. -/
theorem getLsbD_diffuse {a b : Nat} (ha : 0 < a ∧ a < 64) (hb : 0 < b ∧ b < 64) (x : Word64) {j : Nat} (hj : j < 64) :
    (diffuse a b x).getLsbD j =
      xor (xor (x.getLsbD j) (x.getLsbD ((j + a) % 64))) (x.getLsbD ((j + b) % 64)) := by
  rw [diffuse, BitVec.getLsbD_xor, BitVec.getLsbD_xor, getLsbD_rotr64 x a j ha.1 ha.2 hj,
    getLsbD_rotr64 x b j hb.1 hb.2 hj]

/-- Settles O46, word by word. -/
theorem linearLayerXorsTwoRightRotations : Obligations.LinearLayerXorsTwoRightRotations := by
  intro x w j
  obtain ⟨ha, hb⟩ := rotationPair_range w
  rw [getElem_linearLayer, getLsbD_diffuse ha hb _ j.isLt]
  fin_cases w <;> rfl

/-- The bits of a word, repeated with period 64. -/
def periodicBits (x : Word64) (j : Nat) : Bool := x.getLsbD (j % 64)

theorem periodicBits_injective : Function.Injective periodicBits := by
  intro x y h
  apply BitVec.eq_of_getLsbD_eq
  intro j hj
  have hbit := congrFun h j
  rwa [periodicBits, periodicBits, Nat.mod_eq_of_lt hj] at hbit

/-- A bit sequence XORed with itself shifted by `a` and by `b`. -/
def xorShifts (a b : Nat) (f : Nat → Bool) (j : Nat) : Bool := xor (xor (f j) (f (j + a))) (f (j + b))

theorem periodicBits_diffuse {a b : Nat} (ha : 0 < a ∧ a < 64) (hb : 0 < b ∧ b < 64) (x : Word64) :
    periodicBits (diffuse a b x) = xorShifts a b (periodicBits x) := by
  funext j
  simp only [periodicBits, xorShifts]
  rw [getLsbD_diffuse ha hb x (Nat.mod_lt j (by norm_num)), Nat.mod_add_mod, Nat.mod_add_mod]

/-- Done twice, the shifts double: the crossed terms cancel. -/
theorem xorShifts_xorShifts (a b : Nat) (f : Nat → Bool) :
    xorShifts a b (xorShifts a b f) = xorShifts (2 * a) (2 * b) f := by
  funext j
  simp only [xorShifts]
  rw [show j + a + a = j + 2 * a by ring, show j + b + b = j + 2 * b by ring, show j + b + a = j + a + b by ring]
  generalize f j = t
  generalize f (j + a) = u
  generalize f (j + b) = v
  generalize f (j + a + b) = w
  generalize f (j + 2 * a) = u'
  generalize f (j + 2 * b) = v'
  revert t u v w u' v'
  decide

/-- After six doublings the shifts are multiples of 64, and three copies XOR to one. -/
theorem xorShifts_doubled_six (a b : Nat) (x : Word64) :
    xorShifts (2 ^ 6 * a) (2 ^ 6 * b) (periodicBits x) = periodicBits x := by
  funext j
  simp [xorShifts, periodicBits]

/-- So equal results come from equal sequences of period 64: both sides doubled six times are the sequences themselves. -/
theorem periodicBits_eq_of_xorShifts {a b : Nat} {x y : Word64}
    (h : xorShifts a b (periodicBits x) = xorShifts a b (periodicBits y)) : periodicBits x = periodicBits y := by
  have hdoubled (n : Nat) : xorShifts (2 ^ n * a) (2 ^ n * b) (periodicBits x) =
      xorShifts (2 ^ n * a) (2 ^ n * b) (periodicBits y) := by
    induction n with
    | zero => simpa using h
    | succ n ih =>
      have htwice := congrArg (xorShifts (2 ^ n * a) (2 ^ n * b)) ih
      rw [xorShifts_xorShifts, xorShifts_xorShifts] at htwice
      rwa [pow_succ', mul_assoc, mul_assoc]
  have hsix := hdoubled 6
  rwa [xorShifts_doubled_six, xorShifts_doubled_six] at hsix

theorem diffuse_injective {a b : Nat} (ha : 0 < a ∧ a < 64) (hb : 0 < b ∧ b < 64) :
    Function.Injective (diffuse a b) := by
  intro x y h
  apply periodicBits_injective
  apply periodicBits_eq_of_xorShifts (a := a) (b := b)
  rw [← periodicBits_diffuse ha hb, ← periodicBits_diffuse ha hb, h]

theorem linearLayer_injective : Function.Injective linearLayer := by
  intro x y h
  apply Vector.ext
  intro w hw
  obtain ⟨ha, hb⟩ := rotationPair_range ⟨w, hw⟩
  apply diffuse_injective ha hb
  exact (getElem_linearLayer x ⟨w, hw⟩).symm.trans ((congrArg (·[w]) h).trans (getElem_linearLayer y ⟨w, hw⟩))

/-! ### The permutation (R190, R191, R194) -/

theorem addConst_injective (rounds i : Nat) : Function.Injective (addConst rounds i) := by
  intro x y h
  have hword (w : Nat) (hw : w < 5) : (addConst rounds i x)[w] = (addConst rounds i y)[w] := congrArg (·[w]) h
  apply Vector.ext
  intro w hw
  have := hword w hw
  simp only [addConst, Vector.getElem_set] at this
  split_ifs at this with h2
  · subst h2
    simpa using this
  · exact this

theorem permRound_injective (rounds i : Nat) : Function.Injective fun x => permRound rounds x i :=
  linearLayer_injective.comp (sboxLayer_injective.comp (addConst_injective rounds i))

/-- The state after the first `n` rounds of a permutation of `rounds` rounds. -/
def afterRounds (rounds : Nat) (x : Sponge) (n : Nat) : Sponge := (List.range n).foldl (permRound rounds) x

theorem afterRounds_succ (rounds : Nat) (x : Sponge) (n : Nat) :
    afterRounds rounds x (n + 1) = permRound rounds (afterRounds rounds x n) n :=
  foldl_permRound_succ rounds n x

theorem afterRounds_injective (rounds n : Nat) : Function.Injective fun x => afterRounds rounds x n := by
  induction n with
  | zero => exact Function.injective_id
  | succ n ih =>
    intro x y h
    simp only [afterRounds_succ] at h
    exact ih (permRound_injective rounds n h)

/-- There are finitely many 320-bit states. -/
theorem finite_sponge : Finite Sponge := by
  have hword : Finite Word64 := Finite.of_injective BitVec.toFin fun _ _ => BitVec.eq_of_toFin_eq
  refine Finite.of_injective (fun (x : Sponge) (w : Fin 5) => x[w]) fun x y h => ?_
  apply Vector.ext
  exact fun w hw => congrFun h ⟨w, hw⟩

/-- Settles O47: every layer is injective, and the states are finitely many. -/
theorem permutationIsBijective : Obligations.PermutationIsBijective := by
  intro r _ _
  have := finite_sponge
  exact (afterRounds_injective r r).bijective_of_finite

/-- The constants of R190, written out, are the byte `addConst` XORs. -/
theorem roundConst_eq (j : Fin 12) :
    (roundConst j).zeroExtend 64 = BitVec.ofNat 64 (([0xF0, 0xE1, 0xD2, 0xC3, 0xB4, 0xA5, 0x96, 0x87, 0x78, 0x69, 0x5A,
      0x4B, 0x3C, 0x2D, 0x1E, 0x0F] : List Nat).getD j 0) := by
  revert j
  decide

theorem exec_perm_legal (s : State) {rounds : Nat} (h : legalRounds rounds = true) :
    exec (.perm rounds) s = .next (s.setSponge (permute rounds s.sponge)) := by
  simp [exec, execPerm, h]

/-- Settles O48: the sequence is the state after each round. -/
theorem permRunsItsRounds : Obligations.PermRunsItsRounds := by
  refine ⟨fun w hr hop hlo hhi => ?decode, fun s rounds hlo hhi => ?run⟩
  case decode =>
    have hl := (legalRounds_iff _).mpr ⟨hlo, hhi⟩
    rw [decode_of_rsv w hr]
    simp [decodeOpcode, hop, hl]
  case run =>
    refine ⟨_, afterRounds rounds s.sponge, exec_perm_legal s ((legalRounds_iff _).mpr ⟨hlo, hhi⟩), rfl, rfl,
      fun i hi => ?round, unchanged_setSponge _ _⟩
    rw [afterRounds_succ, permRound, addConst, roundConst_eq ⟨12 - rounds + i, by omega⟩]

/-! ### The sponge commands (R197 to R202) -/

theorem addKeyTail_eq (x : Sponge) (k : Vector Word64 4) :
    addKeyTail x k = #v[x[0], x[1], x[2], x[3] ^^^ k[0], x[4] ^^^ k[1]] := by
  apply Vector.ext
  intro w hw
  interval_cases w <;> simp [addKeyTail]

theorem addKeyHead_eq (x : Sponge) (k : Vector Word64 4) :
    addKeyHead x k = #v[x[0], x[1] ^^^ k[0], x[2] ^^^ k[1], x[3], x[4]] := by
  apply Vector.ext
  intro w hw
  interval_cases w <;> simp [addKeyHead]

theorem sponge_set_zero (x : Sponge) (v : Word64) : x.set 0 v = #v[v, x[1], x[2], x[3], x[4]] := by
  apply Vector.ext
  intro w hw
  interval_cases w <;> simp

/-- Only `STREAM` reads as 4 (R43). -/
theorem peek_phase_eq_four_iff (s : State) : s.peek .phase = 4#32 ↔ s.phase = .stream := by
  simp only [State.peek, phaseWord]
  cases s.phase <;> decide

/-- The frame of the commands that write `S` and `PHASE`. -/
theorem unchanged_setSponge_setPhase (s : State) (x : Sponge) (ph : Phase) :
    Unchanged (fun l => inSponge l ∨ l = .phase) s ((s.setSponge x).setPhase ph) :=
  ((unchanged_setSponge s x).mono fun _ => .inl).trans ((unchanged_setPhase _ ph).mono fun _ => .inr)

/-- A store in one word of `S` shows at that word's two halves only. -/
theorem unchanged_setSponge_set (s : State) (i : Fin 5) (v : Word64) :
    Unchanged (fun l => ∃ h, l = .sponge i h) s (s.setSponge (s.sponge.set i.val v)) := by
  refine ⟨fun l hl => ?_, rfl, rfl, rfl, rfl, rfl⟩
  cases l with
  | sponge j h =>
    have hne : ¬ i.val = j.val := fun e => hl ⟨h, by rw [Fin.ext e]⟩
    simp [State.peek, hne]
  | _ => rfl

/-- Settles O50, the key words XORed in one after the other. -/
theorem initRunsInitialization : Obligations.InitRunsInitialization := by
  refine ⟨opcodeMeans_of_decodeOpcode fun w hop => by simp [decodeOpcode, hop, immFlag, immField], fun s load => ?_⟩
  exact ⟨_, _, rfl, rfl, addKeyTail_eq _ _, rfl, unchanged_setSponge_setPhase s _ _⟩

/-- Settles O51, the store in word 0 written out. -/
theorem adabsAbsorbsDin : Obligations.AdabsAbsorbsDin := by
  refine ⟨opcodeMeans_of_decodeOpcode fun w hop => by simp [decodeOpcode, hop], fun s => ?_⟩
  exact ⟨_, rfl, congrArg (permute 6) (sponge_set_zero _ _), rfl, unchanged_setSponge_setPhase s _ _⟩

/-- Settles O52: XOR with 1 flips bit 0 alone. -/
theorem adendFlipsDomainBit : Obligations.AdendFlipsDomainBit := by
  refine ⟨opcodeMeans_of_decodeOpcode fun w hop => by simp [decodeOpcode, hop], fun s => ?_⟩
  refine ⟨_, rfl, fun j => ?bit, rfl, ?frame⟩
  case bit =>
    have hword : (s.sponge.set 4 (s.sponge[4] ^^^ 1#64))[4] = s.sponge[4] ^^^ 1#64 := Vector.getElem_set_self _
    simp only [setPhase_sponge, setSponge_sponge, hword, BitVec.getLsbD_xor]
    cases j <;> simp
  case frame =>
    exact ((unchanged_setSponge_set s 4 _).mono fun _ => .inl).trans ((unchanged_setPhase _ _).mono fun _ => .inr)

/-- The sponge state whose word 0 `CRYPT` XORs with `DIN`. -/
def cryptSponge (s : State) : Sponge := if s.phase = .stream then permute 6 s.sponge else s.sponge

theorem exec_crypt (s : State) :
    exec .crypt s =
      .next (((s.setSponge (cryptSponge s)).setDout (s.din ^^^ (cryptSponge s)[0])).setPhase .stream) := rfl

/-- `CRYPT` stores a new sponge state in `STREAM` only. -/
theorem unchanged_setSponge_cryptSponge (s : State) :
    Unchanged (fun l => s.phase = .stream ∧ inSponge l) s (s.setSponge (cryptSponge s)) := by
  unfold cryptSponge
  split_ifs with hphase
  · exact (unchanged_setSponge s _).mono fun _ hl => ⟨hphase, hl⟩
  · exact .refl _ s

/-- Settles O53: `PHASE` reads 4 in `STREAM` only, and each of the three stores has its frame. -/
theorem cryptEmitsOneWord : Obligations.CryptEmitsOneWord := by
  refine ⟨opcodeMeans_of_decodeOpcode fun w hop => by simp [decodeOpcode, hop], fun s => ?_⟩
  simp only [peek_phase_eq_four_iff]
  refine ⟨_, exec_crypt s, rfl, rfl, rfl, ?frame⟩
  exact (((unchanged_setSponge_cryptSponge s).mono fun _ => .inl).trans
    ((unchanged_setDout _ _).mono fun _ hl => .inr (.inl hl))).trans
    ((unchanged_setPhase _ _).mono fun _ hl => .inr (.inr hl))

/-- Settles O54, the key words XORed in one after the other on both sides of the rounds. -/
theorem finalRunsFinalization : Obligations.FinalRunsFinalization := by
  refine ⟨opcodeMeans_of_decodeOpcode fun w hop => by simp [decodeOpcode, hop], fun s => ?_⟩
  exact ⟨_, _, rfl, congrArg (permute 12) (addKeyHead_eq _ _), addKeyTail_eq _ _, rfl,
    unchanged_setSponge_setPhase s _ _⟩

/-! ### The key register and the secret's integer (R15, R197) -/

theorem toNat_shifted_byte (b : Byte) {n : Nat} (hn : n < 8) :
    (b.zeroExtend 64 <<< (8 * n) : Word64).toNat = b.toNat * 2 ^ (8 * n) := by
  have hpow : 2 ^ (8 * n) ≤ 2 ^ 56 := Nat.pow_le_pow_right (by norm_num) (by omega)
  have hfits : b.toNat * 2 ^ (8 * n) < 2 ^ 64 := by nlinarith [b.isLt]
  simp only [BitVec.truncate_eq_setWidth, BitVec.toNat_shiftLeft, BitVec.toNat_setWidth, Nat.shiftLeft_eq]
  rw [Nat.mod_eq_of_lt (b.isLt.trans (by norm_num)), Nat.mod_eq_of_lt hfits]

/-- Byte `n` of a number, put above its low `n` bytes. -/
theorem ofNat_or_byte {b : Byte} {M n : Nat} (hb : b.toNat = M / (2 ^ 8) ^ n % 2 ^ 8) (hn : n < 8) :
    BitVec.ofNat 64 (M % (2 ^ 8) ^ n) ||| (b.zeroExtend 64 <<< (8 * n)) = BitVec.ofNat 64 (M % (2 ^ 8) ^ (n + 1)) := by
  have hfits (m : Nat) (hm : m ≤ 8) : M % (2 ^ 8) ^ m < 2 ^ 64 :=
    (Nat.mod_lt M (by positivity)).trans_le (by rw [← pow_mul]; exact Nat.pow_le_pow_right (by norm_num) (by omega))
  have hlow : M % (2 ^ 8) ^ n < 2 ^ (8 * n) := by
    rw [← pow_mul]
    exact Nat.mod_lt M (by positivity)
  apply BitVec.eq_of_toNat_eq
  rw [BitVec.toNat_or, toNat_shifted_byte b hn, BitVec.toNat_ofNat, BitVec.toNat_ofNat,
    Nat.mod_eq_of_lt (hfits n hn.le), Nat.mod_eq_of_lt (hfits (n + 1) hn), Nat.or_comm, mul_comm,
    ← Nat.two_pow_add_eq_or_of_lt hlow, hb, pow_succ (2 ^ 8) n, Nat.mod_mul, ← pow_mul, add_comm]

/-- Byte `i` of digit `w` to the base 2^64 is byte `8w + i`. -/
theorem byte_of_word64 (x : Buffer) (w : Fin 4) (i : Fin 8) :
    (x[8 * w.val + i.val]).toNat = le256 x / (2 ^ 64) ^ w.val / (2 ^ 8) ^ i.val % 2 ^ 8 := by
  rw [← le256_byte x _ (by omega), Nat.div_div_eq_div_mul, pow_add, pow_mul (2 ^ 8) 8, ← pow_mul 2 8 8]

/-- Word `w` of a buffer is digit `w` of its integer to the base 2^64. -/
theorem toNat_le64 (x : Buffer) (w : Fin 4) : (le64 x w).toNat = le256 x / (2 ^ 64) ^ w.val % 2 ^ 64 := by
  have hfold := foldl_finRange_eq
    (fun acc (i : Fin 8) => acc ||| ((x[8 * w.val + i.val]).zeroExtend 64 <<< (8 * i.val)))
    (fun n => BitVec.ofNat 64 (le256 x / (2 ^ 64) ^ w.val % (2 ^ 8) ^ n))
    fun i => ofNat_or_byte (byte_of_word64 x w i) i.isLt
  rw [pow_zero, Nat.mod_one] at hfold
  rw [le64, hfold, BitVec.toNat_ofNat, ← pow_mul 2 8 8, Nat.mod_mod]

theorem le64_byte (x : Buffer) (w : Fin 4) (i : Fin 8) :
    (le64 x w).toNat / (2 ^ 8) ^ i.val % 2 ^ 8 = (x[8 * w.val + i.val]).toNat := by
  have hsplit : (2 : Nat) ^ 64 = (2 ^ 8) ^ i.val * 2 ^ (8 + (56 - 8 * i.val)) := by
    rw [← pow_mul, ← pow_add]
    congr 1
    omega
  rw [toNat_le64, byte_of_word64, hsplit, Nat.mod_mul_right_div_self, ← hsplit]
  exact Nat.mod_mod_of_dvd _ (pow_dvd_pow 2 (Nat.le_add_right _ _))

theorem toNat_le64_eq_sum (x : Buffer) (w : Fin 4) :
    (le64 x w).toNat = ∑ i : Fin 8, (x[8 * w.val + i.val]).toNat * 2 ^ (8 * i.val) := by
  have hsum := sum_digits_base (m := 2 ^ 8) (n := 8) (by rw [← pow_mul]; exact (le64 x w).isLt)
  rw [Finset.sum_congr rfl fun i _ => by rw [le64_byte, ← pow_mul]] at hsum
  exact hsum.symm

theorem le256_lt (x : Buffer) : le256 x < 2 ^ 256 := by
  have h := (digit_sum_base fun i : Fin 32 => x[i].isLt).1
  rwa [← le256_eq_sum, ← pow_mul] at h

theorem le256_eq_le64_sum (x : Buffer) :
    (le64 x 0).toNat + 2 ^ 64 * (le64 x 1).toNat + 2 ^ 128 * (le64 x 2).toNat + 2 ^ 192 * (le64 x 3).toNat = le256 x := by
  have hsum := sum_digits_base (m := 2 ^ 64) (n := 4) (by rw [← pow_mul]; exact le256_lt x)
  simp only [← toNat_le64, Fin.sum_univ_four] at hsum
  rw [← hsum]
  norm_num
  ring

/-- The four words `KEYLD` reads from a buffer. -/
def keyWords (x : Buffer) : Vector Word64 4 := Vector.ofFn fun w => le64 x w

theorem getElem_keyWords (x : Buffer) (w : Fin 4) : (keyWords x)[w] = le64 x w := by
  simp [keyWords]

/-- Settles O55: the words are the integer's digits to the base 2^64, and the bytes are the words' digits. -/
theorem keyldSplitsTheSecret : Obligations.KeyldSplitsTheSecret := by
  refine ⟨opcodeMeans_of_decodeOpcode fun w hop => by simp [decodeOpcode, hop], fun s a => ?_⟩
  refine ⟨s.setKey (keyWords (s.buf a)), rfl, fun w => ?bytes, ?integer, unchanged_setKey _ _⟩
  case bytes => rw [setKey_key, getElem_keyWords, toNat_le64_eq_sum]
  case integer =>
    rw [← le256_eq_le64_sum]
    simp [keyWords]

/-! ### `PHASE` (R195) -/

/-- The phase after a command, by R195's table, from the phase before it. -/
def phaseAfter (ph : Phase) : Instr → Phase
  | .init _ => .keyed
  | .adabs => .ad
  | .adend => .addone
  | .crypt => .stream
  | .final => .final
  | _ => ph

theorem exec_phase {i : Instr} {s t : State} (h : exec i s = .next t) : t.phase = phaseAfter s.phase i := by
  cases i with
  | perm rounds =>
    simp only [exec, execPerm] at h
    split at h <;> cases h
    rfl
  | _ => cases h; rfl

theorem hostRead_phase (s : State) (off : Offset) (size : Nat) : (hostRead s off size).phase = s.phase := by
  obtain ⟨r, h⟩ | h := hostRead_cases s off size <;> rw [h] <;> simp

theorem writeCmd_phase (s : State) (w : Word) : (writeCmd s w).phase = s.phase := by
  obtain ⟨-, h⟩ | ⟨-, e, -, h⟩ | ⟨-, i, -, h⟩ := writeCmd_cases s w <;> rw [h] <;> simp

theorem poke_phase (s : State) (l : Loc) (v : Word) : (s.poke l v).phase = s.phase := by
  cases l <;> rfl

theorem writeCtrl_phase (s : State) (v : Word) : (writeCtrl s v).phase = if v.getLsbD 1 then .idle else s.phase := by
  unfold writeCtrl
  split_ifs <;> rfl

theorem writeLoc_ctrl (s : State) (v : Word) : writeLoc s 0x004#12 v = writeCtrl s v := by
  have hl : locate 0x004#12 = .ctrl := by decide
  simp [writeLoc, hl]

/-- Of the writes only a soft reset changes `PHASE`. -/
theorem writeLoc_phase_of_ne (s : State) {off : Offset} (v : Word) (h4 : off.toNat % 4 = 0) (hne : off ≠ 0x004#12) :
    (writeLoc s off v).phase = s.phase := by
  obtain ⟨hl, -⟩ | ⟨-, h⟩ | ⟨-, h⟩ | ⟨-, -, h⟩ | ⟨-, -, h⟩ | ⟨-, h⟩ := writeLoc_cases s off v
  · exact absurd (locate_ctrl off h4 hl) hne
  · rw [h, writeStatus_phase]
  · rw [h, writeCmd_phase]
  · rw [h, recordError_phase]
  · rw [h, poke_phase]
  · rw [h]

theorem hostWrite_phase (s : State) (off : Offset) (size : Nat) (v : Word) :
    (hostWrite s off size v).phase =
      if (off = 0x004#12 ∧ size = 4) ∧ s.resetLine = false ∧ v.getLsbD 1 = true then .idle else s.phase := by
  obtain ⟨r, h, hlost⟩ | ⟨hlegal, hr, h⟩ := hostWrite_cases s off size v
  · rw [h, respond_phase, if_neg]
    rintro ⟨⟨rfl, rfl⟩, hr, -⟩
    obtain hbad | hr' := hlost
    · exact absurd hbad (by decide)
    · rw [hr] at hr'; cases hr'
  · obtain ⟨rfl, h4⟩ := (legalAccess_iff off size).mp hlegal
    rw [h, respond_phase]
    by_cases hoff : off = 0x004#12
    · subst hoff
      simp [writeLoc_ctrl, writeCtrl_phase, hr]
    · rw [writeLoc_phase_of_ne s v h4 hoff, if_neg fun hw => hoff hw.1.1]

/-- Settles O56: command by command, then event by event. -/
theorem phaseFollowsTheTable : Obligations.PhaseFollowsTheTable := by
  refine ⟨fun i s => exec_completes i s, fun i s t h => (exec_phase h).trans (by cases i <;> rfl),
    fun s t off size v hi h => ?access, fun s t hi h => ?reset⟩
  case access =>
    obtain ⟨e, es, hes⟩ := List.exists_cons_of_ne_nil (l := s.inputs) (by rintro hnil; simp [hnil] at hi)
    rw [hes, List.head?_cons, Option.some_inj, Option.some_inj] at hi
    rw [step_of_cons s e es hes] at h
    obtain rfl | rfl := hi <;> cases h
    · simp [hes, hostRead_phase]
    · simp [hes, hostWrite_phase]
  case reset =>
    obtain ⟨es, hes⟩ : ∃ es, s.inputs = .resetAssert :: es := List.head?_eq_some_iff.mp hi
    rw [step_of_cons s _ es hes] at h
    cases h
    rfl

/-! ### The data registers apart from the control registers -/

/-- The data registers of `s`; every other field as after reset. -/
def State.dataPart (s : State) : State :=
  { State.reset with
    fregs := s.fregs, bufs := s.bufs, sponge := s.sponge, key := s.key, iv := s.iv, nonce := s.nonce, din := s.din,
    dout := s.dout, phase := s.phase }

@[simp] theorem dataPart_iv (s : State) : s.dataPart.iv = s.iv := rfl
@[simp] theorem dataPart_nonce (s : State) : s.dataPart.nonce = s.nonce := rfl
@[simp] theorem dataPart_dout (s : State) : s.dataPart.dout = s.dout := rfl

/-- A command computes the data registers from the data registers. -/
theorem exec_dataPart {i : Instr} {s t : State} (h : exec i s = .next t) : exec i s.dataPart = .next t.dataPart := by
  cases i with
  | perm rounds =>
    simp only [exec, execPerm] at h ⊢
    split at h <;> cases h
    rename_i hl
    rw [if_pos hl]
    rfl
  | _ => cases h; rfl

theorem dataPart_poke (s : State) (l : Loc) (v : Word) : (s.poke l v).dataPart = s.dataPart.poke l v := by
  cases l <;> rfl

/-! ### The host's operations on an idle core (R112) -/

/-- No command is pending and the reset line is released. -/
def State.Idle (s : State) : Prop := s.busy = false ∧ s.resetLine = false

/-- The events `es` lead from `s` to the idle state `t`, and their reads bring back `log`. -/
structure RunsTo (es : List Event) (s : State) (log : List (Offset × Word)) (t : State) : Prop where
  run : drive es s = some (log, t)
  idle : t.Idle

theorem runsTo_nil {s : State} (hs : s.Idle) : RunsTo [] s [] s := ⟨rfl, hs⟩

theorem drive_append_eq {es fs : List Event} {s t u : State} {l m : List (Offset × Word)}
    (h : drive es s = some (l, t)) (h' : drive fs t = some (m, u)) : drive (es ++ fs) s = some (l ++ m, u) := by
  rw [drive_append es fs s t l h, h']
  rfl

theorem RunsTo.append {es fs : List Event} {s t u : State} {l m : List (Offset × Word)} (h : RunsTo es s l t)
    (h' : RunsTo fs t m u) : RunsTo (es ++ fs) s (l ++ m) u :=
  ⟨drive_append_eq h.run h'.run, h'.idle⟩

theorem drive_singleton {e : Event} {s t : State} (h : step { s with inputs := [e] } = .next t) :
    drive [e] s = some (readBack e t.response, t) := by
  simp [drive, h]

/-- The step of a listed event. -/
theorem step_event (s : State) (e : Event) : step { s with inputs := [e] } = applyEvent { s with inputs := [] } e := rfl

theorem drive_wr32 {s : State} (hs : s.Idle) {off : Offset} (v : Word) (h4 : off.toNat % 4 = 0) :
    drive (wr32 off v) s = some ([], respond (writeLoc { s with inputs := [] } off v) .ack) :=
  drive_singleton (step_write { s with inputs := [.write off 4 v] } off v [] rfl hs.2 h4)

/-- `wr32` to a writable data region stores the word. -/
theorem runsTo_wr32 {s : State} (hs : s.Idle) {off : Offset} (v : Word) (h4 : off.toNat % 4 = 0)
    (hl : (locate off).isWritableData = true) :
    ∃ t, RunsTo (wr32 off v) s [] t ∧ t.dataPart = s.dataPart.poke (locate off) v := by
  have hrun := drive_wr32 hs v h4
  have hkept := poke_flagsKept { s with inputs := [] } (locate off) v
  rw [writeLoc_idleData { s with inputs := [] } off v hl hs.1] at hrun
  exact ⟨_, ⟨hrun, hkept.busy.trans hs.1, hkept.resetLine.trans hs.2⟩, dataPart_poke _ _ v⟩

/-- `wr64` to a writable data region stores both halves. -/
theorem runsTo_wr64 {s : State} (hs : s.Idle) {off : Offset} (v : Word64) (h4 : off.toNat % 4 = 0)
    (hl : (locate off).isWritableData = true) (h4' : (off + 4#12).toNat % 4 = 0)
    (hl' : (locate (off + 4#12)).isWritableData = true) :
    ∃ t, RunsTo (wr64 off v) s [] t ∧
      t.dataPart = (s.dataPart.poke (locate off) (getHalf v .lo)).poke (locate (off + 4#12)) (getHalf v .hi) := by
  obtain ⟨t, hrun, ht⟩ := runsTo_wr32 hs (getHalf v .lo) h4 hl
  obtain ⟨u, hrun', hu⟩ := runsTo_wr32 hrun.idle (getHalf v .hi) h4' hl'
  exact ⟨u, hrun.append hrun', by rw [hu, ht]⟩

theorem runsTo_wr64_din {s : State} (hs : s.Idle) (v : Word64) :
    ∃ t, RunsTo (wr64 0x180#12 v) s [] t ∧ t.dataPart = { s.dataPart with din := v } := by
  obtain ⟨t, hrun, ht⟩ := runsTo_wr64 hs (off := 0x180#12) v (by decide) (by decide) (by decide) (by decide)
  have hlo : locate 0x180#12 = .din .lo := by decide
  have hhi : locate (0x180#12 + 4#12) = .din .hi := by decide
  refine ⟨t, hrun, ?_⟩
  rw [ht, hlo, hhi]
  simp [State.poke, setHalf_hi_setHalf_lo]

/-- The window's offset of the low half of `N[i]` (R71). -/
def nonceOffset (i : Fin 2) : Offset := BitVec.ofNat 12 (0x168 + 8 * i.val)

theorem runsTo_wr64_nonce {s : State} (hs : s.Idle) (i : Fin 2) (v : Word64) :
    ∃ t, RunsTo (wr64 (nonceOffset i) v) s [] t ∧ t.dataPart = { s.dataPart with nonce := s.nonce.set i.val v } := by
  have hlo : locate (nonceOffset i) = .nonce i .lo := by revert i; decide
  have hhi : locate (nonceOffset i + 4#12) = .nonce i .hi := by revert i; decide
  obtain ⟨t, hrun, ht⟩ := runsTo_wr64 hs (off := nonceOffset i) v (by revert i; decide) (by rw [hlo]; rfl)
    (by revert i; decide) (by rw [hhi]; rfl)
  refine ⟨t, hrun, ?_⟩
  rw [ht, hlo, hhi]
  simp [State.poke, setHalf_hi_setHalf_lo]

/-- `rd32` brings back the register's value and changes no data register. -/
theorem runsTo_rd32 {s : State} (hs : s.Idle) {off : Offset} (h4 : off.toNat % 4 = 0) :
    ∃ t, RunsTo (rd32 off) s [(off, s.peek (locate off))] t ∧ t.dataPart = s.dataPart := by
  have hread := hostRead_aligned { s with inputs := [] } off h4 hs.2
  rw [if_neg (by simp [hs.1]), peek_inputs] at hread
  have hstep : step { s with inputs := [.read off 4] } = .next (hostRead { s with inputs := [] } off 4) := step_event s _
  rw [hread] at hstep
  exact ⟨_, ⟨drive_singleton hstep, hs⟩, rfl⟩

theorem runsTo_rd64_dout {s : State} (hs : s.Idle) :
    ∃ t, RunsTo (rd64 0x188#12) s [(0x188#12, getHalf s.dout .lo), (0x18C#12, getHalf s.dout .hi)] t ∧
      t.dataPart = s.dataPart := by
  obtain ⟨t, hrun, ht⟩ := runsTo_rd32 hs (off := 0x188#12) (by decide)
  obtain ⟨u, hrun', hu⟩ := runsTo_rd32 hrun.idle (off := 0x188#12 + 4#12) (by decide)
  have hdout : t.dout = s.dout := by simpa using congrArg State.dout ht
  have hlo : locate 0x188#12 = .dout .lo := by decide
  have hhi : locate (0x188#12 + 4#12) = .dout .hi := by decide
  rw [hlo] at hrun
  rw [hhi, State.peek, hdout] at hrun'
  exact ⟨u, hrun.append hrun', hu.trans ht⟩

/-- The word of a command, written to `CMD`, is pending (R231). -/
theorem drive_acceptCmd {s : State} (hs : s.Idle) {i : Instr} (hi : i.wellFormed = true) :
    ∃ t, drive (wr32 0x00C#12 (encode i)) s = some ([], t) ∧ t.busy = true ∧ t.resetLine = false ∧ t.inputs = [] ∧
      t.pending = some (encode i) ∧ t.dataPart = s.dataPart := by
  have hl : locate 0x00C#12 = .cmd := by decide
  refine ⟨_, drive_wr32 hs _ (by decide), ?_⟩
  simp only [writeLoc, hl, writeCmd, hs.1, Bool.false_eq_true, if_false, decodeOfEncode i hi]
  exact ⟨rfl, hs.2, rfl, rfl, rfl⟩

/-- The completion of the pending command (R232). -/
theorem step_completion {s r : State} {w : Word} {i : Instr} (hbusy : s.busy = true) (hr : s.resetLine = false)
    (hin : s.inputs = []) (hp : s.pending = some w) (hd : decode w = .accept i) (he : exec i s = .next r) :
    step { s with inputs := [.completion] } = .next (retire r) := by
  have hsame : { s with inputs := [] } = s := by cases s; cases hin; rfl
  rw [step_event, applyEvent, hsame, coreEvent, (completionEnabled_iff s).mpr ⟨hbusy, hr⟩, if_pos rfl,
    complete_of_accept s r w i hp hd he]

/-- `wait` completes the pending command, whatever the number of polls before the completion (R233). -/
theorem runsTo_wait (polls : Nat) {s r : State} {w : Word} {i : Instr} (hbusy : s.busy = true)
    (hr : s.resetLine = false) (hin : s.inputs = []) (hp : s.pending = some w) (hd : decode w = .accept i)
    (he : exec i s = .next r) :
    ∃ log t, RunsTo (wait polls) s log t ∧ t.dataPart = r.dataPart ∧ ∀ x ∈ log, x.1 = 0x008#12 := by
  obtain ⟨log, a, hpolls, hlog⟩ := drive_polls polls s hr hin
  have hdone := drive_singleton (step_completion (s := respond s a) hbusy hr hin hp hd (exec_respond i s r a he))
  have hidle : (retire (respond r a)).Idle := ⟨rfl, (exec_controlKept i s r he).resetLine.trans hr⟩
  obtain ⟨t, hlast, ht⟩ := runsTo_rd32 hidle (off := 0x008#12) (by decide)
  refine ⟨_, t, ⟨drive_append_eq (drive_append_eq hpolls hdone) hlast.run, hlast.idle⟩, ht, ?_⟩
  simpa [readBack, or_imp, forall_and] using hlog

/-- `cmd X` runs the command on the data registers, and its reads are of `STATUS` alone (R112). -/
theorem runsTo_cmd (polls : Nat) {s : State} (hs : s.Idle) {i : Instr} (hi : i.wellFormed = true) :
    ∃ log t, RunsTo (cmd polls i) s log t ∧ exec i s.dataPart = .next t.dataPart ∧ ∀ x ∈ log, x.1 = 0x008#12 := by
  obtain ⟨u, haccept, hbusy, hr, hin, hp, hu⟩ := drive_acceptCmd hs hi
  obtain ⟨r, he⟩ := exec_completes i u hi
  obtain ⟨log, t, hwait, ht, hlog⟩ := runsTo_wait polls hbusy hr hin hp (decodeOfEncode i hi) he
  refine ⟨log, t, ⟨drive_append_eq haccept hwait.run, hwait.idle⟩, ?_, hlog⟩
  rw [← hu, ht]
  exact exec_dataPart he

/-! ### The associated-data sequence (R204) -/

/-- The state after the initialization with `load` = 1 (R198). -/
def initSponge (s : State) : Sponge := addKeyTail (permute 12 (loadedSponge s)) s.key

/-- A block of associated data, absorbed (R199). -/
def absorb (x : Sponge) (block : Word64) : Sponge := permute 6 (x.set 0 (x[0] ^^^ block))

/-- The finalization (R202). -/
def finalSponge (x : Sponge) (k : Vector Word64 4) : Sponge := addKeyTail (permute 12 (addKeyHead x k)) k

/-- The domain bit, flipped (R200). -/
def flipDomainBit (x : Sponge) : Sponge := x.set 4 (x[4] ^^^ 1#64)

theorem flipDomainBit_eq (x : Sponge) : flipDomainBit x = #v[x[0], x[1], x[2], x[3], x[4] ^^^ 1#64] := by
  apply Vector.ext
  intro w hw
  interval_cases w <;> simp [flipDomainBit]

theorem runsTo_init (polls : Nat) {s : State} (hs : s.Idle) :
    ∃ log t, RunsTo (cmd polls (.init true)) s log t ∧
      t.dataPart = (s.dataPart.setSponge (initSponge s)).setPhase .keyed ∧ ∀ x ∈ log, x.1 = 0x008#12 := by
  obtain ⟨log, t, hrun, he, hlog⟩ := runsTo_cmd polls hs (i := .init true) rfl
  exact ⟨log, t, hrun, (Host.Outcome.next.inj he).symm, hlog⟩

theorem runsTo_absorbBlock (polls : Nat) (block : Word64) {s : State} (hs : s.Idle) :
    ∃ log t, RunsTo (wr64 0x180#12 block ++ cmd polls .adabs) s log t ∧ t.sponge = absorb s.sponge block ∧
      t.key = s.key ∧ t.dout = s.dout := by
  obtain ⟨u, hwrite, hu⟩ := runsTo_wr64_din hs block
  obtain ⟨log, t, hcmd, he, -⟩ := runsTo_cmd polls hwrite.idle (i := .adabs) rfl
  rw [hu] at he
  have ht := (Host.Outcome.next.inj he).symm
  exact ⟨_, t, hwrite.append hcmd, congrArg (·.sponge) ht, congrArg (·.key) ht, congrArg (·.dout) ht⟩

theorem runsTo_absorbBlocks (polls : Nat) (blocks : List Word64) {s : State} (hs : s.Idle) :
    ∃ log t, RunsTo (blocks.flatMap fun x => wr64 0x180#12 x ++ cmd polls .adabs) s log t ∧
      t.sponge = blocks.foldl absorb s.sponge ∧ t.key = s.key ∧ t.dout = s.dout := by
  induction blocks generalizing s with
  | nil => exact ⟨[], s, runsTo_nil hs, rfl, rfl, rfl⟩
  | cons block blocks ih =>
    obtain ⟨log, t, hrun, hsponge, hkey, hdout⟩ := runsTo_absorbBlock polls block hs
    obtain ⟨log', u, hrun', hsponge', hkey', hdout'⟩ := ih hrun.idle
    rw [hsponge] at hsponge'
    exact ⟨_, u, hrun.append hrun', hsponge', hkey'.trans hkey, hdout'.trans hdout⟩

theorem runsTo_adend (polls : Nat) {s : State} (hs : s.Idle) :
    ∃ log t, RunsTo (cmd polls .adend) s log t ∧
      t.dataPart = (s.dataPart.setSponge (flipDomainBit s.sponge)).setPhase .addone := by
  obtain ⟨log, t, hrun, he, -⟩ := runsTo_cmd polls hs (i := .adend) rfl
  exact ⟨log, t, hrun, (Host.Outcome.next.inj he).symm⟩

theorem runsTo_final (polls : Nat) {s : State} (hs : s.Idle) :
    ∃ log t, RunsTo (cmd polls .final) s log t ∧
      t.dataPart = (s.dataPart.setSponge (finalSponge s.sponge s.key)).setPhase .final := by
  obtain ⟨log, t, hrun, he, -⟩ := runsTo_cmd polls hs (i := .final) rfl
  exact ⟨log, t, hrun, (Host.Outcome.next.inj he).symm⟩

/-- The parts of R204 run one after the other, each from what the one before left in `S` and `K`. -/
theorem runsTo_authEvents (polls : Nat) (blocks : List Word64) {s : State} (hs : s.Idle) :
    ∃ log t, RunsTo (authEvents polls blocks) s log t ∧
      t.sponge = finalSponge (flipDomainBit (blocks.foldl absorb (initSponge s))) s.key ∧ t.phase = .final ∧
      t.dout = s.dout := by
  obtain ⟨l1, t1, hinit, h1, -⟩ := runsTo_init polls hs
  obtain ⟨l2, t2, hblocks, hsponge2, hkey2, hdout2⟩ := runsTo_absorbBlocks polls blocks hinit.idle
  obtain ⟨l3, t3, hadend, h3⟩ := runsTo_adend polls hblocks.idle
  obtain ⟨l4, t4, hfinal, h4⟩ := runsTo_final polls hadend.idle
  refine ⟨_, t4, ((hinit.append hblocks).append hadend).append hfinal, ?sponge, congrArg (·.phase) h4, ?dout⟩
  case sponge =>
    have hsponge1 : t1.sponge = initSponge s := congrArg (·.sponge) h1
    have hsponge3 : t3.sponge = flipDomainBit t2.sponge := congrArg (·.sponge) h3
    have hkey1 : t1.key = s.key := congrArg (·.key) h1
    have hkey3 : t3.key = t2.key := congrArg (·.key) h3
    have hsponge4 : t4.sponge = finalSponge t3.sponge t3.key := congrArg (·.sponge) h4
    rw [hsponge4, hsponge3, hsponge2, hsponge1, hkey3, hkey2, hkey1]
  case dout =>
    calc t4.dout = t3.dout := congrArg (·.dout) h4
      _ = t2.dout := congrArg (·.dout) h3
      _ = t1.dout := hdout2
      _ = s.dout := congrArg (·.dout) h1

/-- Settles O59: the states between the parts, written out word by word. -/
theorem associatedDataSequence : Obligations.AssociatedDataSequence := by
  intro s blocks polls hbusy hr
  obtain ⟨log, t, hauth, hsponge, hphase, hdout⟩ := runsTo_authEvents polls blocks ⟨hbusy, hr⟩
  refine ⟨log, t, _, _, _, hauth.run, rfl, rfl, rfl, ?_, hphase, hauth.idle.1, hdout⟩
  rw [hsponge, finalSponge, addKeyTail_eq, addKeyHead_eq, flipDomainBit_eq, initSponge, addKeyTail_eq]
  rfl

/-! ### The encryption sequence (R203, R205) -/

/-- Polls of `STATUS` add no word read at `DOUT`. -/
theorem words64At_append_of_polls {log : List (Offset × Word)} (h : ∀ x ∈ log, x.1 = 0x008#12)
    (rest : List (Offset × Word)) :
    words64At 0x188#12 (log ++ rest) = words64At 0x188#12 rest := by
  have hnone (off : Offset) (hoff : off ≠ 0x008#12) : log.filter (fun x => x.1 = off) = [] :=
    List.filter_eq_nil_iff.mpr fun x hx => by simpa [h x hx] using hoff.symm
  rw [words64At, List.filter_append, List.filter_append, hnone _ (by decide), hnone _ (by decide)]
  rfl

theorem words64At_dout_cons (v : Word64) (rest : List (Offset × Word)) :
    words64At 0x188#12 ((0x188#12, getHalf v .lo) :: (0x18C#12, getHalf v .hi) :: rest) =
      v :: words64At 0x188#12 rest := by
  simp [words64At]

/-- The words of a message XORed with word 0 of the states from `x` on, 6 rounds apart. -/
def streamXor : Sponge → List Word64 → List Word64
  | _, [] => []
  | x, m :: ms => (m ^^^ x[0]) :: streamXor (permute 6 x) ms

theorem streamXor_streamXor (x : Sponge) (ms : List Word64) : streamXor x (streamXor x ms) = ms := by
  induction ms generalizing x with
  | nil => rfl
  | cons m ms ih => rw [streamXor, streamXor, ih, BitVec.xor_assoc, BitVec.xor_self, BitVec.xor_zero]

theorem cryptSponge_of_stream {s : State} (h : s.phase = .stream) : cryptSponge s = permute 6 s.sponge := if_pos h

theorem runsTo_cryptWord (polls : Nat) (m : Word64) {s : State} (hs : s.Idle) :
    ∃ log t, RunsTo (wr64 0x180#12 m ++ cmd polls .crypt ++ rd64 0x188#12) s log t ∧
      (∀ rest, words64At 0x188#12 (log ++ rest) = (m ^^^ (cryptSponge s)[0]) :: words64At 0x188#12 rest) ∧
      cryptSponge t = permute 6 (cryptSponge s) ∧ t.bufs = s.bufs ∧ t.iv = s.iv := by
  obtain ⟨u, hwrite, hu⟩ := runsTo_wr64_din hs m
  obtain ⟨log, v, hcmd, he, hlog⟩ := runsTo_cmd polls hwrite.idle (i := .crypt) rfl
  obtain ⟨t, hread, ht⟩ := runsTo_rd64_dout hcmd.idle
  rw [hu] at he
  have hv := (Host.Outcome.next.inj he).symm
  have hdout : v.dout = m ^^^ (cryptSponge s)[0] := congrArg (·.dout) hv
  have hstream : t.phase = .stream := congrArg (·.phase) (ht.trans hv)
  have hsponge : t.sponge = cryptSponge s := congrArg (·.sponge) (ht.trans hv)
  refine ⟨_, t, (hwrite.append hcmd).append hread, fun rest => ?words, by rw [cryptSponge_of_stream hstream, hsponge],
    congrArg (·.bufs) (ht.trans hv), congrArg (·.iv) (ht.trans hv)⟩
  case words =>
    rw [List.nil_append, List.append_assoc, words64At_append_of_polls hlog, hdout]
    exact words64At_dout_cons _ rest

theorem runsTo_cryptWords (polls : Nat) (ms : List Word64) {s : State} (hs : s.Idle) :
    ∃ log t, RunsTo (ms.flatMap fun x => wr64 0x180#12 x ++ cmd polls .crypt ++ rd64 0x188#12) s log t ∧
      words64At 0x188#12 log = streamXor (cryptSponge s) ms ∧ t.bufs = s.bufs ∧ t.iv = s.iv := by
  induction ms generalizing s with
  | nil => exact ⟨[], s, runsTo_nil hs, rfl, rfl, rfl⟩
  | cons m ms ih =>
    obtain ⟨log, t, hrun, hwords, hsponge, hbufs, hiv⟩ := runsTo_cryptWord polls m hs
    obtain ⟨log', u, hrun', hwords', hbufs', hiv'⟩ := ih hrun.idle
    refine ⟨_, u, hrun.append hrun', ?_, hbufs'.trans hbufs, hiv'.trans hiv⟩
    rw [hwords, hwords', hsponge, streamXor]

/-- The sponge state after the setup of R203 with the secret `x`. -/
def streamStart (iv : Word64) (x : Buffer) : Sponge :=
  addKeyTail (permute 12 #v[iv, (keyWords x)[0], (keyWords x)[1], Config.nonceLiteral 0, Config.nonceLiteral 1])
    (keyWords x)

/-- The setup of R203 brings back no word of `DOUT`, and the next `CRYPT` does not permute. -/
theorem runsTo_encryptSetup (polls : Nat) (k : BReg) {s : State} (hs : s.Idle) :
    ∃ log t, RunsTo (cmd polls (.keyld k) ++ wr64 0x168#12 (Config.nonceLiteral 0) ++
        wr64 0x170#12 (Config.nonceLiteral 1) ++ cmd polls (.init true)) s log t ∧
      (∀ x ∈ log, x.1 = 0x008#12) ∧ cryptSponge t = streamStart s.iv (s.buf k) ∧ t.bufs = s.bufs ∧ t.iv = s.iv := by
  obtain ⟨l1, t1, hkeyld, he, hl1⟩ := runsTo_cmd polls hs (i := .keyld k) rfl
  obtain ⟨t2, hnonce0, h2⟩ := runsTo_wr64_nonce hkeyld.idle 0 (Config.nonceLiteral 0)
  obtain ⟨t3, hnonce1, h3⟩ := runsTo_wr64_nonce hnonce0.idle 1 (Config.nonceLiteral 1)
  obtain ⟨l4, t4, hinit, h4, hl4⟩ := runsTo_init polls hnonce1.idle
  have h1 := (Host.Outcome.next.inj he).symm
  have hdata : t3.dataPart = { s.dataPart with
      key := keyWords (s.buf k), nonce := (s.nonce.set 0 (Config.nonceLiteral 0)).set 1 (Config.nonceLiteral 1) } := by
    have hnonce1 : t1.nonce = s.nonce := congrArg (·.nonce) h1
    have hnonce2 : t2.nonce = t1.nonce.set 0 (Config.nonceLiteral 0) := congrArg (·.nonce) h2
    rw [h3, h2, hnonce2, hnonce1, h1]
    rfl
  have hload : loadedSponge t3 =
      #v[s.iv, (keyWords (s.buf k))[0], (keyWords (s.buf k))[1], Config.nonceLiteral 0, Config.nonceLiteral 1] := by
    change loadedSponge t3.dataPart = _
    rw [hdata]
    simp [loadedSponge]
  have hkey3 : t3.key = keyWords (s.buf k) := congrArg (·.key) hdata
  have hphase : t4.phase ≠ .stream := by
    rw [show t4.phase = .keyed from congrArg (·.phase) h4]
    decide
  refine ⟨_, t4, ((hkeyld.append hnonce0).append hnonce1).append hinit, ?log, ?sponge, ?bufs, ?iv⟩
  case log =>
    intro x hx
    simp only [List.append_nil, List.mem_append] at hx
    exact hx.elim (hl1 x) (hl4 x)
  case sponge =>
    rw [cryptSponge, if_neg hphase, show t4.sponge = initSponge t3 from congrArg (·.sponge) h4, initSponge, hload, hkey3,
      streamStart]
  case bufs => exact (congrArg (·.bufs) h4).trans (congrArg (·.bufs) hdata)
  case iv => exact (congrArg (·.iv) h4).trans (congrArg (·.iv) hdata)

/-- R203 brings back the message XORed with a stream that the secret and `IV` decide, and keeps both. -/
theorem runsTo_encryptEvents (polls : Nat) (k : BReg) (ms : List Word64) {s : State} (hs : s.Idle) :
    ∃ log t, RunsTo (encryptEvents polls k ms) s log t ∧
      words64At 0x188#12 log = streamXor (streamStart s.iv (s.buf k)) ms ∧ t.buf k = s.buf k ∧ t.iv = s.iv := by
  obtain ⟨l1, t1, hsetup, hl1, hstart, hbufs1, hiv1⟩ := runsTo_encryptSetup polls k hs
  obtain ⟨l2, t2, hwords, hl2, hbufs2, hiv2⟩ := runsTo_cryptWords polls ms hsetup.idle
  refine ⟨_, t2, hsetup.append hwords, ?_, ?_, hiv2.trans hiv1⟩
  · rw [words64At_append_of_polls hl1, hl2, hstart]
  · rw [State.buf, hbufs2, hbufs1, State.buf]

/-- Settles O58: both runs XOR the same stream. -/
theorem encryptTwiceIsIdentity : Obligations.EncryptTwiceIsIdentity := by
  intro s k m polls polls' hbusy hr
  obtain ⟨log, t, hrun, hwords, hbuf, hiv⟩ := runsTo_encryptEvents polls k m ⟨hbusy, hr⟩
  obtain ⟨log', t', hrun', hwords', -, -⟩ := runsTo_encryptEvents polls' k (words64At 0x188#12 log) hrun.idle
  refine ⟨log, t, log', t', hrun.run, hrun'.run, ?_⟩
  rw [hwords', hbuf, hiv, hwords, streamXor_streamXor]

end Sys2Proof.Machine

/-!
The family of the system (43_system.md). First the core's own turn: a step that completes the pending command (O11), which under the
invariant is always there to complete (O12), so that no step stops (O4). Then the life of a command as the host sees it: acceptance
(O13), and the operation `cmd X`, whose last poll of `STATUS` leaves no trace of the polls before it (O16). Last `NOP` (O29).
-/

namespace Sys2Proof.Machine

/-! ### The core's turn (R232, R234) -/

theorem coreEvent_of_enabled {s : State} (h : completionEnabled s = true) : coreEvent s = complete s :=
  if_pos h

theorem coreEvent_of_disabled {s : State} (h : completionEnabled s = false) : coreEvent s = .next s := by
  simp [coreEvent, h]

/-- Settles O11: the core's turn with a command pending is its completion, at the state with the event taken. -/
theorem stepRunsPendingCommand : Obligations.StepRunsPendingCommand := by
  intro s t w i hbusy hr hp hd hturn he
  have hen : completionEnabled (popInput s) = true := (completionEnabled_iff _).mpr ⟨hbusy, hr⟩
  rw [step_of_coreTurn s hturn, coreEvent_of_enabled hen]
  exact complete_of_accept (popInput s) t w i hp hd he

/-- A busy core is not under reset: there it would hold the reset state, which is idle (R282). -/
theorem State.Inv.resetLine_of_busy {s : State} (hs : s.Inv) (hbusy : s.busy = true) : s.resetLine = false := by
  rw [Bool.eq_false_iff]
  intro hr
  have hidle : s.busy = false := (congrArg State.busy (hs.heldInReset hr)).symm
  rw [hbusy] at hidle
  cases hidle

/-- The word a busy core has pending decodes, to a well-formed command (R45, R47). -/
theorem State.Inv.pending_of_busy {s : State} (hs : s.Inv) (hbusy : s.busy = true) :
    ∃ w i, s.pending = some w ∧ decode w = .accept i ∧ i.wellFormed = true := by
  obtain ⟨w, hp⟩ := Option.isSome_iff_exists.mp (hs.busyPending.symm.trans hbusy)
  have haccepted : (decode w).isAccept = true := by rw [hs.pendingLast w hp]; exact hs.lastAccepted
  cases hd : decode w with
  | accept i => exact ⟨w, i, hp, hd, wellFormed_of_accept w i hd⟩
  | reject e => rw [hd] at haccepted; cases haccepted

/-- On the core's turn a busy core completes a command. -/
theorem State.Inv.step_completes {s : State} (hs : s.Inv) (hbusy : s.busy = true) (hturn : coreTurn s) :
    ∃ i r, exec i (Machine.popInput s) = .next r ∧ step s = .next (Machine.retire r) := by
  obtain ⟨w, i, hp, hd, hwf⟩ := hs.pending_of_busy hbusy
  obtain ⟨r, he⟩ := exec_completes i (Machine.popInput s) hwf
  exact ⟨i, r, he, stepRunsPendingCommand s r w i hbusy (hs.resetLine_of_busy hbusy) hp hd hturn he⟩

/-- Settles O12: the command touches no control register, and `retire` touches `PENDING`, `BUSY` and `DONE`. -/
theorem completionSetsDoneNeverErr : Obligations.CompletionSetsDoneNeverErr := by
  intro s hs hbusy hturn
  obtain ⟨i, r, he, hstep⟩ := hs.step_completes hbusy hturn
  have hkept := exec_controlKept i _ r he
  exact ⟨retire r, hstep, rfl, rfl, rfl, hkept.err, hkept.ecode, hkept.errInfo, hkept.lastCmd, hkept.ie⟩

/-- On the core's turn an idle core waits (R284). -/
theorem step_of_idle {s : State} (hbusy : s.busy = false) (hturn : coreTurn s) : step s = .next (popInput s) := by
  have hen : completionEnabled (popInput s) = false := by simp [completionEnabled, hbusy]
  rw [step_of_coreTurn s hturn, coreEvent_of_disabled hen]

theorem State.Inv.step_of_coreTurn {s : State} (hs : s.Inv) (hturn : coreTurn s) : ∃ t, step s = .next t := by
  cases hbusy : s.busy with
  | false => exact ⟨_, step_of_idle hbusy hturn⟩
  | true =>
    obtain ⟨i, r, -, hstep⟩ := hs.step_completes hbusy hturn
    exact ⟨_, hstep⟩

/-- Settles O4: the events of the host and of the reset input always go on, and on the core's turn the invariant decides. -/
theorem stepNeverStops : Obligations.StepNeverStops := by
  intro s hs
  cases hi : s.inputs with
  | nil => exact hs.step_of_coreTurn (.inl hi)
  | cons e rest =>
    cases e with
    | completion => exact hs.step_of_coreTurn (.inr ⟨rest, hi⟩)
    | read | write | resetAssert | resetRelease => exact ⟨_, step_of_cons s _ rest hi⟩

/-! ### Acceptance (R231) -/

theorem writeLoc_cmd (s : State) (w : Word) : writeLoc s 0x00C#12 w = writeCmd s w := by
  have hl : locate 0x00C#12 = .cmd := by decide
  simp [writeLoc, hl]

theorem writeCmd_of_accept {s : State} {w : Word} {i : Instr} (hbusy : s.busy = false) (hd : decode w = .accept i) :
    writeCmd s w = acceptWord { s with done := false } w := by
  simp [writeCmd, hbusy, hd]

/-- Settles O13: the step is `acceptWord` with `DONE` cleared, which the laws of the state and of the window read. -/
theorem acceptedCommandBecomesPending : Obligations.AcceptedCommandBecomesPending := by
  intro s w i rest hi hbusy hr hd
  refine ⟨respond (acceptWord { popInput s with done := false } w) .ack, ?step, rfl, rfl, rfl, rfl, rfl, rfl,
    fun l h1 h2 => ?window, rfl, popInput_inputs_of_cons hi, rfl⟩
  case step => rw [step_write s _ w rest hi hr (by decide), writeLoc_cmd,
    writeCmd_of_accept (s := popInput s) hbusy hd]
  case window => rw [peek_respond, peek_acceptWord _ w l h1 h2, peek_popInput]

/-! ### `cmd X` and its latency (R112, R233) -/

/-- The state after the host's write of the accepted word `w` to `CMD` on the idle core. -/
def afterAccept (s : State) (w : Word) : State :=
  respond (acceptWord { s with inputs := [], done := false } w) .ack

theorem drive_writeCmd_of_accept {s : State} (hs : s.Idle) {w : Word} {i : Instr} (hd : decode w = .accept i) :
    drive (wr32 0x00C#12 w) s = some ([], afterAccept s w) := by
  rw [drive_wr32 hs w (by decide), writeLoc_cmd, writeCmd_of_accept (s := { s with inputs := [] }) hs.1 hd, afterAccept]

/-- The state `wait` ends in, whatever the number of polls before the completion: a poll changes nothing but the answer, and the
last one answers over those before. -/
theorem drive_wait (polls : Nat) {s r : State} {w : Word} {i : Instr} (hbusy : s.busy = true) (hr : s.resetLine = false)
    (hin : s.inputs = []) (hp : s.pending = some w) (hd : decode w = .accept i) (he : exec i s = .next r) :
    ∃ log, drive (wait polls) s =
      some (log, respond { retire r with inputs := [] } (.data (statusWord (retire r)))) := by
  obtain ⟨log, a, hpolls, -⟩ := drive_polls polls s hr hin
  have hdone := drive_singleton (step_completion (s := respond s a) hbusy hr hin hp hd (exec_respond i s r a he))
  have hreleased : (retire (respond r a)).resetLine = false := (exec_controlKept i s r he).resetLine.trans hr
  have hlast := drive_singleton (step_pollStatus _ hreleased)
  exact ⟨_, drive_append_eq (drive_append_eq hpolls hdone) hlast⟩

/-- `cmd X` on the idle core ends in one state for every number of polls. -/
theorem drive_cmd {s : State} (hs : s.Idle) {i : Instr} (hwf : i.wellFormed = true) :
    ∃ t, (∀ polls, ∃ log, drive (cmd polls i) s = some (log, t)) ∧ t.busy = false ∧ t.done = true ∧
      t.lastCmd = encode i := by
  have hd : decode (encode i) = .accept i := decodeOfEncode i hwf
  obtain ⟨r, he⟩ := exec_completes i (afterAccept s (encode i)) hwf
  refine ⟨respond { retire r with inputs := [] } (.data (statusWord (retire r))), fun polls => ?_, rfl, rfl,
    (exec_controlKept i _ r he).lastCmd⟩
  obtain ⟨log, hwait⟩ := drive_wait polls (s := afterAccept s (encode i)) rfl hs.2 rfl rfl hd he
  exact ⟨_, drive_append_eq (drive_writeCmd_of_accept hs hd) hwait⟩

/-- Settles O16: the end state of `cmd X` is fixed before the number of polls is. -/
theorem commandResultIndependentOfLatency : Obligations.CommandResultIndependentOfLatency := by
  intro s i m n hwf hbusy hr
  obtain ⟨t, hruns, hidle, hdone, hlast⟩ := drive_cmd ⟨hbusy, hr⟩ hwf
  obtain ⟨log, hm⟩ := hruns m
  obtain ⟨log', hn⟩ := hruns n
  exact ⟨log, log', t, hm, hn, hidle, hdone, hlast⟩

/-! ### `NOP` (R230) -/

/-- Settles O29: the state `NOP` answers is the one it was given. -/
theorem nopChangesNothing : Obligations.NopChangesNothing :=
  ⟨opcodeMeans_of_decodeOpcode fun w hop => by simp [decodeOpcode, hop], fun s => ⟨s, rfl, Unchanged.refl _ s⟩⟩

end Sys2Proof.Machine

/-!
The family of the errors (60_exceptions.md). First the three writes that record an error: a rejected word (O14), a command while busy
(O15) and a data write while busy (O22). Then what any step can do to `ERR`, `ECODE` and `ERRINFO`, said once: keep them, clear
them, or record a misuse of the interface. From it follow that the first error wins (O17) and that errors come only from misuse (O18).
-/

namespace Sys2Proof.Machine

/-! ### The writes that record an error (R253 to R257) -/

theorem writeCmd_of_busy {s : State} (w : Word) (hbusy : s.busy = true) : writeCmd s w = recordError s .ebusyc w :=
  if_pos hbusy

theorem writeCmd_of_reject {s : State} {w : Word} {e : DecodeError} (hbusy : s.busy = false) (hd : decode w = .reject e) :
    writeCmd s w = recordError { s with done := false } (rejectCode e) w := by
  simp [writeCmd, hbusy, hd]

/-- A write to a writable data region while busy is dropped and recorded (R82, R257). -/
theorem writeLoc_busyData {s : State} {off : Offset} (v : Word) (hl : (locate off).isWritableData = true)
    (hbusy : s.busy = true) : writeLoc s off v = recordError s .ebusyw (off.zeroExtend 32) := by
  obtain ⟨e, -⟩ | ⟨e, -⟩ | ⟨e, -⟩ | ⟨-, -, h⟩ | ⟨-, hidle, -⟩ | ⟨hro, -⟩ := writeLoc_cases s off v
  · rw [e] at hl; cases hl
  · rw [e] at hl; cases hl
  · rw [e] at hl; cases hl
  · exact h
  · rw [hbusy] at hidle; cases hidle
  · rw [isWritableData_of_readOnly _ hro] at hl; cases hl

/-- The datum of `EBUSYW` is the offset itself (R257). -/
theorem toNat_zeroExtend_offset (off : Offset) : (off.zeroExtend 32).toNat = off.toNat :=
  BitVec.toNat_setWidth_of_le (by decide)

/-- `DONE` is shown in `STATUS` alone (R44). -/
theorem peek_clearDone (s : State) (l : Loc) (h : l ≠ .status) : ({ s with done := false } : State).peek l = s.peek l := by
  cases l with
  | status => exact absurd rfl h
  | _ => rfl

/-- Settles O14: the step is `recordError` with `DONE` cleared, which the laws of the state and of the window read. -/
theorem rejectedCommandOnlyRecordsError : Obligations.RejectedCommandOnlyRecordsError := by
  intro s w e rest hi hbusy hr hd
  refine ⟨respond (recordError { popInput s with done := false } (rejectCode e) w) .ack, ?step,
    (recordError_busy _ _ _).trans hbusy, recordError_pending _ _ _, recordError_done _ _ _, recordError_err _ _ _, ?code,
    recordError_errInfo _ _ _, fun l h1 h2 => ?window, rfl, (recordError_inputs _ _ _).trans (popInput_inputs_of_cons hi),
    recordError_draws _ _ _⟩
  case step => rw [step_write s _ w rest hi hr (by decide), writeLoc_cmd, writeCmd_of_reject (s := popInput s) hbusy hd]
  case code => cases e <;> exact recordError_ecode _ _ _
  case window => rw [peek_respond, peek_recordError _ _ w l h1 h2, peek_clearDone _ l h1, peek_popInput]

/-- Settles O15: busy, the write of `CMD` is `recordError`, with the word not decoded. -/
theorem commandWhileBusyIsDropped : Obligations.CommandWhileBusyIsDropped := by
  intro s w rest hi hbusy hr
  refine ⟨respond (recordError (popInput s) .ebusyc w) .ack, ?step, (recordError_busy _ _ _).trans hbusy,
    recordError_pending _ _ _, recordError_done _ _ _, recordError_err _ _ _, recordError_ecode _ _ _,
    recordError_errInfo _ _ _, fun l h1 h2 => ?window, (recordError_inputs _ _ _).trans (popInput_inputs_of_cons hi)⟩
  case step => rw [step_write s _ w rest hi hr (by decide), writeLoc_cmd, writeCmd_of_busy (s := popInput s) w hbusy]
  case window => rw [peek_respond, peek_recordError _ _ w l h1 h2, peek_popInput]

/-- Settles O22: busy, the write of a data region is `recordError`, with the offset as the datum. -/
theorem busyDataWriteIsDropped : Obligations.BusyDataWriteIsDropped := by
  intro s off v rest hi h4 hl hbusy hr
  refine ⟨respond (recordError (popInput s) .ebusyw (off.zeroExtend 32)) .ack, ?step, recordError_err _ _ _,
    recordError_ecode _ _ _, ?datum, (recordError_busy _ _ _).trans hbusy, recordError_done _ _ _, fun l h1 h2 => ?window,
    recordError_pending _ _ _, (recordError_inputs _ _ _).trans (popInput_inputs_of_cons hi)⟩
  case step => rw [step_write s off v rest hi hr h4, writeLoc_busyData (s := popInput s) v hl hbusy]
  case datum =>
    rw [respond_errInfo, recordError_errInfo, apply_ite BitVec.toNat, toNat_zeroExtend_offset]
    rfl
  case window => rw [peek_respond, peek_recordError _ _ _ l h1 h2, peek_popInput]

/-! ### The error registers -/

/-- `ERR`, `ECODE` and `ERRINFO`. -/
def State.errorRegs (s : State) : Bool × BitVec 4 × Word := (s.err, s.ecode, s.errInfo)

theorem errorRegs_eq_iff (s t : State) :
    t.errorRegs = s.errorRegs ↔ t.err = s.err ∧ t.ecode = s.ecode ∧ t.errInfo = s.errInfo := by
  simp [State.errorRegs]

theorem FlagsKept.errorRegs {s t : State} (h : FlagsKept s t) : t.errorRegs = s.errorRegs :=
  (errorRegs_eq_iff s t).mpr ⟨h.err, h.ecode, h.errInfo⟩

/-- The first error's registers stand (R262). -/
theorem errorRegs_recordError (s : State) (e : ErrorCode) (info : Word) :
    (recordError s e info).errorRegs = if s.err then s.errorRegs else (true, e.code, info) := by
  unfold recordError; split <;> rfl

theorem errorRegs_hostRead (s : State) (off : Offset) (size : Nat) : (hostRead s off size).errorRegs = s.errorRegs := by
  obtain ⟨r, h⟩ | h := hostRead_cases s off size <;> rw [h] <;> rfl

/-- A host write of `v` that clears the error registers: a 1 to `STATUS.ERR` (R44) or a soft reset (R280). -/
def clearsError (off : Offset) (v : Word) : Prop :=
  off = 0x008#12 ∧ v.getLsbD 2 = true ∨ off = 0x004#12 ∧ v.getLsbD 1 = true

/-- A host write of `v` that misuses the interface of a core whose `STATUS.BUSY` is `busy`, with the code and the datum of its error
(R253 to R257). -/
inductive Misuse (busy : Bool) (off : Offset) (v : Word) : ErrorCode → Word → Prop where
  | busyCommand : off = 0x00C#12 → busy = true → Misuse busy off v .ebusyc v
  | rejectedCommand (e : DecodeError) :
      off = 0x00C#12 → busy = false → decode v = .reject e → Misuse busy off v (rejectCode e) v
  | busyData : (locate off).isWritableData = true → busy = true → Misuse busy off v .ebusyw (off.zeroExtend 32)

/-- What the host's write of `v`, made in the state `s`, can do to the error registers: `t` has those of `s`, or `ERR` clear, or those
of `s` with a misuse recorded. -/
def WriteErrorEffect (s : State) (off : Offset) (v : Word) (t : State) : Prop :=
  t.errorRegs = s.errorRegs ∨ (clearsError off v ∧ t.err = false) ∨
  ∃ e info, Misuse s.busy off v e info ∧ t.errorRegs = if s.err then s.errorRegs else (true, e.code, info)

theorem writeCtrl_errorEffect (s : State) (v : Word) : WriteErrorEffect s 0x004#12 v (writeCtrl s v) := by
  unfold writeCtrl
  split
  case isTrue hreset => exact .inr (.inl ⟨.inr ⟨rfl, hreset⟩, rfl⟩)
  case isFalse => exact .inl rfl

theorem writeStatus_errorEffect (s : State) (v : Word) : WriteErrorEffect s 0x008#12 v (writeStatus s v) := by
  cases hclear : v.getLsbD 2 with
  | true => exact .inr (.inl ⟨.inl ⟨rfl, hclear⟩, by rw [writeStatus_err, hclear, Bool.not_true, Bool.and_false]⟩)
  | false =>
    refine .inl ((errorRegs_eq_iff _ _).mpr ?_)
    rw [writeStatus_err, writeStatus_ecode, writeStatus_errInfo, hclear]
    simp

theorem writeCmd_errorEffect (s : State) (v : Word) : WriteErrorEffect s 0x00C#12 v (writeCmd s v) := by
  obtain ⟨hbusy, h⟩ | ⟨hidle, e, hd, h⟩ | ⟨-, i, -, h⟩ := writeCmd_cases s v
  · exact .inr (.inr ⟨_, _, .busyCommand rfl hbusy, h ▸ errorRegs_recordError s _ _⟩)
  · exact .inr (.inr ⟨_, _, .rejectedCommand e rfl hidle hd, h ▸ errorRegs_recordError { s with done := false } _ _⟩)
  · exact .inl (h ▸ rfl)

theorem writeLoc_errorEffect (s : State) {off : Offset} (v : Word) (h4 : off.toNat % 4 = 0) :
    WriteErrorEffect s off v (writeLoc s off v) := by
  obtain ⟨hl, h⟩ | ⟨hl, h⟩ | ⟨hl, h⟩ | ⟨hl, hbusy, h⟩ | ⟨-, -, h⟩ | ⟨-, h⟩ := writeLoc_cases s off v <;> rw [h]
  · obtain rfl := locate_ctrl off h4 hl
    exact writeCtrl_errorEffect s v
  · obtain rfl := locate_status off h4 hl
    exact writeStatus_errorEffect s v
  · obtain rfl := locate_cmd off h4 hl
    exact writeCmd_errorEffect s v
  · exact .inr (.inr ⟨_, _, .busyData hl hbusy, errorRegs_recordError s _ _⟩)
  · exact .inl (poke_flagsKept s _ v).errorRegs
  · exact .inl rfl

/-- Everything a step can do to the error registers: an aligned 32-bit write with the reset line released has its effect, the
assertion of the reset input clears them, and any other step keeps them. -/
theorem step_errorRegs_cases {s t : State} (h : step s = .next t) :
    t.errorRegs = s.errorRegs ∨ (s.inputs.head? = some .resetAssert ∧ t.err = false) ∨
    ∃ off v, s.inputs.head? = some (.write off 4 v) ∧ off.toNat % 4 = 0 ∧ s.resetLine = false ∧ WriteErrorEffect s off v t := by
  obtain ⟨-, -, rfl⟩ | ⟨-, -, _, i, r, -, -, he, rfl⟩ | ⟨off, size, _, -, rfl⟩ | ⟨off, size, v, rest, hi, rfl⟩ |
    ⟨rest, hi, rfl⟩ | ⟨_, -, rfl⟩ := step_cases h
  · exact .inl rfl
  · exact .inl (exec_controlKept i _ r he).flagsKept.errorRegs
  · exact .inl (errorRegs_hostRead (popInput s) off size)
  · obtain ⟨r, hw, -⟩ | ⟨hlegal, hr, hw⟩ := hostWrite_cases (popInput s) off size v <;> rw [hw]
    · exact .inl rfl
    · obtain ⟨rfl, h4⟩ := (legalAccess_iff off size).mp hlegal
      exact .inr (.inr ⟨off, v, by rw [hi]; rfl, h4, hr, writeLoc_errorEffect (popInput s) v h4⟩)
  · exact .inr (.inl ⟨by rw [hi]; rfl, rfl⟩)
  · exact .inl rfl

/-- Settles O17: with an error recorded, the record of a misuse keeps the registers too. -/
theorem firstErrorWins : Obligations.FirstErrorWins := by
  intro s t herr h
  have hkept : t.errorRegs = s.errorRegs → t.err = true ∧ t.ecode = s.ecode ∧ t.errInfo = s.errInfo := by
    rw [errorRegs_eq_iff, herr]; exact id
  obtain hsame | ⟨hreset, -⟩ | ⟨off, v, hi, -, hr, hsame | ⟨hclear, -⟩ | ⟨e, info, -, hrec⟩⟩ := step_errorRegs_cases h
  · exact .inl (hkept hsame)
  · exact .inr (.inr hreset)
  · exact .inl (hkept hsame)
  · exact .inr (.inl ⟨off, v, hi, hr, hclear⟩)
  · exact .inl (hkept (by rw [hrec, if_pos herr]))

/-- Settles O18: the one way `ERR` comes to be 1 is the record of a misuse, of which there are these five. -/
theorem errorsComeOnlyFromInterfaceMisuse : Obligations.ErrorsComeOnlyFromInterfaceMisuse := by
  intro s t hclear h herr
  have hchanged : t.errorRegs ≠ s.errorRegs := by simp [errorRegs_eq_iff, hclear, herr]
  obtain hsame | ⟨-, hoff⟩ | ⟨off, v, hi, h4, -, hsame | ⟨-, hoff⟩ | ⟨e, info, hmisuse, hrec⟩⟩ := step_errorRegs_cases h
  · exact absurd hsame hchanged
  · rw [herr] at hoff; cases hoff
  · exact absurd hsame hchanged
  · rw [herr] at hoff; cases hoff
  · refine ⟨off, v, hi, h4, ?_⟩
    obtain ⟨-, hcode, hinfo⟩ : t.err = true ∧ t.ecode = e.code ∧ t.errInfo = info := by
      simpa [State.errorRegs, hclear] using hrec
    cases hmisuse with
    | busyCommand hcmd hbusy => exact .inl ⟨hcmd, hbusy, hcode, hinfo⟩
    | rejectedCommand e hcmd hidle hd =>
      cases e with
      | ersv => exact .inr (.inl ⟨hcmd, hidle, hd, hcode, hinfo⟩)
      | eillop => exact .inr (.inr (.inl ⟨hcmd, hidle, hd, hcode, hinfo⟩))
      | erounds => exact .inr (.inr (.inr (.inl ⟨hcmd, hidle, hd, hcode, hinfo⟩)))
    | busyData hl hbusy =>
      exact .inr (.inr (.inr (.inr ⟨hl, hbusy, hcode, by rw [hinfo, toNat_zeroExtend_offset]⟩)))

end Sys2Proof.Machine

/-!
The family of reset (70_reset_and_hazards.md): the values a reset gives the registers (O1), the `CTRL` write (O28), and the reset
input (O5), under which the invariant holds the core in the reset state whatever the host does.
-/

namespace Sys2Proof.Machine

/-! ### The reset values (R281) -/

theorem getHalf_zero (h : Half) : getHalf 0#64 h = 0#32 := by
  cases h <;> decide

theorem bufWord_replicate_zero : ∀ w : Fin 8, bufWord (Vector.replicate 32 0#8) w = 0#32 := by
  decide

/-- After reset every register of the window but `ID` and `IV` reads 0. -/
theorem peek_reset_eq_zero (l : Loc) (hid : l ≠ .id) (hiv : ∀ h, l ≠ .iv h) : State.reset.peek l = 0#32 := by
  cases l with
  | id => exact absurd rfl hid
  | iv h => exact absurd rfl (hiv h)
  | ctrl | status | phase => decide
  | cmd | errInfo | reserved => rfl
  | sponge | key | nonce | din | dout | limb => simp [State.peek, State.reset, State.fe, getHalf_zero]
  | buf k w => simpa [State.peek, State.reset, State.buf] using bufWord_replicate_zero w

/-- Settles O1: the window shows a reset of any state as it shows the reset state. -/
theorem resetGivesEveryRegisterItsValue : Obligations.ResetGivesEveryRegisterItsValue := by
  intro s t ht
  obtain ⟨hpeek, hpending, hirq⟩ :
      (∀ l, t.peek l = State.reset.peek l) ∧ t.pending = none ∧ t.irq = false := by
    obtain rfl | rfl := ht
    · exact ⟨fun _ => rfl, rfl, rfl⟩
    · exact ⟨peek_applyReset s, rfl, rfl⟩
  simp only [hpeek]
  exact ⟨rfl, by decide, by decide, peek_reset_eq_zero, hpending, hirq⟩

/-! ### A write to `CTRL` (R280) -/

theorem writeCtrl_of_reset (s : State) {v : Word} (hv : v.getLsbD 1 = true) : writeCtrl s v = applyReset s :=
  if_pos hv

theorem writeCtrl_of_noReset (s : State) {v : Word} (hv : v.getLsbD 1 = false) :
    writeCtrl s v = { s with ie := v.getLsbD 0 } := by
  simp only [writeCtrl, hv, Bool.false_eq_true, if_false]

theorem writeCtrl_inputs (s : State) (v : Word) : (writeCtrl s v).inputs = s.inputs := by
  unfold writeCtrl
  split <;> rfl

/-- `IE` is shown in `CTRL` alone (R42). -/
theorem peek_setIe (s : State) (ie : Bool) (l : Loc) (h : l ≠ .ctrl) : ({ s with ie := ie } : State).peek l = s.peek l := by
  cases l with
  | ctrl => exact absurd rfl h
  | _ => rfl

/-- Settles O28: the step is `writeCtrl`, whose two cases bit 1 of the data decides. -/
theorem ctrlWriteSoftResetsOrSetsIe : Obligations.CtrlWriteSoftResetsOrSetsIe := by
  intro s v rest hi hr
  refine ⟨respond (writeCtrl (popInput s) v) .ack, ?step, (writeCtrl_inputs _ v).trans (popInput_inputs_of_cons hi),
    fun hv => ?reset, fun hv => ?setIe⟩
  case step => rw [step_write s _ v rest hi hr (by decide), writeLoc_ctrl]
  case reset =>
    rw [writeCtrl_of_reset _ hv]
    exact ⟨fun l => by rw [peek_respond, peek_applyReset], rfl⟩
  case setIe =>
    rw [writeCtrl_of_noReset _ hv]
    exact ⟨rfl, fun l hl => by rw [peek_respond, peek_setIe _ _ l hl, peek_popInput], rfl⟩

/-! ### The reset input (R282, R283) -/

theorem State.Inv.setInputs {s : State} (hs : s.Inv) (es : List Event) : ({ s with inputs := es } : State).Inv :=
  hs.of_flagsKept ⟨rfl, rfl, rfl, rfl, rfl, rfl, rfl, rfl⟩ fun h =>
    congrArg (fun u : State => { u with inputs := es }) (hs.heldInReset h)

/-- Only the release of the reset input takes the asserted line down. -/
theorem step_keeps_resetLine {s t : State} (h : step s = .next t) (hr : s.resetLine = true)
    (hi : s.inputs.head? ≠ some .resetRelease) : t.resetLine = true := by
  obtain ⟨-, -, rfl⟩ | ⟨-, -, _, i, r, -, -, he, rfl⟩ | ⟨off, size, _, -, rfl⟩ | ⟨off, size, v, _, -, rfl⟩ |
    ⟨_, -, rfl⟩ | ⟨rest, hrelease, -⟩ := step_cases h
  · exact hr
  · exact (exec_controlKept i _ r he).resetLine.trans hr
  · obtain ⟨a, hread⟩ | hread := hostRead_cases (popInput s) off size <;> rw [hread] <;> exact hr
  · obtain ⟨a, hwrite, -⟩ | ⟨-, hr', -⟩ := hostWrite_cases (popInput s) off size v
    · rw [hwrite]; exact hr
    · exact absurd (hr'.symm.trans hr) Bool.false_ne_true
  · rfl
  · exact absurd (by rw [hrelease]; rfl) hi

/-- Events other than the release, with the reset input asserted: the run goes on, with the invariant and the line as they were. -/
theorem drive_underReset {es : List Event} (hes : Event.resetRelease ∉ es) {s : State} (hs : s.Inv)
    (hr : s.resetLine = true) : ∃ log t, drive es s = some (log, t) ∧ t.Inv ∧ t.resetLine = true := by
  induction es generalizing s with
  | nil => exact ⟨[], s, rfl, hs, hr⟩
  | cons e es ih =>
    obtain ⟨hne, hes'⟩ : Event.resetRelease ≠ e ∧ Event.resetRelease ∉ es := by simpa using hes
    have hlisted := hs.setInputs [e]
    obtain ⟨u, hstep⟩ := stepNeverStops _ hlisted
    have hu : u.resetLine = true := step_keeps_resetLine hstep hr fun h => hne (Option.some.inj h).symm
    obtain ⟨log, t, hrun, ht⟩ := ih hes' (stepKeepsInvariant _ u hlisted hstep) hu
    exact ⟨_, t, by rw [drive_cons e es s u hstep, hrun]; rfl, ht⟩

/-- Settles O5: at the release the invariant says that the core holds the reset state. -/
theorem hardwareResetEndsInResetState : Obligations.HardwareResetEndsInResetState := by
  intro s es hes
  have hassert := drive_singleton (step_event s .resetAssert)
  obtain ⟨log, t, hrun, ht, hr⟩ := drive_underReset hes (assertReset_inv { s with inputs := [] }) rfl
  have hrelease := drive_singleton (step_event t .resetRelease)
  have hheld : applyReset t = t := ht.heldInReset hr
  refine ⟨_, _, drive_append_eq (drive_append_eq hassert hrun) hrelease, fun l => ?window, ?pending, rfl⟩
  case window => rw [peek_releaseReset, peek_inputs, ← hheld, peek_applyReset]
  case pending => exact (congrArg State.pending hheld).symm

end Sys2Proof.Machine
